-- ==== Sys2Proof/Word.lean ====
section
/-! DEFINITION. The block's two data widths (R8): a byte is 8 bits, a word is 32 bits, and every value is unsigned. -/

namespace Sys2Proof

/-- A byte: 8 bits (R8). -/
abbrev Byte := BitVec 8

/-- A word: 32 bits (R8); the width of every register and of a command word. -/
abbrev Word := BitVec 32

end Sys2Proof
end

