-- ==== Sys2Proof/Syntax.lean ====
section
/-! DEFINITION. The nine commands of KLPE command set version 1 (R2, R92, R96), one constructor per row of
spec/opcode_table.json, and the fields of the one command format CW (R91). -/

namespace Sys2Proof

/-- The nine legal commands (R96). A command has no operand field (R97): the suffix K is field K = 1 (keyed), the
suffix S is field S = 1 (strict). -/
inductive Instr where
  /-- `cap`, R111: the capacity calculator. -/
  | cap
  /-- `perm`, R128 with K = 0. -/
  | perm
  /-- `perm.k`, R128 with K = 1. -/
  | permK
  /-- `embed`, R141 with K = 0, S = 0. -/
  | embed
  /-- `embed.k`, R141 with K = 1, S = 0. -/
  | embedK
  /-- `embed.s`, R141 with K = 0, S = 1. -/
  | embedS
  /-- `embed.k.s`, R141 with K = 1, S = 1. -/
  | embedKS
  /-- `extract`, R161 with K = 0. -/
  | extract
  /-- `extract.k`, R161 with K = 1. -/
  | extractK
  deriving DecidableEq, Repr

/-- The fields of format CW (R91): OP = bits 3:0, K = bit 4, S = bit 5, PROTO = bits 7:6, RSV = bits 31:8. -/
structure CommandFields where
  op : BitVec 4
  k : Bool
  s : Bool
  proto : BitVec 2
  rsv : BitVec 24
  deriving DecidableEq, Repr

/-- The four operations of R92. -/
inductive Operation where
  | cap
  | perm
  | embed
  | extract
  deriving DecidableEq, Repr

/-- The operation a command names (R92). -/
def Instr.operation : Instr → Operation
  | .cap => .cap
  | .perm => .perm
  | .permK => .perm
  | .embed => .embed
  | .embedK => .embed
  | .embedS => .embed
  | .embedKS => .embed
  | .extract => .extract
  | .extractK => .extract

/-- Field K of a command: the key-derived permutation is used (R91). -/
def Instr.keyed : Instr → Bool
  | .cap => false
  | .perm => false
  | .permK => true
  | .embed => false
  | .embedK => true
  | .embedS => false
  | .embedKS => true
  | .extract => false
  | .extractK => true

/-- Field S of a command: an over-long payload is rejected (R91). -/
def Instr.strict : Instr → Bool
  | .cap => false
  | .perm => false
  | .permK => false
  | .embed => false
  | .embedK => false
  | .embedS => true
  | .embedKS => true
  | .extract => false
  | .extractK => false

end Sys2Proof
end

