-- ==== Sys2Proof/WellFormed.lean ====
section
/-! DEFINITION. Which fields make a legal command (R93, R94, R95, R99). The commands of `Instr` have no operand, so each
of them is well-formed; the checks are on the fields of a command word. -/

namespace Sys2Proof

/-- R94: bits 31:8 must be 0. -/
def CommandFields.rsvClear (f : CommandFields) : Bool := f.rsv == 0#24

/-- R93: only the sentinel protocol, PROTO = 0b00, exists. -/
def CommandFields.protoSentinel (f : CommandFields) : Bool := f.proto == 0#2

/-- R92: OP is one of CAP, PERM, EMBED, EXTRACT. -/
def CommandFields.opDefined (f : CommandFields) : Bool :=
  f.op == 1#4 || f.op == 2#4 || f.op == 3#4 || f.op == 4#4

/-- R95: K has no meaning for CAP and must be 0 there. -/
def CommandFields.kMeaningful (f : CommandFields) : Bool := !(f.op == 1#4 && f.k)

/-- R95: S has a meaning for EMBED only and must be 0 elsewhere. -/
def CommandFields.sMeaningful (f : CommandFields) : Bool := f.op == 3#4 || !f.s

/-- The fields of a legal command word (R96). -/
def CommandFields.wellFormed (f : CommandFields) : Bool :=
  f.rsvClear && f.protoSentinel && f.opDefined && f.kMeaningful && f.sMeaningful

end Sys2Proof
end

