-- ==== Sys2Proof/Decode.lean ====
section
/-! DEFINITION. The decoder of the 32-bit command word, total and rejecting by name (R96), the encoder written from the
same field table (R91, R92), and the host's entry decodeTableWord. -/

namespace Sys2Proof

/-- Why a word is no command. All of them are ILLEGAL_CMD to the host (R99). -/
inductive DecodeError where
  /-- R94: some bit of 31:8 is set. -/
  | reservedBits
  /-- R93: PROTO is not 0b00. -/
  | reservedProtocol
  /-- R92: OP is 0x0 or 0x5 to 0xF. -/
  | reservedOperation
  /-- R95: a K or S bit that has no meaning for the operation is set. -/
  | meaninglessField
  deriving DecidableEq, Repr

/-- R91: the fields of a command word. -/
def fieldsOfWord (w : Word) : CommandFields where
  op := w.extractLsb' 0 4
  k := w.getLsbD 4
  s := w.getLsbD 5
  proto := w.extractLsb' 6 2
  rsv := w.extractLsb' 8 24

/-- R91 read the other way: the word with the given fields. -/
def wordOfFields (f : CommandFields) : Word :=
  f.rsv ++ f.proto ++ BitVec.ofBool f.s ++ BitVec.ofBool f.k ++ f.op

/-- The body of `decode` in R96, after the tests of RSV and PROTO. -/
def decodeOperation (op : BitVec 4) (k s : Bool) : Except DecodeError Instr :=
  match op.toNat with
  | 1 => if k || s then .error .meaninglessField else .ok .cap
  | 2 => if s then .error .meaninglessField else .ok (if k then .permK else .perm)
  | 3 => .ok (if k then (if s then .embedKS else .embedK) else (if s then .embedS else .embed))
  | 4 => if s then .error .meaninglessField else .ok (if k then .extractK else .extract)
  | _ => .error .reservedOperation

/-- R96: decoding, a total function of the fields, in the order of R96's pseudocode. -/
def decodeFields (f : CommandFields) : Except DecodeError Instr :=
  if f.rsv ≠ 0#24 then .error .reservedBits
  else if f.proto ≠ 0#2 then .error .reservedProtocol
  else decodeOperation f.op f.k f.s

/-- R96: decoding, a total function of the 32-bit word. -/
def decode (w : Word) : Except DecodeError Instr := decodeFields (fieldsOfWord w)

/-- The OP field of each operation (R92). -/
def opcodeOf : Operation → BitVec 4
  | .cap => 0x1#4
  | .perm => 0x2#4
  | .embed => 0x3#4
  | .extract => 0x4#4

/-- The fields of each command (R91, R92, R95). -/
def fieldsOf (i : Instr) : CommandFields where
  op := opcodeOf i.operation
  k := i.keyed
  s := i.strict
  proto := 0b00#2
  rsv := 0#24

/-- The command word of a command (R96's table). -/
def encode (i : Instr) : Word := wordOfFields (fieldsOf i)

/-- A command is well-formed when its fields are (R95); every constructor of `Instr` is. -/
def Instr.wellFormed (i : Instr) : Bool := (fieldsOf i).wellFormed

/-- The host's entry: what the decoder reads from the instruction whose low `nbits` bits are `w`, the bits above being 0.
A command is one 32-bit word delivered whole (R90, R98), so it is laid out as one word. -/
def decodeTableWord (nbits w : Nat) : Option Instr :=
  let v := w % 2 ^ nbits
  if v < 2 ^ 32 then
    match decode (BitVec.ofNat 32 v) with
    | .ok i => some i
    | .error _ => none
  else none

end Sys2Proof
end

