-- ==== Sys2Proof/Config.lean ====
section
/-! DEFINITION. What an instance of the block fixes (the parameters of R7 and R54) and the free values: constants without
a body, of which nothing can be proved. -/

namespace Sys2Proof

/-- The parameter PERM_GEN (R7, R121): the spec's default generator, or any other generator that obeys the laws of R121,
of which a model may assume nothing but those laws. -/
inductive PermGenChoice where
  /-- DEFAULT_PERM_GEN (R122). -/
  | default
  /-- Any other conforming generator: `Config.otherPermGen` made lawful. -/
  | other
  deriving DecidableEq, Repr

/-- The parameter UNWRITTEN_READ (R7, R53, R79). -/
inductive UnwrittenRead where
  /-- A read of an unspecified byte is a model fault. -/
  | fault
  /-- A read of an unspecified byte gives a free value. -/
  | draw
  deriving DecidableEq, Repr

/-- The parameters of an instance (R7, R54): the three RAM sizes, which the registers N_MAX, K_MAX and P_MAX read
(R35, R36, R37), and the two choices no register shows. No step changes them. -/
structure Params where
  nMax : Word
  kMax : Word
  pMax : Word
  permGen : PermGenChoice
  unwritten : UnwrittenRead
  deriving DecidableEq, Repr

/-- The legal range of the parameters (R7). -/
abbrev Params.Legal (p : Params) : Prop :=
  1 ≤ p.nMax.toNat ∧ p.nMax.toNat ≤ 2 ^ 28 ∧
  1 ≤ p.kMax.toNat ∧ p.kMax.toNat ≤ 2 ^ 20 ∧
  p.nMax.toNat / 8 ≤ p.pMax.toNat ∧ p.pMax.toNat ≤ 2 ^ 27

/-- The parameters of the instance that `State.reset` is. DESIGN CHOICE (log entry 1), unsafe: the spec gives the sizes no
value; these are the largest legal ones. PERM_GEN and UNWRITTEN_READ take the defaults of R7. -/
def Config.resetParams : Params where
  nMax := 0x10000000#32
  kMax := 0x00100000#32
  pMax := 0x08000000#32
  permGen := .default
  unwritten := .fault

/-- FREE VALUE (R53, R79, log entry 4): what the n-th read of an unspecified RAM byte returns under `draw`. -/
opaque Config.drawnByte : Nat → Byte

/-- FREE VALUE (R53, R79, log entry 4): what the n-th read of an unspecified PERM RAM entry returns under `draw`. -/
opaque Config.drawnEntry : Nat → Word

/-- FREE VALUE (R121, log entry 3): a permutation generator other than the default, from the key's bytes and the length. -/
opaque Config.otherPermGen : List Byte → Nat → List Nat

end Sys2Proof
end

