-- ==== Sys2Proof/Machine/State.lean ====
section
/-! DEFINITION. The machine's state as plain data, its state after reset, and the reasons a step can stop. -/

namespace Sys2Proof.Machine

/-- A RAM of cells of `w` bits: (index, value) pairs, indexes strictly rising. A cell that is not listed is unspecified
(R53): it has no value. A byte RAM is `Ram 8`, that is `List Host.Cell`. -/
abbrev Ram (w : Nat) := List (Nat × BitVec w)

/-- The canonical form: indexes strictly rise. (No value stands for an unlisted cell, so equal RAMs are equal lists.) -/
abbrev Ram.wf {w : Nat} (m : Ram w) : Prop := m.Pairwise (fun a b => a.1 < b.1)

/-- The four RAMs (R47 to R50). -/
inductive RamName where
  | key
  | payload
  | pixel
  | perm
  deriving DecidableEq, Repr

/-- The error codes of R182. Codes 5 to 15 are never produced, so they have no constructor. -/
inductive ErrCode where
  | noError
  | illegalCmd
  | lengthRange
  | unsupportedFormat
  | capacityExceeded
  deriving DecidableEq, Repr

/-- The engine (R40): its phase, and when BUSY the accepted command word `cur`. -/
inductive Engine where
  | idle
  | busy (cur : Word)
  deriving DecidableEq, Repr

/-- The size of a host access in bytes: 1, 2 or 4 (R60). -/
inductive AccessSize where
  | one
  | two
  | four
  deriving DecidableEq, Repr

/-- The size as a number of bytes. -/
def AccessSize.bytes : AccessSize → Nat
  | .one => 1
  | .two => 2
  | .four => 4

/-- The answer to a host access (R20, R60): OKAY with 32 bits of read data (0 for a write), or ERROR without data (R190). -/
inductive Response where
  | okay (rdata : Word)
  | error
  deriving DecidableEq, Repr

/-- One element of the total order of steps (R72): a host access (R60), the engine's turn (R40), the assertion of `rst`
(R220), or power-on (R222). -/
inductive Turn where
  | read (addr : Word) (n : AccessSize)
  | write (addr : Word) (n : AccessSize) (v : Word)
  | engine
  | rst
  | powerOn
  deriving DecidableEq, Repr

/-- Everything the spec gives the block (INVENTORY.md, State). STATUS.BUSY is the engine's phase (R40) and is stored there
only; ID and VERSION are constants; `irq` is a function of the state (R51). -/
structure State where
  /-- The instance's parameters; N_MAX, K_MAX and P_MAX are registers (R35, R36, R37). No step changes them. -/
  params : Params
  /-- LAST_CMD, read through CMD (R25). -/
  lastCmd : Word
  /-- STATUS.DONE (R28). -/
  done : Bool
  /-- STATUS.ERR (R29). -/
  err : Bool
  /-- STATUS.OVERRUN (R30). -/
  overrun : Bool
  /-- STATUS.TRUNC (R31). -/
  trunc : Bool
  /-- STATUS.SENT_WR (R31). -/
  sentWr : Bool
  /-- STATUS.SENT_FOUND (R31). -/
  sentFound : Bool
  /-- ERRCODE (R32). -/
  errcode : ErrCode
  /-- PIXEL_LEN (R33). -/
  pixelLen : Word
  /-- BPP, its 8 implemented bits (R34). -/
  bpp : Byte
  /-- KEY_LEN (R38). -/
  keyLen : Word
  /-- PAYLOAD_LEN (R39). -/
  payloadLen : Word
  /-- CAPACITY (R41). -/
  capacity : Word
  /-- EMB_COUNT (R42). -/
  embCount : Word
  /-- OUT_LEN (R43). -/
  outLen : Word
  /-- UNITS_USED (R44). -/
  unitsUsed : Word
  /-- IRQ_EN, its 3 implemented bits: DONE_IE, ERR_IE, OVERRUN_IE from bit 0 (R45). -/
  irqEn : BitVec 3
  /-- KEY RAM (R47). -/
  key : Ram 8
  /-- PAYLOAD RAM (R48). -/
  pay : Ram 8
  /-- PIXEL RAM (R49). -/
  pix : Ram 8
  /-- PERM RAM, 32-bit entries (R50). -/
  perm : Ram 32
  /-- The engine's phase and `cur` (R40). -/
  engine : Engine
  /-- The model's own: the turns still to come, the next one first (log entry 2). -/
  inputs : List Turn
  /-- The model's own: the host port's answer to the last host access (R60), none before the first. -/
  response : Option Response
  /-- The model's own: how many free values have been drawn (log entry 4). -/
  draws : Nat
  deriving DecidableEq, Repr

/-- The reasons the machine stops with a fault. -/
inductive Fault where
  /-- Raised by a host read, or by the engine's complete step, that reads an unspecified cell of the named RAM on an
  instance with UNWRITTEN_READ = fault (R53, R79). Safe: the hardware returns some byte, which the spec does not say. -/
  | unspecifiedRead (ram : RamName)
  deriving DecidableEq, Repr

/-- The reasons the model gives no meaning. -/
inductive Refusal where
  /-- Raised by an arm of exec whose instruction has no meaning yet; no arm does. Safe. -/
  | notModelled (mnemonic : String)
  /-- Raised by the engine's turn when the word it holds is no command. Acceptance never lets such a word in (R180), so
  only a state no run reaches raises it. Safe. -/
  | heldWordIsNoCommand
  deriving DecidableEq, Repr

/-- What a step answers. -/
abbrev StepOutcome := Host.Outcome State Fault Refusal

/-- The state after power-on of an instance (R222): every register at its value in R52, every RAM cell unspecified, the
engine IDLE, with the given turns to come and the given count of draws. -/
def State.afterPowerOn (p : Params) (inputs : List Turn) (draws : Nat) : State where
  params := p
  lastCmd := 0
  done := false
  err := false
  overrun := false
  trunc := false
  sentWr := false
  sentFound := false
  errcode := .noError
  pixelLen := 0
  bpp := 0
  keyLen := 0
  payloadLen := 0
  capacity := 0
  embCount := 0
  outLen := 0
  unitsUsed := 0
  irqEn := 0
  key := []
  pay := []
  pix := []
  perm := []
  engine := .idle
  inputs := inputs
  response := none
  draws := draws

/-- The machine right after (power-on) reset (R52, R53, R222), with no turn to come. -/
def State.reset : State := State.afterPowerOn Config.resetParams [] 0

/-- STATUS.BUSY, which is the engine's phase (R27, R40). -/
def State.busy (s : State) : Bool :=
  match s.engine with
  | .idle => false
  | .busy _ => true

end Sys2Proof.Machine
end

