-- ==== Sys2Proof/Machine/Ops.lean ====
section
/-! DEFINITION. The named operations over RAM cells and registers: reading and writing cells (R53, R65, R71, R79), the
little-endian byte order (R64, R68), rejecting a command (R181) and its acknowledgement (R26, R194), accepting one (R187)
and completing one (R188). -/

namespace Sys2Proof.Machine

/-! ### RAM cells -/

/-- The value of cell `k`, none when it is unspecified (R53). -/
def Ram.read {w : Nat} : Ram w → Nat → Option (BitVec w)
  | [], _ => none
  | (a, b) :: m, k => if k = a then some b else Ram.read m k

/-- Cell `k` becomes `v`; the canonical form is kept. -/
def Ram.write {w : Nat} : Ram w → Nat → BitVec w → Ram w
  | [], k, v => [(k, v)]
  | (a, b) :: m, k, v =>
    if k < a then (k, v) :: (a, b) :: m
    else if k = a then (k, v) :: m
    else (a, b) :: Ram.write m k v

/-- Cells 0 to n−1 become unspecified (R221). -/
def Ram.forget {w : Nat} (m : Ram w) (n : Nat) : Ram w := m.filter (fun c => decide (n ≤ c.1))

/-- Cells k, k+1, ... become the values of the list, in order. -/
def Ram.writeList {w : Nat} : Ram w → Nat → List (BitVec w) → Ram w
  | m, _, [] => m
  | m, k, v :: vs => Ram.writeList (Ram.write m k v) (k + 1) vs

/-- The treatment of a read cell under UNWRITTEN_READ (R53, R79): a specified cell gives its value; an unspecified one is
a model fault or a free value, and each free value is a fresh one. Answers the value and the new count of draws. -/
def readCell {w : Nat} (mode : UnwrittenRead) (name : RamName) (free : Nat → BitVec w)
    (cell : Option (BitVec w)) (draws : Nat) : Except Fault (BitVec w × Nat) :=
  match cell, mode with
  | some v, _ => .ok (v, draws)
  | none, .fault => .error (.unspecifiedRead name)
  | none, .draw => .ok (free draws, draws + 1)

/-- The `n` bytes at offsets `o`, `o + 1`, ... of a byte RAM, lowest offset first. -/
def readBytes (mode : UnwrittenRead) (name : RamName) (m : Ram 8) :
    (o n draws : Nat) → Except Fault (List Byte × Nat)
  | _, 0, d => .ok ([], d)
  | o, n + 1, d => do
    let (b, d) ← readCell mode name Config.drawnByte (Ram.read m o) d
    let (bs, d) ← readBytes mode name m (o + 1) n d
    .ok (b :: bs, d)

/-- R64: bytes combined little-endian and zero-extended to 32 bits; the first byte of the list is b_0. -/
def wordOfBytes : List Byte → Word
  | [] => 0
  | b :: bs => (b.setWidth 32) ||| (wordOfBytes bs <<< 8)

/-- R65: the low `n` bytes of `v`, byte v[7:0] first. -/
def bytesOfWord : (n : Nat) → Word → List Byte
  | 0, _ => []
  | n + 1, v => v.setWidth 8 :: bytesOfWord n (v >>> 8)

/-! ### Bits of a data unit -/

/-- `(old & 0xFE) | b`: bit 0 replaced, bits 7:1 kept (R71). -/
def withBit0 (old : Byte) (b : Bool) : Byte := (old &&& 0xFE#8) ||| (if b then 1#8 else 0#8)

/-- The bits of a byte, least significant first (R142). -/
def bitsOfByte (b : Byte) : List Bool := (List.range 8).map b.getLsbD

/-- The byte whose bit t is the t-th of the list (R162). -/
def byteOfBits : List Bool → Byte
  | [] => 0
  | b :: bs => (if b then 1#8 else 0#8) ||| (byteOfBits bs <<< 1)

/-- PIXEL RAM and the count of draws: what the engine's loops over data units carry along. -/
structure Carrier where
  pix : Ram 8
  draws : Nat
  deriving DecidableEq, Repr

/-- R71, ReadUnitBit(u) = PIX[u][0]. -/
def readUnitBit (mode : UnwrittenRead) (u : Nat) (c : Carrier) : Except Fault (Bool × Carrier) := do
  let (v, d) ← readCell mode .pixel Config.drawnByte (Ram.read c.pix u) c.draws
  .ok (v.getLsbD 0, { c with draws := d })

/-- R71, WriteUnitBit(u, b): PIX[u] <- (PIX[u] & 0xFE) | b. -/
def writeUnitBit (mode : UnwrittenRead) (u : Nat) (b : Bool) (c : Carrier) : Except Fault Carrier := do
  let (old, d) ← readCell mode .pixel Config.drawnByte (Ram.read c.pix u) c.draws
  .ok { pix := Ram.write c.pix u (withBit0 old b), draws := d }

/-- ReadUnitBit over the units of the list, in order. -/
def readUnits (mode : UnwrittenRead) : List Nat → Carrier → Except Fault (List Bool × Carrier)
  | [], c => .ok ([], c)
  | u :: us, c => do
    let (b, c) ← readUnitBit mode u c
    let (bs, c) ← readUnits mode us c
    .ok (b :: bs, c)

/-- WriteUnitBit over the units of the first list with the bits of the second, in order. -/
def writeUnits (mode : UnwrittenRead) : List Nat → List Bool → Carrier → Except Fault Carrier
  | u :: us, b :: bs, c => do
    let c ← writeUnitBit mode u b c
    writeUnits mode us bs c
  | _, _, c => .ok c

/-! ### The life of a command -/

/-- R25: the hidden register LAST_CMD <- w, at every CMD write that is not discarded. -/
def noteCommand (w : Word) (s : State) : State := { s with lastCmd := w }

/-- R181, `raise CmdError(code)`: STATUS.ERR <- 1 and ERRCODE <- code, and nothing else. This is the block's one way of
taking an error (R194: it saves nothing more). -/
def reject (code : ErrCode) (s : State) : State := { s with err := true, errcode := code }

/-- R26, R194: the host's acknowledgement, a write of `v` to STATUS. Bit 1 clears DONE; bit 2 clears ERR and ERRCODE; bit 3
clears OVERRUN; every other bit is ignored. -/
def acknowledge (v : Word) (s : State) : State :=
  { s with
    done := s.done && !v.getLsbD 1
    err := s.err && !v.getLsbD 2
    errcode := if v.getLsbD 2 then .noError else s.errcode
    overrun := s.overrun && !v.getLsbD 3 }

/-- R187: `accept(c)` for the command word `w`. -/
def accept (w : Word) (s : State) : State :=
  { s with
    engine := .busy w
    done := false
    trunc := false
    sentWr := false
    sentFound := false }

/-- R188: what every complete step does after the command's own rule: BUSY <- 0, DONE <- 1, phase <- IDLE. -/
def finish (s : State) : State := { s with engine := .idle, done := true }

/-- R183: a check of a command against the registers; it answers the error code when it fails. -/
abbrev Check := State → Option ErrCode

/-- R183, R184: the code of the first check that fails, none when all pass. -/
def firstFailure : List Check → State → Option ErrCode
  | [], _ => none
  | c :: cs, s =>
    match c s with
    | some code => some code
    | none => firstFailure cs s

/-- R180 for a word that decodes to `i`: LAST_CMD <- w, the checks in order, then rejection or acceptance. -/
def issue (i : Instr) (checks : List Check) (s : State) : State :=
  match firstFailure checks (noteCommand (encode i) s) with
  | some code => reject code (noteCommand (encode i) s)
  | none => accept (encode i) (noteCommand (encode i) s)

/-- R188: the engine's complete step of a command whose own rule is `perform`. -/
def complete (perform : State → Except Fault State) (s : State) : StepOutcome :=
  match perform s with
  | .ok t => .next (finish t)
  | .error f => .fault f

/-- The two stages of every command, each one atomic step: while the engine is IDLE the command is issued (R180), while
it is BUSY the engine completes it (R188). -/
def runCommand (i : Instr) (checks : List Check) (perform : State → Except Fault State) (s : State) : StepOutcome :=
  match s.engine with
  | .idle => .next (issue i checks s)
  | .busy _ => complete perform s

end Sys2Proof.Machine
end

