-- ==== Sys2Proof/Machine/PermGen.lean ====
section
/-! DEFINITION. The permutation generator: DEFAULT_PERM_GEN (R122 to R126), and the parameter PERM_GEN (R121). -/

namespace Sys2Proof.Machine

/-- R123: the 32-bit FNV-1a hash of the key bytes. -/
def fnvSeed (key : List Byte) : Word :=
  key.foldl (fun h b => (h ^^^ b.setWidth 32) * 0x01000193#32) 0x811C9DC5#32

/-- R124: the xorshift32 step with shifts 13, 17, 5. -/
def xorshift (s : Word) : Word :=
  let s := s ^^^ (s <<< 13)
  let s := s ^^^ (s >>> 17)
  s ^^^ (s <<< 5)

/-- R125: the initial generator state; a zero seed is replaced. -/
def initialDraw (seed : Word) : Word := if seed = 0#32 then 0x9E3779B9#32 else seed

/-- `swap π[i], π[j]` (R126). -/
def swapEntries (p : List Nat) (i j : Nat) : List Nat := (p.set i (p.getD j 0)).set j (p.getD i 0)

/-- R126: the loop `for i = n downto 1`, from generator state `s`. -/
def shuffle : (n : Nat) → (s : Word) → List Nat → List Nat
  | 0, _, p => p
  | n + 1, s, p =>
    let r := xorshift s
    shuffle n r (swapEntries p (n + 1) (r.toNat % (n + 2)))

/-- R126: DEFAULT_PERM_GEN. -/
def defaultPermGen (key : List Byte) (n : Nat) : List Nat :=
  shuffle (n - 1) (initialDraw (fnvSeed key)) (List.range n)

/-- R121: the parameter PERM_GEN. A generator other than the default is a free value made lawful: where its answer is no
permutation of [0, n) the identity stands in its place, so law 1 holds and every conforming generator is one of these. -/
def permGen (choice : PermGenChoice) (key : List Byte) (n : Nat) : List Nat :=
  match choice with
  | .default => defaultPermGen key n
  | .other =>
    let p := Config.otherPermGen key n
    if p.isPerm (List.range n) then p else List.range n

end Sys2Proof.Machine
end

