-- ==== Sys2Proof/Machine/Operands.lean ====
section
/-! DEFINITION. The operands of the commands (R97): the capacity function (R110), the traversal permutation (R127), and
the acceptance checks over the length and depth registers (R183). -/

namespace Sys2Proof.Machine

/-- R11: the sentinel byte. -/
def sentinel : Byte := 0xFF#8

/-- R110: the capacity function. -/
def capacityOf (len : Nat) (bpp : Byte) : Nat :=
  if bpp = 24#8 then (len / 3) / 8
  else if bpp = 8#8 then len / 8
  else 0

/-- R127: the traversal permutation of length PIXEL_LEN, and the count of draws after reading the key. A keyed command
reads KEY[0..KEY_LEN−1]; an unkeyed one reads no key. -/
def traversal (keyed : Bool) (s : State) : Except Fault (List Nat × Nat) :=
  if keyed then do
    let (key, d) ← readBytes s.params.unwritten .key s.key 0 s.keyLen.toNat s.draws
    .ok (permGen s.params.permGen key s.pixelLen.toNat, d)
  else .ok (List.range s.pixelLen.toNat, s.draws)

/-- `for k = 0 to N-1: PERM[k] <- π[k]` (R128). -/
def storePerm (p : List Nat) (m : Ram 32) : Ram 32 := Ram.writeList m 0 (p.map (BitVec.ofNat 32))

/-- R183, row 2. -/
def checkPixelLen : Check := fun s => if s.params.nMax.toNat < s.pixelLen.toNat then some .lengthRange else none

/-- R183, row 3, for a keyed command. -/
def checkKeyLen : Check := fun s => if s.params.kMax.toNat < s.keyLen.toNat then some .lengthRange else none

/-- R183, row 4. -/
def checkPayloadLen : Check := fun s => if s.params.pMax.toNat < s.payloadLen.toNat then some .lengthRange else none

/-- R183, row 5. -/
def checkDepth : Check := fun s => if s.bpp = 8#8 ∨ s.bpp = 24#8 then none else some .unsupportedFormat

/-- R183, row 6, for a strict command (R147). -/
def checkCapacity : Check := fun s =>
  if capacityOf s.pixelLen.toNat s.bpp < s.payloadLen.toNat then some .capacityExceeded else none

end Sys2Proof.Machine
end

