-- ==== Sys2Proof/Machine/Cap.lean ====
section
/-! DEFINITION. CAP, the capacity calculator (R111). -/

namespace Sys2Proof.Machine

/-- R111, the pseudocode: CAPACITY <- capacity(PIXEL_LEN, BPP[7:0]). -/
def performCap (s : State) : Except Fault State :=
  .ok { s with capacity := BitVec.ofNat 32 (capacityOf s.pixelLen.toNat s.bpp) }

/-- `cap` (R111). CAP makes no length check and no depth check (R183). -/
def execCap (s : State) : StepOutcome := runCommand .cap [] performCap s

end Sys2Proof.Machine
end

