-- ==== Sys2Proof/Machine/Embed.lean ====
section
/-! DEFINITION. EMBED, the keyed LSB encoder (R141). -/

namespace Sys2Proof.Machine

/-- What the payload loop of R141 leaves: bytes embedded, the data units not yet used, and the carrier. -/
structure Embedded where
  count : Nat
  rest : List Nat
  carrier : Carrier
  deriving DecidableEq, Repr

/-- R141, the loop over payload bytes k, k+1, ... with `left` bytes still to embed and `units` = π[i], π[i+1], ...: it
breaks when fewer than 8 units remain (no partial byte, and later payload bytes are not read, R143); otherwise PAY[k] goes
to the next 8 units, least significant bit first. -/
def embedBytes (mode : UnwrittenRead) (pay : Ram 8) : (left k : Nat) → (units : List Nat) → Carrier → Except Fault Embedded
  | 0, k, units, c => .ok { count := k, rest := units, carrier := c }
  | left + 1, k, units, c =>
    if units.length < 8 then .ok { count := k, rest := units, carrier := c }
    else do
      let (b, d) ← readCell mode .payload Config.drawnByte (Ram.read pay k) c.draws
      let c ← writeUnits mode (units.take 8) (bitsOfByte b) { c with draws := d }
      embedBytes mode pay left (k + 1) (units.drop 8) c

/-- R141, R146: the sentinel, written when 8 units remain. Answers whether it was written. -/
def embedSentinel (mode : UnwrittenRead) (units : List Nat) (c : Carrier) : Except Fault (Bool × Carrier) :=
  if 8 ≤ units.length then do
    let c ← writeUnits mode (units.take 8) (bitsOfByte sentinel) c
    .ok (true, c)
  else .ok (false, c)

/-- R141, the pseudocode of the complete step, and R145, the results. -/
def performEmbed (keyed : Bool) (s : State) : Except Fault State := do
  let (p, d) ← traversal keyed s
  let e ← embedBytes s.params.unwritten s.pay s.payloadLen.toNat 0 p { pix := s.pix, draws := d }
  let (sent, c) ← embedSentinel s.params.unwritten e.rest e.carrier
  .ok { s with
        perm := if keyed then storePerm p s.perm else s.perm
        pix := c.pix
        draws := c.draws
        embCount := BitVec.ofNat 32 e.count
        unitsUsed := BitVec.ofNat 32 (8 * e.count + (if sent then 8 else 0))
        trunc := decide (e.count < s.payloadLen.toNat)
        sentWr := sent }

/-- `embed` (R141, K = 0, S = 0): the source's sequential engine (R148). -/
def execEmbed (s : State) : StepOutcome :=
  runCommand .embed [checkPixelLen, checkPayloadLen, checkDepth] (performEmbed false) s

/-- `embed.k` (R141, K = 1, S = 0). -/
def execEmbedK (s : State) : StepOutcome :=
  runCommand .embedK [checkPixelLen, checkKeyLen, checkPayloadLen, checkDepth] (performEmbed true) s

/-- `embed.s` (R141, K = 0, S = 1): a payload above the capacity is rejected (R147). -/
def execEmbedS (s : State) : StepOutcome :=
  runCommand .embedS [checkPixelLen, checkPayloadLen, checkDepth, checkCapacity] (performEmbed false) s

/-- `embed.k.s` (R141, K = 1, S = 1). -/
def execEmbedKS (s : State) : StepOutcome :=
  runCommand .embedKS [checkPixelLen, checkKeyLen, checkPayloadLen, checkDepth, checkCapacity] (performEmbed true) s

end Sys2Proof.Machine
end

