-- ==== Sys2Proof/Machine/Extract.lean ====
section
/-! DEFINITION. EXTRACT, the keyed LSB decoder (R161). -/

namespace Sys2Proof.Machine

/-- What the loop of R161 leaves: bytes produced, whether the sentinel was found, PAYLOAD RAM and the carrier. -/
structure Extracted where
  count : Nat
  found : Bool
  pay : Ram 8
  carrier : Carrier
  deriving DecidableEq, Repr

/-- R161, the loop with `n` bytes produced so far, `groups` whole 8-unit groups left and `units` = π[i], π[i+1], ...: it
ends when no whole group is left (R164) or when a group decodes to the sentinel, which is not output (R163). -/
def extractBytes (mode : UnwrittenRead) :
    (groups n : Nat) → (units : List Nat) → (pay : Ram 8) → Carrier → Except Fault Extracted
  | 0, n, _, pay, c => .ok { count := n, found := false, pay := pay, carrier := c }
  | groups + 1, n, units, pay, c => do
    let (bits, c) ← readUnits mode (units.take 8) c
    if byteOfBits bits = sentinel then .ok { count := n, found := true, pay := pay, carrier := c }
    else extractBytes mode groups (n + 1) (units.drop 8) (Ram.write pay n (byteOfBits bits)) c

/-- R161, the pseudocode of the complete step, and R165, the results. -/
def performExtract (keyed : Bool) (s : State) : Except Fault State := do
  let (p, d) ← traversal keyed s
  let x ← extractBytes s.params.unwritten (p.length / 8) 0 p s.pay { pix := s.pix, draws := d }
  .ok { s with
        perm := if keyed then storePerm p s.perm else s.perm
        pay := x.pay
        draws := x.carrier.draws
        outLen := BitVec.ofNat 32 x.count
        unitsUsed := BitVec.ofNat 32 (8 * x.count + (if x.found then 8 else 0))
        sentFound := x.found }

/-- `extract` (R161, K = 0): the source's sequential extract (R171). -/
def execExtract (s : State) : StepOutcome :=
  runCommand .extract [checkPixelLen, checkDepth] (performExtract false) s

/-- `extract.k` (R161, K = 1). -/
def execExtractK (s : State) : StepOutcome :=
  runCommand .extractK [checkPixelLen, checkKeyLen, checkDepth] (performExtract true) s

end Sys2Proof.Machine
end

