-- ==== Sys2Proof/Machine/Perm.lean ====
section
/-! DEFINITION. PERM, derive permutation (R128). -/

namespace Sys2Proof.Machine

/-- R128, the pseudocode: PERM[0..N−1] <- π; no result register changes. -/
def performPerm (keyed : Bool) (s : State) : Except Fault State := do
  let (p, d) ← traversal keyed s
  .ok { s with perm := storePerm p s.perm, draws := d }

/-- `perm` (R128, K = 0). BPP is not checked, and KEY_LEN is ignored. -/
def execPerm (s : State) : StepOutcome := runCommand .perm [checkPixelLen] (performPerm false) s

/-- `perm.k` (R128, K = 1). -/
def execPermK (s : State) : StepOutcome := runCommand .permK [checkPixelLen, checkKeyLen] (performPerm true) s

end Sys2Proof.Machine
end

