-- ==== Sys2Proof/Machine/Dispatch.lean ====
section
/-! DEFINITION. One arm per command: the meaning of each. -/

namespace Sys2Proof.Machine

def exec (i : Instr) (s : State) : Host.Outcome State Fault Refusal :=
  match i with
  | .cap => Sys2Proof.Machine.execCap s
  | .perm => Sys2Proof.Machine.execPerm s
  | .permK => Sys2Proof.Machine.execPermK s
  | .embed => Sys2Proof.Machine.execEmbed s
  | .embedK => Sys2Proof.Machine.execEmbedK s
  | .embedS => Sys2Proof.Machine.execEmbedS s
  | .embedKS => Sys2Proof.Machine.execEmbedKS s
  | .extract => Sys2Proof.Machine.execExtract s
  | .extractK => Sys2Proof.Machine.execExtractK s

end Sys2Proof.Machine
end

