-- ==== Sys2Proof/Machine/Flags.lean ====
section
/-! DEFINITION. The STATUS word (R26), the ERRCODE word (R32, R182) and the interrupt output (R51, R192). -/

namespace Sys2Proof.Machine

/-- R26: the word a read of STATUS returns; bits 31:7 read 0. -/
def statusWord (s : State) : Word :=
  (BitVec.ofBool s.sentFound ++ BitVec.ofBool s.sentWr ++ BitVec.ofBool s.trunc ++ BitVec.ofBool s.overrun ++
    BitVec.ofBool s.err ++ BitVec.ofBool s.done ++ BitVec.ofBool s.busy).setWidth 32

/-- R182: the codes of ERRCODE[3:0]. -/
def ErrCode.word : ErrCode → Word
  | .noError => 0
  | .illegalCmd => 1
  | .lengthRange => 2
  | .unsupportedFormat => 3
  | .capacityExceeded => 4

/-- R51, R192: the level of the `irq` output, a function of the state alone. -/
def irq (s : State) : Bool :=
  (s.done && s.irqEn.getLsbD 0) || (s.err && s.irqEn.getLsbD 1) || (s.overrun && s.irqEn.getLsbD 2)

/-- R67: the record of a host access discarded or blanked while BUSY. -/
def noteOverrun (s : State) : State := { s with overrun := true }

end Sys2Proof.Machine
end

