-- ==== Sys2Proof/Machine/Registers.lean ====
section
/-! DEFINITION. The register map (R22) and the address map of the host port (R61), with the legality of every access
(R62, R63, R66, R78), and the reads and plain writes of registers. -/

namespace Sys2Proof.Machine

/-- The registers of R22. -/
inductive Reg where
  | id
  | version
  | cmd
  | status
  | errcode
  | pixelLen
  | bpp
  | keyLen
  | payloadLen
  | capacity
  | embCount
  | outLen
  | unitsUsed
  | irqEn
  | nMax
  | kMax
  | pMax
  deriving DecidableEq, Repr

/-- R22: the register at an offset of the REG region; every other offset is reserved (R46). -/
def regAt (offset : Nat) : Option Reg :=
  match offset with
  | 0x000 => some .id
  | 0x004 => some .version
  | 0x008 => some .cmd
  | 0x00C => some .status
  | 0x010 => some .errcode
  | 0x014 => some .pixelLen
  | 0x018 => some .bpp
  | 0x01C => some .keyLen
  | 0x020 => some .payloadLen
  | 0x024 => some .capacity
  | 0x028 => some .embCount
  | 0x02C => some .outLen
  | 0x030 => some .unitsUsed
  | 0x034 => some .irqEn
  | 0x038 => some .nMax
  | 0x03C => some .kMax
  | 0x040 => some .pMax
  | _ => none

/-- What a read of a register returns (R22 to R26, R32 to R45). No register read has a side effect (R70). -/
def readReg (r : Reg) (s : State) : Word :=
  match r with
  | .id => 0x4B4C5045#32
  | .version => 0x00010000#32
  | .cmd => s.lastCmd
  | .status => statusWord s
  | .errcode => s.errcode.word
  | .pixelLen => s.pixelLen
  | .bpp => s.bpp.setWidth 32
  | .keyLen => s.keyLen
  | .payloadLen => s.payloadLen
  | .capacity => s.capacity
  | .embCount => s.embCount
  | .outLen => s.outLen
  | .unitsUsed => s.unitsUsed
  | .irqEn => s.irqEn.setWidth 32
  | .nMax => s.params.nMax
  | .kMax => s.params.kMax
  | .pMax => s.params.pMax

/-- The write rule of every register but CMD (R22, R26, R33, R34, R38, R39, R45), when the write is not discarded: a
read-only register ignores it, and so do reserved bits. A write to CMD issues a command and stands in `issueWord`. -/
def writeReg (r : Reg) (v : Word) (s : State) : State :=
  match r with
  | .id => s
  | .version => s
  | .cmd => s
  | .status => acknowledge v s
  | .errcode => s
  | .pixelLen => { s with pixelLen := v }
  | .bpp => { s with bpp := v.setWidth 8 }
  | .keyLen => { s with keyLen := v }
  | .payloadLen => { s with payloadLen := v }
  | .capacity => s
  | .embCount => s
  | .outLen => s
  | .unitsUsed => s
  | .irqEn => { s with irqEn := v.setWidth 3 }
  | .nMax => s
  | .kMax => s
  | .pMax => s

/-- R67: the registers whose writes take effect while BUSY. -/
def writableWhileBusy (r : Reg) : Bool :=
  match r with
  | .status => true
  | .irqEn => true
  | .id | .version | .cmd | .errcode | .pixelLen | .bpp | .keyLen | .payloadLen | .capacity | .embCount | .outLen
  | .unitsUsed | .nMax | .kMax | .pMax => false

/-- R61: the base of the KEY region. -/
def keyBase : Nat := 0x00100000
/-- R61: the base of the PAYLOAD region. -/
def payBase : Nat := 0x08000000
/-- R61: the base of the PIXEL region. -/
def pixBase : Nat := 0x10000000
/-- R61: the base of the PERM region. -/
def permBase : Nat := 0x40000000

/-- What a legal host access touches: a register, bytes from an offset of a byte RAM, or an entry of PERM RAM. -/
inductive Target where
  | reg (r : Reg)
  | key (offset : Nat)
  | pay (offset : Nat)
  | pix (offset : Nat)
  | perm (entry : Nat)
  deriving DecidableEq, Repr

/-- R62: `n` bytes at offset `o` of a RAM of `size` bytes: naturally aligned and wholly inside. -/
def fitsRam (o n size : Nat) : Bool := decide (o % n = 0) && decide (o + n ≤ size)

/-- R61, R62, R66, R78: what an access of size `n` at address `addr` touches, none when it is illegal for a read and for a
write. For PERM these are the conditions of R63 but for the direction: a write there is illegal too. -/
def locate (p : Params) (addr : Word) (n : AccessSize) : Option Target :=
  let a := addr.toNat
  if a < 0x1000 then
    if n = .four then (regAt a).map .reg else none
  else if keyBase ≤ a ∧ a < keyBase + p.kMax.toNat then
    if fitsRam (a - keyBase) n.bytes p.kMax.toNat then some (.key (a - keyBase)) else none
  else if payBase ≤ a ∧ a < payBase + p.pMax.toNat then
    if fitsRam (a - payBase) n.bytes p.pMax.toNat then some (.pay (a - payBase)) else none
  else if pixBase ≤ a ∧ a < pixBase + p.nMax.toNat then
    if fitsRam (a - pixBase) n.bytes p.nMax.toNat then some (.pix (a - pixBase)) else none
  else if permBase ≤ a ∧ a < permBase + 4 * p.nMax.toNat then
    if n = .four ∧ (a - permBase) % 4 = 0 then some (.perm ((a - permBase) / 4)) else none
  else none

end Sys2Proof.Machine
end

