-- ==== Sys2Proof/Machine/Port.lean ====
section
/-! DEFINITION. The turns of the block: the host's accesses (R60 to R67), the issue of a command (R180), the engine's turn
(R40), reset (R220, R221) and power-on (R222). -/

namespace Sys2Proof.Machine

/-- R60: the host port answers an access. -/
def answer (r : Response) (s : State) : State := { s with response := some r }

/-- R180: a write of word `w` to CMD with BUSY = 0. A word that does not decode is rejected with ILLEGAL_CMD, and one
that does is issued by its meaning; LAST_CMD <- w in both cases. -/
def issueWord (w : Word) (s : State) : StepOutcome :=
  match decode w with
  | .ok i => exec i s
  | .error _ => .next (reject .illegalCmd (noteCommand w s))

/-- R64, R67: a read of `n` bytes of a byte RAM at offset `o`. While BUSY it returns 0 and sets OVERRUN. -/
def readRam (name : RamName) (m : Ram 8) (o n : Nat) (s : State) : StepOutcome :=
  if s.busy then .next (answer (.okay 0) (noteOverrun s))
  else
    match readBytes s.params.unwritten name m o n s.draws with
    | .ok (bs, d) => .next (answer (.okay (wordOfBytes bs)) { s with draws := d })
    | .error f => .fault f

/-- R63, R64, R67: a read of entry `k` of PERM RAM. -/
def readPermEntry (k : Nat) (s : State) : StepOutcome :=
  if s.busy then .next (answer (.okay 0) (noteOverrun s))
  else
    match readCell s.params.unwritten .perm Config.drawnEntry (Ram.read s.perm k) s.draws with
    | .ok (v, d) => .next (answer (.okay v) { s with draws := d })
    | .error f => .fault f

/-- R60: MemRead(addr, n). -/
def hostRead (addr : Word) (n : AccessSize) (s : State) : StepOutcome :=
  match locate s.params addr n with
  | none => .next (answer .error s)
  | some (.reg r) => .next (answer (.okay (readReg r s)) s)
  | some (.key o) => readRam .key s.key o n.bytes s
  | some (.pay o) => readRam .payload s.pay o n.bytes s
  | some (.pix o) => readRam .pixel s.pix o n.bytes s
  | some (.perm k) => readPermEntry k s

/-- R65, R67: a legal write that stores, unless BUSY discards it and sets OVERRUN; both get OKAY. -/
def writeUnlessBusy (store : State → State) (s : State) : State :=
  answer (.okay 0) (if s.busy then noteOverrun s else store s)

/-- R60: MemWrite(addr, n, v). -/
def hostWrite (addr : Word) (n : AccessSize) (v : Word) (s : State) : StepOutcome :=
  match locate s.params addr n with
  | none => .next (answer .error s)
  | some (.perm _) => .next (answer .error s)
  | some (.reg .cmd) =>
    if s.busy then .next (answer (.okay 0) (noteOverrun s)) else issueWord v (answer (.okay 0) s)
  | some (.reg r) =>
    if writableWhileBusy r then .next (answer (.okay 0) (writeReg r v s))
    else .next (writeUnlessBusy (writeReg r v) s)
  | some (.key o) => .next (writeUnlessBusy (fun s => { s with key := Ram.writeList s.key o (bytesOfWord n.bytes v) }) s)
  | some (.pay o) => .next (writeUnlessBusy (fun s => { s with pay := Ram.writeList s.pay o (bytesOfWord n.bytes v) }) s)
  | some (.pix o) => .next (writeUnlessBusy (fun s => { s with pix := Ram.writeList s.pix o (bytesOfWord n.bytes v) }) s)

/-- R221: the RAM cells the command in flight could write become unspecified; nothing happens when none is in flight. -/
def abandon (s : State) : State :=
  match s.engine with
  | .idle => s
  | .busy w =>
    let n := s.pixelLen.toNat
    match decode w with
    | .error _ => s
    | .ok i =>
      match i.operation with
      | .cap => s
      | .perm => { s with perm := Ram.forget s.perm n }
      | .embed => { s with
          pix := Ram.forget s.pix n
          perm := if i.keyed then Ram.forget s.perm n else s.perm }
      | .extract => { s with
          pay := Ram.forget s.pay (n / 8)
          perm := if i.keyed then Ram.forget s.perm n else s.perm }

/-- R220: the assertion of `rst`. Every register takes its reset value, the command in flight is abandoned, and every
other RAM cell keeps its value. -/
def assertReset (s : State) : State :=
  let a := abandon s
  { State.afterPowerOn s.params s.inputs s.draws with key := a.key, pay := a.pay, pix := a.pix, perm := a.perm }

/-- R40, R188: the engine's turn. While BUSY its one step completes the command it holds; while IDLE it has no step. -/
def engineTurn (s : State) : StepOutcome :=
  match s.engine with
  | .idle => .next s
  | .busy w =>
    match decode w with
    | .ok i => exec i s
    | .error _ => .refused .heldWordIsNoCommand

/-- One turn, its own entry already taken off the list of turns. -/
def takeTurn (t : Turn) (s : State) : StepOutcome :=
  match t with
  | .read addr n => hostRead addr n s
  | .write addr n v => hostWrite addr n v s
  | .engine => engineTurn s
  | .rst => .next (assertReset s)
  | .powerOn => .next (State.afterPowerOn s.params s.inputs s.draws)

/-- The next element of the total order of steps (R72): the first turn of the list. When the list is empty it is the
engine's turn, which is how weak fairness (R186) shows in a deterministic machine. -/
def nextTurn (s : State) : StepOutcome :=
  match s.inputs with
  | [] => engineTurn s
  | t :: ts => takeTurn t { s with inputs := ts }

end Sys2Proof.Machine
end

