-- ==== Sys2Proof/Machine/Step.lean ====
section
/-! DEFINITION. One step of the machine, and where a command stands that the very next step runs. -/

namespace Sys2Proof.Machine

/-- One step (R6, R72): one host access, one complete step of the engine, or one reset. -/
def step (s : State) : Host.Outcome State Fault Refusal := nextTurn s

/-- `s` with the command word of `nbits` bits `w` (the bits above 0) where the engine takes its command from: `cur` (R75),
with the engine BUSY and no host access before its turn. The very next step completes that command (log entry 2). -/
def State.withFetchWord (s : State) (nbits w : Nat) : State :=
  { s with engine := .busy (BitVec.ofNat 32 (w % 2 ^ nbits)), inputs := [] }

end Sys2Proof.Machine
end

