-- ==== Sys2Proof/Safety.lean ====
section
/-! DEFINITION. The terms claims use: which commands the registers let in (R183), which cells a command reads (R224), the
closed forms of what EMBED and EXTRACT count (R142, R143, R162), a safe step, and the invariant of the machine. -/

namespace Sys2Proof.Machine

/-! ### The command words -/

/-- The nine command words, as the table of R96 writes them. -/
def commandWord : Instr → Word
  | .cap => 0x00000001#32
  | .perm => 0x00000002#32
  | .permK => 0x00000012#32
  | .embed => 0x00000003#32
  | .embedK => 0x00000013#32
  | .embedS => 0x00000023#32
  | .embedKS => 0x00000033#32
  | .extract => 0x00000004#32
  | .extractK => 0x00000014#32

/-! ### Acceptance -/

/-- R183: the first failing row of the table of checks, rows 2 to 6 in order, for a command that decodes. -/
def firstFailingRow (i : Instr) (s : State) : Option ErrCode :=
  if i.operation ≠ .cap ∧ s.params.nMax.toNat < s.pixelLen.toNat then some .lengthRange
  else if i.keyed = true ∧ s.params.kMax.toNat < s.keyLen.toNat then some .lengthRange
  else if i.operation = .embed ∧ s.params.pMax.toNat < s.payloadLen.toNat then some .lengthRange
  else if (i.operation = .embed ∨ i.operation = .extract) ∧ ¬(s.bpp = 8#8 ∨ s.bpp = 24#8) then some .unsupportedFormat
  else if i.strict = true ∧ capacityOf s.pixelLen.toNat s.bpp < s.payloadLen.toNat then some .capacityExceeded
  else none

/-- The registers let the command in: every row of R183 passes. -/
abbrev Accepted (i : Instr) (s : State) : Prop := firstFailingRow i s = none

/-! ### What a command reads -/

/-- Cell `k` has a value (R53). -/
abbrev Specified {w : Nat} (m : Ram w) (k : Nat) : Prop := (Ram.read m k).isSome = true

/-- How many of the `n` cells from `o` on have no value; under `draw` each of them takes one free value (R79). -/
def unspecifiedAmong (m : Ram 8) (o n : Nat) : Nat := (List.range n).countP fun t => (Ram.read m (o + t)).isNone

/-- Every byte of the key has a value. -/
abbrev KeySpecified (s : State) : Prop := ∀ k, k < s.keyLen.toNat → Specified s.key k

/-- The key's bytes KEY[0..KEY_LEN−1]; it speaks of the key only when every one of them has a value. -/
def keyBytes (s : State) : List Byte := (List.range s.keyLen.toNat).map fun k => (Ram.read s.key k).getD 0

/-- R127: the traversal permutation of a command whose key, if it uses one, is specified. -/
def pathOf (keyed : Bool) (s : State) : List Nat :=
  if keyed then permGen s.params.permGen (keyBytes s) s.pixelLen.toNat else List.range s.pixelLen.toNat

/-- R143: how many payload bytes EMBED embeds. -/
def embedCount (s : State) : Nat := min s.payloadLen.toNat (s.pixelLen.toNat / 8)

/-- R146: whether EMBED writes the sentinel. -/
def embedSentinelFits (s : State) : Bool := decide (8 ≤ s.pixelLen.toNat - 8 * embedCount s)

/-- R145: how many data units EMBED writes. -/
def embedUnits (s : State) : Nat := 8 * embedCount s + if embedSentinelFits s then 8 else 0

/-- R162: the byte that the m-th group of 8 units of a path decodes to; it speaks of the units only when they have values. -/
def groupByte (s : State) (p : List Nat) (m : Nat) : Byte :=
  byteOfBits ((List.range 8).map fun t => ((Ram.read s.pix (p.getD (8 * m + t) 0)).getD 0).getLsbD 0)

/-- R163, R164: how many bytes EXTRACT outputs along a path: the groups before the first that decodes to the sentinel. -/
def extractCount (s : State) (p : List Nat) : Nat :=
  ((List.range (s.pixelLen.toNat / 8)).takeWhile fun m => groupByte s p m != sentinel).length

/-- R165: whether EXTRACT finds the sentinel. -/
def extractFinds (s : State) (p : List Nat) : Bool := decide (extractCount s p < s.pixelLen.toNat / 8)

/-- R165: how many data units EXTRACT reads. -/
def extractUnits (s : State) (p : List Nat) : Nat := 8 * extractCount s p + if extractFinds s p then 8 else 0

/-- Every cell that the complete step of the command reads has a value (R144, R165, R224). -/
abbrev Readable (i : Instr) (s : State) : Prop :=
  (i.keyed = true → KeySpecified s) ∧
  (i.operation = .embed → (∀ k, k < embedCount s → Specified s.pay k) ∧
    ∀ u, u ∈ (pathOf i.keyed s).take (embedUnits s) → Specified s.pix u) ∧
  (i.operation = .extract →
    ∀ u, u ∈ (pathOf i.keyed s).take (extractUnits s (pathOf i.keyed s)) → Specified s.pix u)

/-! ### The host port, in the words of the address map -/

/-- R61 to R63, R66, R78: the legal host accesses, a write when `write` is true. -/
def LegalAccess (p : Params) (write : Bool) (addr : Word) (n : AccessSize) : Prop :=
  (n = .four ∧ addr.toNat % 4 = 0 ∧ addr.toNat ≤ 0x040) ∨
  (∃ o, addr.toNat = 0x00100000 + o ∧ o % n.bytes = 0 ∧ o + n.bytes ≤ p.kMax.toNat) ∨
  (∃ o, addr.toNat = 0x08000000 + o ∧ o % n.bytes = 0 ∧ o + n.bytes ≤ p.pMax.toNat) ∨
  (∃ o, addr.toNat = 0x10000000 + o ∧ o % n.bytes = 0 ∧ o + n.bytes ≤ p.nMax.toNat) ∨
  (∃ o, addr.toNat = 0x40000000 + o ∧ write = false ∧ n = .four ∧ o % 4 = 0 ∧ o < 4 * p.nMax.toNat)

/-- The next step is the host's access of this kind, size and address, whatever the data. -/
def HostAccesses (s : State) (write : Bool) (addr : Word) (n : AccessSize) : Prop :=
  if write then ∃ v ts, s.inputs = .write addr n v :: ts else ∃ ts, s.inputs = .read addr n :: ts

/-- The next step is the host's write of `v` to the register at `offset`. -/
def WritesRegister (s : State) (offset : Nat) (v : Word) : Prop :=
  ∃ ts, s.inputs = .write (BitVec.ofNat 32 offset) .four v :: ts

/-- The next step is a host write somewhere in a window of `size` bytes from `base`. -/
def WritesWindow (s : State) (base size : Nat) : Prop :=
  ∃ addr n v ts, s.inputs = .write addr n v :: ts ∧ base ≤ addr.toNat ∧ addr.toNat < base + size

/-- The next step is the engine's complete step of the command. -/
def EngineCompletes (s : State) (i : Instr) : Prop :=
  ∃ w, s.engine = .busy w ∧ decode w = .ok i ∧ (s.inputs = [] ∨ ∃ ts, s.inputs = .engine :: ts)

/-- The next step is a reset. -/
def Resets (s : State) : Prop := ∃ ts, s.inputs = .rst :: ts

/-- The next step is power-on. -/
def PowersOn (s : State) : Prop := ∃ ts, s.inputs = .powerOn :: ts

/-! ### Safe steps and the invariant -/

/-- A step is safe when it answers a next state: no unspecified cell is read and the engine holds a command. -/
def SafeStep (s : State) : Prop := ∃ t, step s = .next t

/-- Every listed cell is inside a RAM of `size` cells. -/
abbrev Ram.inside {w : Nat} (m : Ram w) (size : Nat) : Prop := ∀ c ∈ m, c.1 < size

/-- The invariant of the machine. -/
structure Invariant (s : State) : Prop where
  /-- R7. -/
  legal : s.params.Legal
  /-- The canonical form of the four RAMs. -/
  ramsWf : s.key.wf ∧ s.pay.wf ∧ s.pix.wf ∧ s.perm.wf
  /-- R47 to R50: no cell outside a RAM is ever written. -/
  ramsInside : s.key.inside s.params.kMax.toNat ∧ s.pay.inside s.params.pMax.toNat ∧
    s.pix.inside s.params.nMax.toNat ∧ s.perm.inside s.params.nMax.toNat
  /-- R121, law 1, seen in PERM RAM: every stored entry is an index of a data unit. -/
  permEntries : ∀ c ∈ s.perm, c.2.toNat < s.params.nMax.toNat
  /-- R29, R32: ERRCODE is 0 exactly while ERR is 0. -/
  errCoded : s.err = false ↔ s.errcode = .noError
  /-- R146: a truncated EMBED never wrote the sentinel. -/
  truncated : ¬(s.trunc = true ∧ s.sentWr = true)
  /-- R44: UNITS_USED counts whole groups of 8 units. -/
  wholeGroups : 8 ∣ s.unitsUsed.toNat
  /-- R39, R143: an EMBED embeds no more than PAYLOAD RAM holds. -/
  embedFits : s.embCount.toNat ≤ s.params.pMax.toNat
  /-- R166: an EXTRACT's output fits in PAYLOAD RAM. -/
  outFits : s.outLen.toNat ≤ s.params.pMax.toNat
  /-- R27, R31, R40, R180, R187: while BUSY the engine holds the last command word, which is a command that the registers
  let in, and DONE and the result flags are clear. -/
  held : ∀ w, s.engine = .busy w → s.lastCmd = w ∧ s.done = false ∧ s.trunc = false ∧ s.sentWr = false ∧
    s.sentFound = false ∧ ∃ i, decode w = .ok i ∧ Accepted i s

end Sys2Proof.Machine
end

