-- ==== Sys2Proof/Certificates/Slice0/Obligations.lean ====
section
/-! DEFINITION. The statements for the provers, from the numbered rules of spec/. -/

open Sys2Proof Sys2Proof.Machine

/-! ### Encoding -/

/-- R96: decoding is total, exactly the nine words of the table are commands, and the encoder writes those words. So
decode and encode agree in both directions. -/
def Obligations.DecodeAcceptsExactlyTheTable : Prop :=
  (∀ (i : Instr) (w : Word), decode w = .ok i ↔ w = commandWord i) ∧
  (∀ i : Instr, encode i = commandWord i)

/-- R91, R92: a few command words, written out field by field from RSV, PROTO, S, K and OP, decode to their commands. -/
def Obligations.WrittenOutWordsDecode : Prop :=
  decode (0#24 ++ 0b00#2 ++ 0b0#1 ++ 0b0#1 ++ 0x1#4) = .ok .cap ∧
  decode (0#24 ++ 0b00#2 ++ 0b0#1 ++ 0b1#1 ++ 0x2#4) = .ok .permK ∧
  decode (0#24 ++ 0b00#2 ++ 0b1#1 ++ 0b0#1 ++ 0x3#4) = .ok .embedS ∧
  decode (0#24 ++ 0b00#2 ++ 0b0#1 ++ 0b1#1 ++ 0x4#4) = .ok .extractK

/-- R93, R94, R95: a nonzero RSV, a nonzero PROTO, or a K or S bit without a meaning for the operation makes a word that
decodes to no command. -/
def Obligations.MisusedFieldsDecodeToNothing : Prop :=
  ∀ w : Word,
    (w.extractLsb' 8 24 ≠ 0#24 ∨ w.extractLsb' 6 2 ≠ 0#2 ∨
      (w.extractLsb' 0 4 = 0x1#4 ∧ (w.getLsbD 4 = true ∨ w.getLsbD 5 = true)) ∨
      (w.extractLsb' 0 4 = 0x2#4 ∧ w.getLsbD 5 = true) ∨
      (w.extractLsb' 0 4 = 0x4#4 ∧ w.getLsbD 5 = true)) →
    ∀ i : Instr, decode w ≠ .ok i

/-! ### The step and the commands -/

/-- R40, R188: while the engine holds a word that decodes to `i`, the engine's turn is `exec i`; its turn comes when the
list of turns says so, and when no other turn is left (log entry 2 for the list of turns). -/
def Obligations.StepCompletesTheHeldCommand : Prop :=
  ∀ (s : State) (w : Word) (i : Instr), s.engine = .busy w → decode w = .ok i →
    (s.inputs = [] → step s = exec i s) ∧
    (∀ ts, s.inputs = .engine :: ts → step s = exec i { s with inputs := ts })

/-- R180: with BUSY = 0, the host's write to CMD of a word that decodes to `i` gets OKAY and is `exec i`. -/
def Obligations.StepIssuesTheWrittenCommand : Prop :=
  ∀ (s : State) (w : Word) (i : Instr) (ts : List Turn), s.engine = .idle → decode w = .ok i →
    s.inputs = .write 0x00000008#32 .four w :: ts →
    step s = exec i { s with inputs := ts, response := some (.okay 0) }

/-- R40, R201: while the engine is IDLE it has no step, so its turn changes nothing (but the list of turns, log entry
2). -/
def Obligations.IdleEngineHasNoStep : Prop :=
  ∀ s : State, s.engine = .idle →
    (s.inputs = [] → step s = .next s) ∧
    (∀ ts, s.inputs = .engine :: ts → step s = .next { s with inputs := ts })

/-- R99: a word that is none of the nine is rejected with ILLEGAL_CMD and changes only STATUS.ERR, ERRCODE and LAST_CMD
(and the model's own list of turns and response). -/
def Obligations.IllegalWordIsRejected : Prop :=
  ∀ (s : State) (w : Word) (ts : List Turn), s.engine = .idle → (∀ i, w ≠ commandWord i) →
    s.inputs = .write 0x00000008#32 .four w :: ts →
    step s = .next { s with
      inputs := ts, response := some (.okay 0), lastCmd := w, err := true, errcode := .illegalCmd }

/-- R181, for every cause: a word that does not decode, and a command whose checks fail (with the code of the first
failing row, rows 2 to 6 of R183), are rejected; nothing but STATUS.ERR, ERRCODE and LAST_CMD changes. That only the
first failing row is reported is R184, which the spec marks as derived. -/
def Obligations.RejectionReportsFirstFailingRow : Prop :=
  ∀ s : State, s.engine = .idle →
    (∀ w, (∀ i, decode w ≠ .ok i) →
      issueWord w s = .next { s with lastCmd := w, err := true, errcode := .illegalCmd }) ∧
    ∀ (i : Instr) (code : ErrCode), firstFailingRow i s = some code →
      exec i s = .next { s with lastCmd := commandWord i, err := true, errcode := code }

/-- R187: the acceptance of a command sets BUSY, holds the command word and clears DONE and the result flags; ERR,
ERRCODE, OVERRUN, the result registers and the RAMs keep their values. -/
def Obligations.AcceptanceHoldsTheCommand : Prop :=
  ∀ (i : Instr) (s : State), s.engine = .idle → Accepted i s →
    exec i s = .next { s with
      lastCmd := commandWord i, engine := .busy (commandWord i)
      done := false, trunc := false, sentWr := false, sentFound := false }

/-! ### CAP -/

/-- R110, R111: `cap` completes in every BUSY state, and writes CAPACITY with the capacity function's value; no other
register and no RAM changes. -/
def Obligations.CapCompletes : Prop :=
  ∀ (s : State) (w : Word), s.engine = .busy w →
    exec .cap s = .next { s with
      capacity := BitVec.ofNat 32 (if s.bpp = 24#8 then (s.pixelLen.toNat / 3) / 8
        else if s.bpp = 8#8 then s.pixelLen.toNat / 8 else 0)
      engine := .idle, done := true }

/-- R112, which the spec marks as derived: at 24-bit depth the capacity is len div 24, at every depth it is at most len
div 8, and so for a 32-bit length the result fits in 29 bits. -/
def Obligations.CapacityIsBounded : Prop :=
  ∀ (len : Nat) (bpp : Byte), capacityOf len 24#8 = len / 24 ∧ capacityOf len bpp ≤ len / 8 ∧
    (len < 2 ^ 32 → capacityOf len bpp < 2 ^ 29)

/-- R114, which the spec marks as derived: capacity is monotone in the length for a fixed depth, and 0 for every depth
but 8 and 24. -/
def Obligations.CapacityIsMonotone : Prop :=
  ∀ (len1 len2 : Nat) (bpp : Byte), (len1 ≤ len2 → capacityOf len1 bpp ≤ capacityOf len2 bpp) ∧
    (bpp ≠ 8#8 → bpp ≠ 24#8 → capacityOf len1 bpp = 0)

/-! ### The permutation generator and PERM -/

/-- R121, laws 1 and 3, for both values of the parameter: for every key, the empty key too, and every length, the
generator answers a permutation of [0, N). For the default this is R122's claim; for a generator other than the default
it is how the model states the parameter (log entry 3). -/
def Obligations.PermGenIsAPermutation : Prop :=
  ∀ (choice : PermGenChoice) (key : List Byte) (n : Nat), (permGen choice key n).Perm (List.range n)

/-- R124: from a nonzero state the xorshift32 step never yields 0. -/
def Obligations.XorshiftKeepsNonzero : Prop := ∀ s : Word, s ≠ 0#32 → xorshift s ≠ 0#32

/-- R123, R124, R125, R126: the default generator is the pseudocode's. The seed of the empty key is the offset basis and
each further byte is one round of the hash; a draw is the three shifts of R124, written out; no seed starts the
generator at 0; the swap of R126 puts p[j] at i and p[i] at j and keeps the length and every other entry; and the
shuffle is the loop `for i = N−1 downto 1` over (s, π), each pass drawing once and swapping π[i] with π[r mod (i + 1)].
(The constants, the shifts and the loop's form are the spec's own, from general knowledge: log entry 11.) -/
def Obligations.DefaultGeneratorFollowsThePseudocode : Prop :=
  (fnvSeed [] = 0x811C9DC5#32 ∧
    ∀ (key : List Byte) (b : Byte), fnvSeed (key ++ [b]) = (fnvSeed key ^^^ b.setWidth 32) * 0x01000193#32) ∧
  (∀ s s1 s2 : Word, s1 = s ^^^ ((s <<< 13) &&& 0xFFFFFFFF#32) → s2 = s1 ^^^ (s1 >>> 17) →
    xorshift s = s2 ^^^ ((s2 <<< 5) &&& 0xFFFFFFFF#32)) ∧
  (∀ seed : Word, initialDraw seed = (if seed = 0#32 then 0x9E3779B9#32 else seed) ∧ initialDraw seed ≠ 0#32) ∧
  (∀ (p : List Nat) (i j : Nat), i < p.length → j < p.length →
    (swapEntries p i j).length = p.length ∧ (swapEntries p i j)[i]? = p[j]? ∧ (swapEntries p i j)[j]? = p[i]? ∧
    ∀ k, k ≠ i → k ≠ j → (swapEntries p i j)[k]? = p[k]?) ∧
  ∀ (key : List Byte) (n : Nat),
    defaultPermGen key n =
      (((List.range (n - 1)).map (· + 1)).reverse.foldl
        (fun c i => (xorshift c.1, swapEntries c.2 i ((xorshift c.1).toNat % (i + 1))))
        (initialDraw (fnvSeed key), List.range n)).2

/-- R127, R128: `perm` (K = 0) completes in every BUSY state and writes the identity into PERM[0..N−1]; the entries past
N, every other RAM and every register but BUSY and DONE are unchanged. -/
def Obligations.PermCompletes : Prop :=
  ∀ (s : State) (w : Word), s.engine = .busy w →
    ∃ m, exec .perm s = .next { s with perm := m, engine := .idle, done := true } ∧
      ∀ k, Ram.read m k = if k < s.pixelLen.toNat then some (BitVec.ofNat 32 k) else Ram.read s.perm k

/-- R127, R128: `perm.k` completes in every BUSY state whose key bytes are specified, and writes the key's permutation
into PERM[0..N−1]; the entries past N, every other RAM and every register but BUSY and DONE are unchanged. -/
def Obligations.PermKeyedCompletes : Prop :=
  ∀ (s : State) (w : Word), s.engine = .busy w → KeySpecified s →
    ∃ m, exec .permK s = .next { s with perm := m, engine := .idle, done := true } ∧
      ∀ k, Ram.read m k = if k < s.pixelLen.toNat
        then some (BitVec.ofNat 32 ((permGen s.params.permGen (keyBytes s) s.pixelLen.toNat).getD k 0))
        else Ram.read s.perm k

/-- R50, R148, R171: an unkeyed EMBED or EXTRACT does not touch PERM RAM; it ignores KEY_LEN and KEY RAM: from a state
that differs only there it goes to the same state but for them. -/
def Obligations.UnkeyedCommandsIgnoreTheKey : Prop :=
  ∀ i ∈ [Instr.embed, .embedS, .extract], ∀ (s t : State) (w : Word), s.engine = .busy w → exec i s = .next t →
    t.perm = s.perm ∧
    ∀ (len : Word) (key : Ram 8), exec i { s with keyLen := len, key := key } = .next { t with keyLen := len, key := key }

/-! ### EMBED -/

/-- R143, R145, R146: each of the four EMBED commands completes in every BUSY state whose operands are specified; it
writes EMB_COUNT = min(P, N div 8), UNITS_USED = 8·cnt + 8·sent, TRUNC exactly when cnt < P and SENT_WR exactly when 8
units remain; a keyed one leaves the permutation it used in PERM[0..N−1]; PIXEL RAM changes too, and nothing else but
BUSY and DONE. (That cnt is min(P, N div 8) is R143, which the spec marks as derived.) -/
def Obligations.EmbedCompletes : Prop :=
  ∀ i ∈ [Instr.embed, .embedK, .embedS, .embedKS], ∀ (s : State) (w : Word), s.engine = .busy w → Readable i s →
    ∃ pix perm, exec i s = .next { s with
      pix := pix
      perm := perm
      embCount := BitVec.ofNat 32 (min s.payloadLen.toNat (s.pixelLen.toNat / 8))
      unitsUsed := BitVec.ofNat 32 (8 * embedCount s + if 8 ≤ s.pixelLen.toNat - 8 * embedCount s then 8 else 0)
      trunc := decide (embedCount s < s.payloadLen.toNat)
      sentWr := decide (8 ≤ s.pixelLen.toNat - 8 * embedCount s)
      engine := .idle
      done := true } ∧
      ∀ k, Ram.read perm k = if i.keyed = true ∧ k < s.pixelLen.toNat
        then some (BitVec.ofNat 32 ((pathOf i.keyed s).getD k 0)) else Ram.read s.perm k

/-- R142, which the spec marks as derived: bit t of payload byte k is in bit 0 of data unit π[8k + t] for every embedded
byte, and bit t of the sentinel in unit π[8·cnt + t] when the sentinel is written; bits 7:1 of those units are the old
ones; every other unit is unchanged. -/
def Obligations.EmbedWritesPayloadBits : Prop :=
  ∀ i ∈ [Instr.embed, .embedK, .embedS, .embedKS], ∀ (s : State) (w : Word), s.engine = .busy w → Readable i s →
    ∃ t, exec i s = .next t ∧
      (∀ k j, k < embedCount s → j < 8 → ∃ b old, Ram.read s.pay k = some b ∧
        Ram.read s.pix ((pathOf i.keyed s).getD (8 * k + j) 0) = some old ∧
        Ram.read t.pix ((pathOf i.keyed s).getD (8 * k + j) 0) =
          some ((old &&& 0xFE#8) ||| (if b.getLsbD j then 1#8 else 0#8))) ∧
      (embedSentinelFits s = true → ∀ j, j < 8 → ∃ old,
        Ram.read s.pix ((pathOf i.keyed s).getD (8 * embedCount s + j) 0) = some old ∧
        Ram.read t.pix ((pathOf i.keyed s).getD (8 * embedCount s + j) 0) =
          some ((old &&& 0xFE#8) ||| (if (0xFF#8).getLsbD j then 1#8 else 0#8))) ∧
      (∀ u, u ∉ (pathOf i.keyed s).take (embedUnits s) → Ram.read t.pix u = Ram.read s.pix u)

/-- R144, R151, which the spec marks as derived: whatever UNWRITTEN_READ is, an EMBED that completes keeps bits 7:1 of
every specified unit, leaves every unit at N and above as it was, and leaves KEY and PAYLOAD RAM as they were. -/
def Obligations.EmbedChangesOnlyBitZero : Prop :=
  ∀ i ∈ [Instr.embed, .embedK, .embedS, .embedKS], ∀ (s t : State) (w : Word), s.engine = .busy w → exec i s = .next t →
    (∀ u v, Ram.read s.pix u = some v → ∃ v', Ram.read t.pix u = some v' ∧ v' &&& 0xFE#8 = v &&& 0xFE#8) ∧
    (∀ u, s.pixelLen.toNat ≤ u → Ram.read t.pix u = Ram.read s.pix u) ∧
    t.key = s.key ∧ t.pay = s.pay

/-- R147, in the part the spec marks as derived: a strict EMBED that its registers let in completes without truncation:
TRUNC = 0 and EMB_COUNT = P. -/
def Obligations.StrictEmbedNeverTruncates : Prop :=
  ∀ i ∈ [Instr.embedS, .embedKS], ∀ (s : State) (w : Word), s.engine = .busy w → Accepted i s → Readable i s →
    ∃ t, exec i s = .next t ∧ t.trunc = false ∧ t.embCount = s.payloadLen

/-- R115, which the spec marks as derived: an EMBED that completes with a payload no longer than the capacity, at either
depth, did not truncate it, and it wrote the sentinel too unless N < 8, or the depth is 8 and P = N div 8; so one byte
less than the capacity guarantees the sentinel. -/
def Obligations.CapacityGuaranteesTheFit : Prop :=
  ∀ i ∈ [Instr.embed, .embedK, .embedS, .embedKS], ∀ (s t : State) (w : Word), s.engine = .busy w → exec i s = .next t →
    s.bpp = 8#8 ∨ s.bpp = 24#8 → s.payloadLen.toNat ≤ capacityOf s.pixelLen.toNat s.bpp →
    t.trunc = false ∧ t.embCount = s.payloadLen ∧
    (t.sentWr = false ↔ s.pixelLen.toNat < 8 ∨ (s.bpp = 8#8 ∧ s.payloadLen.toNat = s.pixelLen.toNat / 8)) ∧
    (s.payloadLen.toNat + 1 ≤ capacityOf s.pixelLen.toNat s.bpp → t.sentWr = true)

/-! ### EXTRACT -/

/-- R165: each EXTRACT command completes in every BUSY state whose operands are specified; it writes OUT_LEN = n,
UNITS_USED = 8·n + 8·found and SENT_FOUND = found, where n counts the groups before the first that decodes to the
sentinel; it writes those groups' bytes to PAY[0..n−1] and no other byte of PAYLOAD RAM; a keyed one leaves the
permutation it used in PERM[0..N−1]; nothing else changes but BUSY and DONE. -/
def Obligations.ExtractCompletes : Prop :=
  ∀ i ∈ [Instr.extract, .extractK], ∀ (s : State) (w : Word), s.engine = .busy w → Readable i s →
    ∃ pay perm, exec i s = .next { s with
      pay := pay
      perm := perm
      outLen := BitVec.ofNat 32 (extractCount s (pathOf i.keyed s))
      unitsUsed := BitVec.ofNat 32 (extractUnits s (pathOf i.keyed s))
      sentFound := extractFinds s (pathOf i.keyed s)
      engine := .idle
      done := true } ∧
      (∀ n, Ram.read pay n = if n < extractCount s (pathOf i.keyed s) then some (groupByte s (pathOf i.keyed s) n)
        else Ram.read s.pay n) ∧
      ∀ k, Ram.read perm k = if i.keyed = true ∧ k < s.pixelLen.toNat
        then some (BitVec.ofNat 32 ((pathOf i.keyed s).getD k 0)) else Ram.read s.perm k

/-- R162 (which the spec marks as derived), R163, R164: EXTRACT outputs, in order, the bytes whose bit t is bit 0 of
data unit π[8n + t], none of them 0xFF; it stops before the first group that decodes to 0xFF, or when no whole group
remains; PAY at OUT_LEN and above is unchanged. -/
def Obligations.ExtractOutputsTheDecodedBytes : Prop :=
  ∀ i ∈ [Instr.extract, .extractK], ∀ (s : State) (w : Word), s.engine = .busy w → Readable i s →
    ∃ t, exec i s = .next t ∧ t.outLen.toNat ≤ s.pixelLen.toNat / 8 ∧
      (∀ n, n < t.outLen.toNat → ∃ b, Ram.read t.pay n = some b ∧ b ≠ 0xFF#8 ∧ ∀ j, j < 8 →
        ∃ v, Ram.read s.pix ((pathOf i.keyed s).getD (8 * n + j) 0) = some v ∧ b.getLsbD j = v.getLsbD 0) ∧
      (t.sentFound = true ↔ t.outLen.toNat < s.pixelLen.toNat / 8) ∧
      (t.sentFound = true → ∀ j, j < 8 →
        ∃ v, Ram.read s.pix ((pathOf i.keyed s).getD (8 * t.outLen.toNat + j) 0) = some v ∧ v.getLsbD 0 = true) ∧
      (∀ n, t.outLen.toNat ≤ n → Ram.read t.pay n = Ram.read s.pay n)

/-- R170, which the spec marks as derived: EXTRACT never changes PIXEL RAM, and a second EXTRACT with the same operands
gives the same OUT_LEN, UNITS_USED, SENT_FOUND and output. -/
def Obligations.ExtractIsIdempotent : Prop :=
  ∀ i ∈ [Instr.extract, .extractK], ∀ (s t s' : State) (w w' : Word), s.engine = .busy w → Readable i s →
    exec i s = .next t → s'.engine = .busy w' → s'.params = s.params → s'.pixelLen = s.pixelLen →
    s'.keyLen = s.keyLen → s'.key = s.key → s'.pix = t.pix →
    t.pix = s.pix ∧ ∃ t', exec i s' = .next t' ∧ t'.outLen = t.outLen ∧ t'.unitsUsed = t.unitsUsed ∧
      t'.sentFound = t.sentFound ∧ ∀ n, n < t.outLen.toNat → Ram.read t'.pay n = Ram.read t.pay n

/-! ### EMBED and EXTRACT together -/

/-- R167, which the spec marks as derived: embed and extract are inverse for a payload without 0xFF: with PIX[0..N−1],
PIXEL_LEN, K, KEY_LEN and the key's bytes left unchanged in between, the EXTRACT completes with the embedded bytes (all
P of them when 8P ≤ N, else the first N div 8), and finds the sentinel exactly when 8 units remained after them. -/
def Obligations.EmbedThenExtractReturnsThePayload : Prop :=
  ∀ e ∈ [(Instr.embed, Instr.extract), (.embedS, .extract), (.embedK, .extractK), (.embedKS, .extractK)],
  ∀ (s t s' : State) (w w' : Word), s.engine = .busy w → (e.1.keyed = true → KeySpecified s) →
    (∀ k, k < embedCount s → ∃ b, Ram.read s.pay k = some b ∧ b ≠ 0xFF#8) → exec e.1 s = .next t →
    s'.engine = .busy w' → s'.params.permGen = s.params.permGen → s'.pixelLen = s.pixelLen →
    (e.1.keyed = true → s'.keyLen = s.keyLen ∧ ∀ k, k < s.keyLen.toNat → Ram.read s'.key k = Ram.read s.key k) →
    (∀ u, u < s.pixelLen.toNat → Ram.read s'.pix u = Ram.read t.pix u) →
    ∃ t', exec e.2 s' = .next t' ∧
      t'.outLen = BitVec.ofNat 32 (min s.payloadLen.toNat (s.pixelLen.toNat / 8)) ∧
      (∀ k, k < embedCount s → Ram.read t'.pay k = Ram.read s.pay k) ∧
      (t'.sentFound = true ↔ 8 ≤ s.pixelLen.toNat - 8 * embedCount s)

/-- R168, which the spec marks as derived: a payload byte 0xFF stops extraction: if p[m] is the first such byte
embedded, the EXTRACT under the conditions of R167 gives OUT_LEN = m, the bytes before it, and SENT_FOUND = 1. -/
def Obligations.PayloadSentinelStopsExtraction : Prop :=
  ∀ e ∈ [(Instr.embed, Instr.extract), (.embedS, .extract), (.embedK, .extractK), (.embedKS, .extractK)],
  ∀ (s t s' : State) (w w' : Word) (m : Nat), s.engine = .busy w → (e.1.keyed = true → KeySpecified s) →
    m < embedCount s → (∀ k, k < m → ∃ b, Ram.read s.pay k = some b ∧ b ≠ 0xFF#8) → Ram.read s.pay m = some 0xFF#8 →
    exec e.1 s = .next t →
    s'.engine = .busy w' → s'.params.permGen = s.params.permGen → s'.pixelLen = s.pixelLen →
    (e.1.keyed = true → s'.keyLen = s.keyLen ∧ ∀ k, k < s.keyLen.toNat → Ram.read s'.key k = Ram.read s.key k) →
    (∀ u, u < s.pixelLen.toNat → Ram.read s'.pix u = Ram.read t.pix u) →
    ∃ t', exec e.2 s' = .next t' ∧ t'.outLen = BitVec.ofNat 32 m ∧ t'.sentFound = true ∧
      ∀ k, k < m → Ram.read t'.pay k = Ram.read s.pay k

/-! ### Unspecified cells -/

/-- R79 with UNWRITTEN_READ = draw: no command ever stops. Its complete step answers a next state, IDLE and DONE,
whatever is unspecified; and what no drawn byte decides is as the rules say: which fields each operation may change at
all; CAPACITY (R111); EMBED's four results (R145); for EXTRACT, keyed or not, that OUT_LEN ≤ N div 8, UNITS_USED =
8·OUT_LEN + 8·SENT_FOUND, the sentinel is found exactly when OUT_LEN < N div 8, no output byte is 0xFF, and PAY at
OUT_LEN and above is unchanged (R163, R164, R165, R169); that PERM, keyed or not, a keyed EMBED and a keyed EXTRACT
store a permutation of [0, N), and the others leave PERM RAM alone (R121, R128). The free values are log entry 4's. -/
def Obligations.DrawingInstanceAlwaysCompletes : Prop :=
  ∀ (i : Instr) (s : State) (w : Word), s.engine = .busy w → s.params.unwritten = .draw →
    ∃ t, exec i s = .next t ∧ t.engine = .idle ∧ t.done = true ∧
      (i.operation = .cap → t = { s with
        capacity := BitVec.ofNat 32 (capacityOf s.pixelLen.toNat s.bpp), engine := .idle, done := true }) ∧
      (i.operation = .perm → t = { s with perm := t.perm, draws := t.draws, engine := .idle, done := true }) ∧
      (i.operation = .embed → t = { s with
        pix := t.pix
        perm := t.perm
        draws := t.draws
        embCount := BitVec.ofNat 32 (min s.payloadLen.toNat (s.pixelLen.toNat / 8))
        unitsUsed := BitVec.ofNat 32 (8 * embedCount s + if 8 ≤ s.pixelLen.toNat - 8 * embedCount s then 8 else 0)
        trunc := decide (embedCount s < s.payloadLen.toNat)
        sentWr := decide (8 ≤ s.pixelLen.toNat - 8 * embedCount s)
        engine := .idle
        done := true }) ∧
      (i.operation = .extract →
        t = { s with
          pay := t.pay, perm := t.perm, draws := t.draws, outLen := t.outLen, unitsUsed := t.unitsUsed
          sentFound := t.sentFound, engine := .idle, done := true } ∧
        t.outLen.toNat ≤ s.pixelLen.toNat / 8 ∧
        t.unitsUsed.toNat = 8 * t.outLen.toNat + (if t.sentFound then 8 else 0) ∧
        (t.sentFound = true ↔ t.outLen.toNat < s.pixelLen.toNat / 8) ∧
        (∀ k, k < t.outLen.toNat → ∃ b, Ram.read t.pay k = some b ∧ b ≠ 0xFF#8) ∧
        ∀ k, t.outLen.toNat ≤ k → Ram.read t.pay k = Ram.read s.pay k) ∧
      (i.operation = .perm ∨ i.keyed = true → ∃ p : List Nat, p.Perm (List.range s.pixelLen.toNat) ∧
        ∀ k, Ram.read t.perm k = if k < s.pixelLen.toNat then some (BitVec.ofNat 32 (p.getD k 0)) else Ram.read s.perm k) ∧
      (i.operation ≠ .perm → i.keyed = false → t.perm = s.perm)

/-- R79, R144, R185 with UNWRITTEN_READ = fault: a command's complete step faults exactly when a cell that it reads is
unspecified, and then with the fault for an unspecified read. -/
def Obligations.CompletionFaultsExactlyOnUnspecifiedCells : Prop :=
  ∀ (i : Instr) (s : State) (w : Word), s.engine = .busy w → s.params.unwritten = .fault →
    ((∃ t, exec i s = .next t) ↔ Readable i s) ∧
    (¬Readable i s → ∃ ram, exec i s = .fault (.unspecifiedRead ram))

/-- R53, R64, R79: with BUSY = 0, a legal host read of 1, 2 or 4 bytes of KEY, PAYLOAD or PIXEL RAM with an unspecified
byte among them faults under `fault`, naming that RAM. Under `draw` such a read gets OKAY: every specified byte is its
value, every unspecified one a free byte of its own, little-endian and zero-extended, and nothing changes but the
model's own fields. (That the free bytes are taken lowest address first is the model's choice: log entries 4 and 12.) -/
def Obligations.HostReadOfUnspecifiedByte : Prop :=
  ∀ (s : State) (ts : List Turn) (o : Nat) (n : AccessSize), s.params.Legal → s.engine = .idle → o % n.bytes = 0 →
  ∀ e ∈ [(0x00100000, RamName.key, s.key, s.params.kMax), (0x08000000, .payload, s.pay, s.params.pMax),
      (0x10000000, .pixel, s.pix, s.params.nMax)],
    o + n.bytes ≤ e.2.2.2.toNat → s.inputs = .read (BitVec.ofNat 32 (e.1 + o)) n :: ts →
    (∃ k, o ≤ k ∧ k < o + n.bytes ∧ ¬Specified e.2.2.1 k) →
    (s.params.unwritten = .fault → step s = .fault (.unspecifiedRead e.2.1)) ∧
    (s.params.unwritten = .draw → ∃ v : Word,
      step s = .next { s with
        inputs := ts, response := some (.okay v), draws := s.draws + unspecifiedAmong e.2.2.1 o n.bytes } ∧
      ∀ j, v.getLsbD j = (decide (j < 8 * n.bytes) &&
        ((Ram.read e.2.2.1 (o + j / 8)).getD
          (Config.drawnByte (s.draws + unspecifiedAmong e.2.2.1 o (j / 8)))).getLsbD (j % 8)))

/-- R53, R63, R79: with BUSY = 0, a legal host read of an unspecified PERM entry faults under `fault`, naming PERM RAM;
under `draw` it gets OKAY with a free 32-bit value, and nothing changes but the model's own fields (log entry 4). -/
def Obligations.HostReadOfUnspecifiedEntry : Prop :=
  ∀ (s : State) (ts : List Turn) (k : Nat), s.params.Legal → s.engine = .idle → k < s.params.nMax.toNat →
    s.inputs = .read (BitVec.ofNat 32 (0x40000000 + 4 * k)) .four :: ts → ¬Specified s.perm k →
    (s.params.unwritten = .fault → step s = .fault (.unspecifiedRead .perm)) ∧
    (s.params.unwritten = .draw → step s = .next { s with
      inputs := ts, response := some (.okay (Config.drawnEntry s.draws)), draws := s.draws + 1 })

/-! ### The invariant -/

/-- The invariant of the machine holds right after reset. Its bounds on the sizes rest on the parameters that log entry
1 chooses. -/
def Obligations.InvariantAtReset : Prop := Invariant State.reset

/-- Every step keeps the invariant (the RAMs' canonical form and bounds, R121's law 1 in PERM RAM, ERRCODE with ERR, the
result registers' bounds, and what the engine holds while BUSY). -/
def Obligations.StepKeepsTheInvariant : Prop := ∀ s t : State, Invariant s → step s = .next t → Invariant t

/-- R180, R185: in a state of the invariant the engine's word is a command, so no step is refused. -/
def Obligations.InvariantStepIsNotRefused : Prop := ∀ (s : State) (r : Refusal), Invariant s → step s ≠ .refused r

/-- R54: the parameters are not state: no step changes them. -/
def Obligations.StepKeepsTheParameters : Prop := ∀ s t : State, step s = .next t → t.params = s.params

/-! ### Whole-machine rules -/

/-- R67, R75: while BUSY a host access changes nothing but DONE, ERR, ERRCODE, OVERRUN, IRQ_EN and the model's own turn
list and response: every input of the command in flight, LAST_CMD, every result and every RAM stay as they are. -/
def Obligations.InputsAreFrozenWhileBusy : Prop :=
  ∀ (s t : State) (write : Bool) (addr : Word) (n : AccessSize), s.busy = true → HostAccesses s write addr n →
    step s = .next t →
    t = { s with
      done := t.done, err := t.err, errcode := t.errcode, overrun := t.overrun, irqEn := t.irqEn
      inputs := t.inputs, response := t.response }

/-- R41 to R44: each result register changes only at the completion of its own commands, or at a reset or power-on. -/
def Obligations.ResultRegistersHaveTheirWriters : Prop :=
  ∀ s t : State, step s = .next t → ¬Resets s → ¬PowersOn s →
    (t.capacity ≠ s.capacity → EngineCompletes s .cap) ∧
    (t.embCount ≠ s.embCount → ∃ i ∈ [Instr.embed, .embedK, .embedS, .embedKS], EngineCompletes s i) ∧
    (t.outLen ≠ s.outLen → ∃ i ∈ [Instr.extract, .extractK], EngineCompletes s i) ∧
    (t.unitsUsed ≠ s.unitsUsed →
      ∃ i ∈ [Instr.embed, .embedK, .embedS, .embedKS, .extract, .extractK], EngineCompletes s i)

/-- R47 to R50: each RAM changes only by the host's writes in its window while BUSY = 0 (never for PERM RAM), by the
commands that write it, by power-on, and, but for KEY RAM, by a reset while BUSY = 1. -/
def Obligations.RamsHaveTheirWriters : Prop :=
  ∀ s t : State, step s = .next t → ¬PowersOn s →
    (t.key ≠ s.key → s.busy = false ∧ WritesWindow s 0x00100000 s.params.kMax.toNat) ∧
    (t.pay ≠ s.pay → (s.busy = false ∧ WritesWindow s 0x08000000 s.params.pMax.toNat) ∨
      (∃ i ∈ [Instr.extract, .extractK], EngineCompletes s i) ∨ (s.busy = true ∧ Resets s)) ∧
    (t.pix ≠ s.pix → (s.busy = false ∧ WritesWindow s 0x10000000 s.params.nMax.toNat) ∨
      (∃ i ∈ [Instr.embed, .embedK, .embedS, .embedKS], EngineCompletes s i) ∨ (s.busy = true ∧ Resets s)) ∧
    (t.perm ≠ s.perm → (∃ i ∈ [Instr.perm, .permK, .embedK, .embedKS, .extractK], EngineCompletes s i) ∨
      (s.busy = true ∧ Resets s))

/-- R30: OVERRUN is sticky: a step clears it only when it is the host's write of 1 to STATUS bit 3, a reset or power-on.
-/
def Obligations.OverrunIsSticky : Prop :=
  ∀ s t : State, step s = .next t → s.overrun = true → t.overrun = false →
    (∃ v, WritesRegister s 0x00C v ∧ v.getLsbD 3 = true) ∨ Resets s ∨ PowersOn s

/-- R29, R32: ERR is sticky: a step clears it only when it is the host's write of 1 to STATUS bit 2 (which clears
ERRCODE too), a reset or power-on; a step sets it only at a CMD write with BUSY = 0. -/
def Obligations.ErrIsSticky : Prop :=
  ∀ s t : State, step s = .next t →
    (s.err = true → t.err = false →
      ((∃ v, WritesRegister s 0x00C v ∧ v.getLsbD 2 = true) ∨ Resets s ∨ PowersOn s) ∧ t.errcode = .noError) ∧
    (s.err = false → t.err = true → s.busy = false ∧ (∃ v, WritesRegister s 0x008 v) ∧ t.errcode ≠ .noError)

/-- R26, R27: BUSY is set only by a CMD write with BUSY = 0, and cleared only by the completion of the held command, a
reset or power-on; DONE is set only by a completion. -/
def Obligations.BusyAndDoneHaveTheirEvents : Prop :=
  ∀ s t : State, step s = .next t →
    (s.busy = false → t.busy = true → ∃ i, WritesRegister s 0x008 (commandWord i) ∧ t.engine = .busy (commandWord i)) ∧
    (s.busy = true → t.busy = false → (∃ i, EngineCompletes s i) ∨ Resets s ∨ PowersOn s) ∧
    (s.done = false → t.done = true → ∃ i, EngineCompletes s i)

/-! ### The host port -/

/-- R190, R191: an access that is not legal gets ERROR and changes no state (but the model's own turn list and
response), and no other access gets ERROR, whether or not BUSY = 1. -/
def Obligations.ExactlyIllegalAccessesGetError : Prop :=
  ∀ (s : State) (write : Bool) (addr : Word) (n : AccessSize), s.params.Legal → HostAccesses s write addr n →
    (¬LegalAccess s.params write addr n →
      step s = .next { s with inputs := s.inputs.tail, response := some .error }) ∧
    (LegalAccess s.params write addr n → ∀ t, step s = .next t → ∃ v, t.response = some (.okay v))

/-- R22 to R26, R32 to R45: what a read of each register returns, in either phase; a read changes nothing but the
model's own turn list and response (R70). -/
def Obligations.RegisterReadsReturnTheRegisters : Prop :=
  ∀ (s : State) (ts : List Turn),
  ∀ e ∈ [(0x000, 0x4B4C5045#32), (0x004, 0x00010000#32), (0x008, s.lastCmd), (0x00C, statusWord s),
      (0x010, s.errcode.word), (0x014, s.pixelLen), (0x018, s.bpp.setWidth 32), (0x01C, s.keyLen),
      (0x020, s.payloadLen), (0x024, s.capacity), (0x028, s.embCount), (0x02C, s.outLen), (0x030, s.unitsUsed),
      (0x034, s.irqEn.setWidth 32), (0x038, s.params.nMax), (0x03C, s.params.kMax), (0x040, s.params.pMax)],
    s.inputs = .read (BitVec.ofNat 32 e.1) .four :: ts →
    step s = .next { s with inputs := ts, response := some (.okay e.2) }

/-- R26, R51, R182, R192: the places of the STATUS fields, bits 31:7 reading 0; the codes of ERRCODE; and `irq`. -/
def Obligations.StatusErrcodeAndIrqBits : Prop :=
  (∀ s : State, (statusWord s).getLsbD 0 = s.busy ∧ (statusWord s).getLsbD 1 = s.done ∧
    (statusWord s).getLsbD 2 = s.err ∧ (statusWord s).getLsbD 3 = s.overrun ∧ (statusWord s).getLsbD 4 = s.trunc ∧
    (statusWord s).getLsbD 5 = s.sentWr ∧ (statusWord s).getLsbD 6 = s.sentFound ∧
    ∀ n, 7 ≤ n → (statusWord s).getLsbD n = false) ∧
  (ErrCode.noError.word = 0 ∧ ErrCode.illegalCmd.word = 1 ∧ ErrCode.lengthRange.word = 2 ∧
    ErrCode.unsupportedFormat.word = 3 ∧ ErrCode.capacityExceeded.word = 4) ∧
  (∀ s : State, irq s = true ↔ (s.done = true ∧ s.irqEn.getLsbD 0 = true) ∨
    (s.err = true ∧ s.irqEn.getLsbD 1 = true) ∨ (s.overrun = true ∧ s.irqEn.getLsbD 2 = true))

/-- R26, R67: a write of `v` to STATUS, in either phase, clears DONE, ERR (with ERRCODE) and OVERRUN where bits 1, 2 and
3 of `v` are 1, and nothing else. -/
def Obligations.StatusWriteClearsWhatItNames : Prop :=
  ∀ (s : State) (v : Word) (ts : List Turn), s.inputs = .write 0x0000000C#32 .four v :: ts →
    step s = .next { s with
      inputs := ts, response := some (.okay 0)
      done := if v.getLsbD 1 then false else s.done
      err := if v.getLsbD 2 then false else s.err
      errcode := if v.getLsbD 2 then .noError else s.errcode
      overrun := if v.getLsbD 3 then false else s.overrun }

/-- R22, R33, R34, R38, R39, R45: with BUSY = 0 a write to PIXEL_LEN, KEY_LEN or PAYLOAD_LEN stores all 32 bits, one to
BPP bits 7:0 and one to IRQ_EN bits 2:0; a write to a read-only register is ignored. IRQ_EN is written while BUSY = 1
too (R67). All get OKAY and change nothing else. -/
def Obligations.RegisterWritesStore : Prop :=
  ∀ (s : State) (v : Word) (ts : List Turn),
    (s.engine = .idle →
      (s.inputs = .write 0x00000014#32 .four v :: ts →
        step s = .next { s with inputs := ts, response := some (.okay 0), pixelLen := v }) ∧
      (s.inputs = .write 0x00000018#32 .four v :: ts →
        step s = .next { s with inputs := ts, response := some (.okay 0), bpp := v.extractLsb' 0 8 }) ∧
      (s.inputs = .write 0x0000001C#32 .four v :: ts →
        step s = .next { s with inputs := ts, response := some (.okay 0), keyLen := v }) ∧
      (s.inputs = .write 0x00000020#32 .four v :: ts →
        step s = .next { s with inputs := ts, response := some (.okay 0), payloadLen := v }) ∧
      (∀ a ∈ [0x000, 0x004, 0x010, 0x024, 0x028, 0x02C, 0x030, 0x038, 0x03C, 0x040],
        s.inputs = .write (BitVec.ofNat 32 a) .four v :: ts →
        step s = .next { s with inputs := ts, response := some (.okay 0) })) ∧
    (s.inputs = .write 0x00000034#32 .four v :: ts →
      step s = .next { s with inputs := ts, response := some (.okay 0), irqEn := v.extractLsb' 0 3 })

/-- R67: while BUSY a write to any register but STATUS and IRQ_EN, CMD among them, is discarded: it gets OKAY, sets
OVERRUN and changes nothing else. -/
def Obligations.BusyRegisterWriteIsDiscarded : Prop :=
  ∀ (s : State) (v : Word) (ts : List Turn), s.busy = true →
  ∀ a ∈ [0x000, 0x004, 0x008, 0x010, 0x014, 0x018, 0x01C, 0x020, 0x024, 0x028, 0x02C, 0x030, 0x038, 0x03C, 0x040],
    s.inputs = .write (BitVec.ofNat 32 a) .four v :: ts →
    step s = .next { s with inputs := ts, response := some (.okay 0), overrun := true }

/-- R67: while BUSY a legal read of a RAM returns 0 and a legal write to one is discarded; both get OKAY, set OVERRUN
and change nothing else. -/
def Obligations.BusyRamAccessIsBlanked : Prop :=
  ∀ (s : State) (write : Bool) (addr : Word) (n : AccessSize), s.params.Legal → s.busy = true →
    HostAccesses s write addr n → LegalAccess s.params write addr n → 0x00100000 ≤ addr.toNat →
    step s = .next { s with inputs := s.inputs.tail, response := some (.okay 0), overrun := true }

/-- R65: with BUSY = 0 a legal write of `n` bytes at offset `o` of a byte RAM writes byte v[8k+7:8k] to offset o + k for
k = 0 .. n−1 and no other byte; it gets OKAY and nothing else changes. -/
def Obligations.RamWritesStoreLittleEndian : Prop :=
  ∀ (s : State) (ts : List Turn) (o : Nat) (n : AccessSize) (v : Word), s.params.Legal → s.engine = .idle →
    o % n.bytes = 0 →
    (o + n.bytes ≤ s.params.kMax.toNat → s.inputs = .write (BitVec.ofNat 32 (0x00100000 + o)) n v :: ts →
      ∃ m, step s = .next { s with inputs := ts, response := some (.okay 0), key := m } ∧
        ∀ k, Ram.read m k = if o ≤ k ∧ k < o + n.bytes then some (v.extractLsb' (8 * (k - o)) 8) else Ram.read s.key k) ∧
    (o + n.bytes ≤ s.params.pMax.toNat → s.inputs = .write (BitVec.ofNat 32 (0x08000000 + o)) n v :: ts →
      ∃ m, step s = .next { s with inputs := ts, response := some (.okay 0), pay := m } ∧
        ∀ k, Ram.read m k = if o ≤ k ∧ k < o + n.bytes then some (v.extractLsb' (8 * (k - o)) 8) else Ram.read s.pay k) ∧
    (o + n.bytes ≤ s.params.nMax.toNat → s.inputs = .write (BitVec.ofNat 32 (0x10000000 + o)) n v :: ts →
      ∃ m, step s = .next { s with inputs := ts, response := some (.okay 0), pix := m } ∧
        ∀ k, Ram.read m k = if o ≤ k ∧ k < o + n.bytes then some (v.extractLsb' (8 * (k - o)) 8) else Ram.read s.pix k)

/-- R64: with BUSY = 0 a legal read of `n` specified bytes at offset `o` of a byte RAM returns them little-endian and
zero-extended; nothing else changes. -/
def Obligations.RamReadsReturnLittleEndian : Prop :=
  ∀ (s : State) (ts : List Turn) (o : Nat) (n : AccessSize), s.params.Legal → s.engine = .idle → o % n.bytes = 0 →
  ∀ e ∈ [(0x00100000, s.key, s.params.kMax), (0x08000000, s.pay, s.params.pMax), (0x10000000, s.pix, s.params.nMax)],
    o + n.bytes ≤ e.2.2.toNat → (∀ k, o ≤ k → k < o + n.bytes → Specified e.2.1 k) →
    s.inputs = .read (BitVec.ofNat 32 (e.1 + o)) n :: ts →
    ∃ v : Word, step s = .next { s with inputs := ts, response := some (.okay v) } ∧
      ∀ j, v.getLsbD j = (decide (j < 8 * n.bytes) && ((Ram.read e.2.1 (o + j / 8)).getD 0).getLsbD (j % 8))

/-- R63, R64: with BUSY = 0 a 4-byte read at offset 4k of the PERM region returns the entry PERM[k] as stored; nothing
else changes. -/
def Obligations.PermReadsReturnTheEntry : Prop :=
  ∀ (s : State) (ts : List Turn) (k : Nat) (v : Word), s.params.Legal → s.engine = .idle → k < s.params.nMax.toNat →
    Ram.read s.perm k = some v → s.inputs = .read (BitVec.ofNat 32 (0x40000000 + 4 * k)) .four :: ts →
    step s = .next { s with inputs := ts, response := some (.okay v) }

/-! ### Reset -/

/-- R52, R220: a reset gives every register, flag and hidden register its reset value, in either phase, and leaves the
engine IDLE with no command held; what it does to the RAMs is R221's. (The model's own fields: the turn list goes on;
nothing is said here of the response and the count of draws, log entries 2, 4 and 5.) -/
def Obligations.ResetSetsEveryRegister : Prop :=
  ∀ (s : State) (ts : List Turn), s.inputs = .rst :: ts →
    ∃ key pay pix perm r d, step s = .next {
      params := s.params, lastCmd := 0, done := false, err := false, overrun := false, trunc := false
      sentWr := false, sentFound := false, errcode := .noError, pixelLen := 0, bpp := 0, keyLen := 0
      payloadLen := 0, capacity := 0, embCount := 0, outLen := 0, unitsUsed := 0, irqEn := 0
      key := key, pay := pay, pix := pix, perm := perm
      engine := .idle, inputs := ts, response := r, draws := d }

/-- R221: a reset while BUSY makes exactly the cells that the abandoned command could write unspecified, by the command
and the length N in PIXEL_LEN; every other cell keeps its value, and so does every cell when BUSY = 0. -/
def Obligations.ResetUnspecifiesTheAbandonedOutput : Prop :=
  ∀ (s : State) (ts : List Turn), s.inputs = .rst :: ts →
    (s.engine = .idle → ∃ t, step s = .next t ∧ t.key = s.key ∧ t.pay = s.pay ∧ t.pix = s.pix ∧ t.perm = s.perm) ∧
    (∀ i : Instr, s.engine = .busy (commandWord i) → ∃ t, step s = .next t ∧ t.key = s.key ∧
      (∀ u, Ram.read t.pix u =
        if i.operation = .embed ∧ u < s.pixelLen.toNat then none else Ram.read s.pix u) ∧
      (∀ u, Ram.read t.pay u =
        if i.operation = .extract ∧ u < s.pixelLen.toNat / 8 then none else Ram.read s.pay u) ∧
      (∀ u, Ram.read t.perm u =
        if (i.operation = .perm ∨ i.keyed = true) ∧ u < s.pixelLen.toNat then none else Ram.read s.perm u))

/-- R53, R222: power-on gives every register its reset value and leaves every RAM cell unspecified. (Of the model's own
fields, nothing is said here of the response and the count of draws.) -/
def Obligations.PowerOnUnspecifiesEveryCell : Prop :=
  ∀ (s : State) (ts : List Turn), s.inputs = .powerOn :: ts →
    ∃ t r d, step s = .next t ∧ t = { State.reset with params := s.params, inputs := ts, response := r, draws := d } ∧
      ∀ k, Ram.read t.key k = none ∧ Ram.read t.pay k = none ∧ Ram.read t.pix k = none ∧ Ram.read t.perm k = none

/-- R52: what the host reads of the registers right after reset, but for the parameters (log entry 1): ID and VERSION
their constants, every other register 0. -/
def Obligations.ResetReadsAsTheTableSays : Prop :=
  readReg .id State.reset = 0x4B4C5045#32 ∧ readReg .version State.reset = 0x00010000#32 ∧
  (∀ r ∈ [Reg.cmd, .status, .errcode, .pixelLen, .bpp, .keyLen, .payloadLen, .capacity, .embCount, .outLen, .unitsUsed,
    .irqEn], readReg r State.reset = 0#32) ∧ irq State.reset = false
end

