-- ==== Sys2Proof/Laws/Ram.lean ====
section
/-! SUPPORT. The laws of a RAM: a read after a write, and that every operation keeps the canonical form and the bounds. -/

namespace Sys2Proof.Machine

variable {w : Nat}

@[simp] theorem Ram.read_nil (k : Nat) : Ram.read ([] : Ram w) k = none := rfl

theorem Ram.read_cons (a : Nat) (b : BitVec w) (m : Ram w) (k : Nat) :
    Ram.read ((a, b) :: m) k = if k = a then some b else Ram.read m k := rfl

/-- A read after a write of cell `k`: the value written at `k`, the old cell elsewhere. -/
theorem Ram.read_write (m : Ram w) (k : Nat) (v : BitVec w) (j : Nat) :
    Ram.read (Ram.write m k v) j = if j = k then some v else Ram.read m j := by
  induction m with
  | nil => rfl
  | cons c m ih =>
    obtain ⟨a, b⟩ := c
    simp only [Ram.write]
    by_cases h1 : k < a
    · rw [if_pos h1, Ram.read_cons]
    · rw [if_neg h1]
      by_cases h2 : k = a
      · subst h2
        rw [if_pos rfl, Ram.read_cons, Ram.read_cons]
        split_ifs <;> rfl
      · rw [if_neg h2, Ram.read_cons, Ram.read_cons, ih]
        split_ifs <;> first | rfl | omega

@[simp] theorem Ram.read_write_same (m : Ram w) (k : Nat) (v : BitVec w) : Ram.read (Ram.write m k v) k = some v := by
  simp [Ram.read_write]

theorem Ram.read_write_other (m : Ram w) {k j : Nat} (v : BitVec w) (h : j ≠ k) :
    Ram.read (Ram.write m k v) j = Ram.read m j := by
  simp [Ram.read_write, h]

/-- The cells of a written RAM are the written one and old ones. -/
theorem Ram.mem_write {m : Ram w} {k : Nat} {v : BitVec w} {c : Nat × BitVec w} (h : c ∈ Ram.write m k v) :
    c = (k, v) ∨ c ∈ m := by
  induction m with
  | nil => simpa [Ram.write] using h
  | cons d m ih =>
    simp only [Ram.write] at h
    split_ifs at h
    · simpa using h
    · rcases List.mem_cons.1 h with h | h
      · exact .inl h
      · exact .inr (List.mem_cons_of_mem _ h)
    · rcases List.mem_cons.1 h with h | h
      · exact .inr (h ▸ List.mem_cons_self ..)
      · rcases ih h with h | h
        · exact .inl h
        · exact .inr (List.mem_cons_of_mem _ h)

theorem Ram.wf_nil : Ram.wf ([] : Ram w) := List.Pairwise.nil

/-- A write keeps the canonical form. -/
theorem Ram.wf_write {m : Ram w} (h : Ram.wf m) (k : Nat) (v : BitVec w) : Ram.wf (Ram.write m k v) := by
  induction m with
  | nil => exact List.pairwise_singleton ..
  | cons c m ih =>
    obtain ⟨a, b⟩ := c
    have hd := List.pairwise_cons.1 h
    simp only [Ram.write]
    split_ifs with h1 h2
    · refine List.pairwise_cons.2 ⟨fun d hd' => ?_, h⟩
      rcases List.mem_cons.1 hd' with rfl | hd'
      · exact h1
      · exact h1.trans (hd.1 d hd')
    · subst h2; exact List.pairwise_cons.2 hd
    · refine List.pairwise_cons.2 ⟨fun d hd' => ?_, ih hd.2⟩
      rcases Ram.mem_write hd' with rfl | hd'
      · show a < k; omega
      · exact hd.1 d hd'

/-- After `forget n`: cells below `n` are unspecified, the others keep their value. -/
theorem Ram.read_forget (m : Ram w) (n k : Nat) : Ram.read (Ram.forget m n) k = if k < n then none else Ram.read m k := by
  induction m with
  | nil => simp [Ram.forget]
  | cons c m ih =>
    obtain ⟨a, b⟩ := c
    simp only [Ram.forget, List.filter_cons] at ih ⊢
    split_ifs with h1 h2 h2
    · rw [Ram.read_cons, ih]; simp at h1; split_ifs <;> first | rfl | omega
    · rw [Ram.read_cons, Ram.read_cons, ih]; split_ifs <;> rfl
    · rw [ih]; simp [h2]
    · rw [ih, Ram.read_cons]; simp at h1; split_ifs <;> first | rfl | omega

theorem Ram.mem_forget {m : Ram w} {n : Nat} {c : Nat × BitVec w} (h : c ∈ Ram.forget m n) : c ∈ m :=
  List.mem_of_mem_filter h

theorem Ram.wf_forget {m : Ram w} (h : Ram.wf m) (n : Nat) : Ram.wf (Ram.forget m n) :=
  List.Pairwise.sublist List.filter_sublist h

/-- A list written from cell `k` on: cell `k + j` holds its j-th value, every other cell its old one. -/
theorem Ram.read_writeList (m : Ram w) (k : Nat) (vs : List (BitVec w)) (j : Nat) :
    Ram.read (Ram.writeList m k vs) j =
      if k ≤ j ∧ j < k + vs.length then vs[j - k]? else Ram.read m j := by
  induction vs generalizing m k with
  | nil => simp only [Ram.writeList, List.length_nil]; split_ifs <;> first | rfl | omega
  | cons v vs ih =>
    simp only [Ram.writeList, ih, Ram.read_write, List.length_cons]
    rcases Nat.lt_trichotomy j k with h | h | h
    · rw [if_neg (by omega), if_neg (by omega), if_neg (by omega)]
    · subst h; rw [if_neg (by omega), if_pos rfl, if_pos (by omega)]; simp
    · have e : j - k = (j - (k + 1)) + 1 := by omega
      by_cases h2 : j < k + 1 + vs.length
      · rw [if_pos (by omega), if_pos (by omega), e, List.getElem?_cons_succ]
      · rw [if_neg (by omega), if_neg (by omega), if_neg (by omega)]

theorem Ram.mem_writeList {m : Ram w} {k : Nat} {vs : List (BitVec w)} {c : Nat × BitVec w}
    (h : c ∈ Ram.writeList m k vs) : c ∈ m ∨ (k ≤ c.1 ∧ c.1 < k + vs.length ∧ c.2 ∈ vs) := by
  induction vs generalizing m k with
  | nil => exact .inl h
  | cons v vs ih =>
    rcases ih h with h | ⟨h1, h2, h3⟩
    · rcases Ram.mem_write h with rfl | h
      · exact .inr ⟨Nat.le_refl _, by simp, by simp⟩
      · exact .inl h
    · exact .inr ⟨by omega, by simp only [List.length_cons]; omega, List.mem_cons_of_mem _ h3⟩

theorem Ram.wf_writeList {m : Ram w} (h : Ram.wf m) (k : Nat) (vs : List (BitVec w)) : Ram.wf (Ram.writeList m k vs) := by
  induction vs generalizing m k with
  | nil => exact h
  | cons v vs ih => exact ih (Ram.wf_write h k v) (k + 1)

end Sys2Proof.Machine
end

