-- ==== Sys2Proof/Laws/State.lean ====
section
/-! SUPPORT. What each update of the state does to each field: one lemma per field per update, so that no later proof unfolds
a record update. -/

namespace Sys2Proof.Machine

@[simp] theorem noteCommand_params (w : Word) (s : State) : (noteCommand w s).params = s.params := rfl
@[simp] theorem noteCommand_lastCmd (w : Word) (s : State) : (noteCommand w s).lastCmd = w := rfl
@[simp] theorem noteCommand_done (w : Word) (s : State) : (noteCommand w s).done = s.done := rfl
@[simp] theorem noteCommand_err (w : Word) (s : State) : (noteCommand w s).err = s.err := rfl
@[simp] theorem noteCommand_overrun (w : Word) (s : State) : (noteCommand w s).overrun = s.overrun := rfl
@[simp] theorem noteCommand_trunc (w : Word) (s : State) : (noteCommand w s).trunc = s.trunc := rfl
@[simp] theorem noteCommand_sentWr (w : Word) (s : State) : (noteCommand w s).sentWr = s.sentWr := rfl
@[simp] theorem noteCommand_sentFound (w : Word) (s : State) : (noteCommand w s).sentFound = s.sentFound := rfl
@[simp] theorem noteCommand_errcode (w : Word) (s : State) : (noteCommand w s).errcode = s.errcode := rfl
@[simp] theorem noteCommand_pixelLen (w : Word) (s : State) : (noteCommand w s).pixelLen = s.pixelLen := rfl
@[simp] theorem noteCommand_bpp (w : Word) (s : State) : (noteCommand w s).bpp = s.bpp := rfl
@[simp] theorem noteCommand_keyLen (w : Word) (s : State) : (noteCommand w s).keyLen = s.keyLen := rfl
@[simp] theorem noteCommand_payloadLen (w : Word) (s : State) : (noteCommand w s).payloadLen = s.payloadLen := rfl
@[simp] theorem noteCommand_capacity (w : Word) (s : State) : (noteCommand w s).capacity = s.capacity := rfl
@[simp] theorem noteCommand_embCount (w : Word) (s : State) : (noteCommand w s).embCount = s.embCount := rfl
@[simp] theorem noteCommand_outLen (w : Word) (s : State) : (noteCommand w s).outLen = s.outLen := rfl
@[simp] theorem noteCommand_unitsUsed (w : Word) (s : State) : (noteCommand w s).unitsUsed = s.unitsUsed := rfl
@[simp] theorem noteCommand_irqEn (w : Word) (s : State) : (noteCommand w s).irqEn = s.irqEn := rfl
@[simp] theorem noteCommand_key (w : Word) (s : State) : (noteCommand w s).key = s.key := rfl
@[simp] theorem noteCommand_pay (w : Word) (s : State) : (noteCommand w s).pay = s.pay := rfl
@[simp] theorem noteCommand_pix (w : Word) (s : State) : (noteCommand w s).pix = s.pix := rfl
@[simp] theorem noteCommand_perm (w : Word) (s : State) : (noteCommand w s).perm = s.perm := rfl
@[simp] theorem noteCommand_engine (w : Word) (s : State) : (noteCommand w s).engine = s.engine := rfl
@[simp] theorem noteCommand_inputs (w : Word) (s : State) : (noteCommand w s).inputs = s.inputs := rfl
@[simp] theorem noteCommand_response (w : Word) (s : State) : (noteCommand w s).response = s.response := rfl
@[simp] theorem noteCommand_draws (w : Word) (s : State) : (noteCommand w s).draws = s.draws := rfl

@[simp] theorem reject_params (code : ErrCode) (s : State) : (reject code s).params = s.params := rfl
@[simp] theorem reject_lastCmd (code : ErrCode) (s : State) : (reject code s).lastCmd = s.lastCmd := rfl
@[simp] theorem reject_done (code : ErrCode) (s : State) : (reject code s).done = s.done := rfl
@[simp] theorem reject_err (code : ErrCode) (s : State) : (reject code s).err = true := rfl
@[simp] theorem reject_overrun (code : ErrCode) (s : State) : (reject code s).overrun = s.overrun := rfl
@[simp] theorem reject_trunc (code : ErrCode) (s : State) : (reject code s).trunc = s.trunc := rfl
@[simp] theorem reject_sentWr (code : ErrCode) (s : State) : (reject code s).sentWr = s.sentWr := rfl
@[simp] theorem reject_sentFound (code : ErrCode) (s : State) : (reject code s).sentFound = s.sentFound := rfl
@[simp] theorem reject_errcode (code : ErrCode) (s : State) : (reject code s).errcode = code := rfl
@[simp] theorem reject_pixelLen (code : ErrCode) (s : State) : (reject code s).pixelLen = s.pixelLen := rfl
@[simp] theorem reject_bpp (code : ErrCode) (s : State) : (reject code s).bpp = s.bpp := rfl
@[simp] theorem reject_keyLen (code : ErrCode) (s : State) : (reject code s).keyLen = s.keyLen := rfl
@[simp] theorem reject_payloadLen (code : ErrCode) (s : State) : (reject code s).payloadLen = s.payloadLen := rfl
@[simp] theorem reject_capacity (code : ErrCode) (s : State) : (reject code s).capacity = s.capacity := rfl
@[simp] theorem reject_embCount (code : ErrCode) (s : State) : (reject code s).embCount = s.embCount := rfl
@[simp] theorem reject_outLen (code : ErrCode) (s : State) : (reject code s).outLen = s.outLen := rfl
@[simp] theorem reject_unitsUsed (code : ErrCode) (s : State) : (reject code s).unitsUsed = s.unitsUsed := rfl
@[simp] theorem reject_irqEn (code : ErrCode) (s : State) : (reject code s).irqEn = s.irqEn := rfl
@[simp] theorem reject_key (code : ErrCode) (s : State) : (reject code s).key = s.key := rfl
@[simp] theorem reject_pay (code : ErrCode) (s : State) : (reject code s).pay = s.pay := rfl
@[simp] theorem reject_pix (code : ErrCode) (s : State) : (reject code s).pix = s.pix := rfl
@[simp] theorem reject_perm (code : ErrCode) (s : State) : (reject code s).perm = s.perm := rfl
@[simp] theorem reject_engine (code : ErrCode) (s : State) : (reject code s).engine = s.engine := rfl
@[simp] theorem reject_inputs (code : ErrCode) (s : State) : (reject code s).inputs = s.inputs := rfl
@[simp] theorem reject_response (code : ErrCode) (s : State) : (reject code s).response = s.response := rfl
@[simp] theorem reject_draws (code : ErrCode) (s : State) : (reject code s).draws = s.draws := rfl

@[simp] theorem acknowledge_params (v : Word) (s : State) : (acknowledge v s).params = s.params := rfl
@[simp] theorem acknowledge_lastCmd (v : Word) (s : State) : (acknowledge v s).lastCmd = s.lastCmd := rfl
@[simp] theorem acknowledge_done (v : Word) (s : State) : (acknowledge v s).done = (s.done && !v.getLsbD 1) := rfl
@[simp] theorem acknowledge_err (v : Word) (s : State) : (acknowledge v s).err = (s.err && !v.getLsbD 2) := rfl
@[simp] theorem acknowledge_overrun (v : Word) (s : State) : (acknowledge v s).overrun = (s.overrun && !v.getLsbD 3) := rfl
@[simp] theorem acknowledge_trunc (v : Word) (s : State) : (acknowledge v s).trunc = s.trunc := rfl
@[simp] theorem acknowledge_sentWr (v : Word) (s : State) : (acknowledge v s).sentWr = s.sentWr := rfl
@[simp] theorem acknowledge_sentFound (v : Word) (s : State) : (acknowledge v s).sentFound = s.sentFound := rfl
@[simp] theorem acknowledge_errcode (v : Word) (s : State) : (acknowledge v s).errcode = (if v.getLsbD 2 then .noError else s.errcode) := rfl
@[simp] theorem acknowledge_pixelLen (v : Word) (s : State) : (acknowledge v s).pixelLen = s.pixelLen := rfl
@[simp] theorem acknowledge_bpp (v : Word) (s : State) : (acknowledge v s).bpp = s.bpp := rfl
@[simp] theorem acknowledge_keyLen (v : Word) (s : State) : (acknowledge v s).keyLen = s.keyLen := rfl
@[simp] theorem acknowledge_payloadLen (v : Word) (s : State) : (acknowledge v s).payloadLen = s.payloadLen := rfl
@[simp] theorem acknowledge_capacity (v : Word) (s : State) : (acknowledge v s).capacity = s.capacity := rfl
@[simp] theorem acknowledge_embCount (v : Word) (s : State) : (acknowledge v s).embCount = s.embCount := rfl
@[simp] theorem acknowledge_outLen (v : Word) (s : State) : (acknowledge v s).outLen = s.outLen := rfl
@[simp] theorem acknowledge_unitsUsed (v : Word) (s : State) : (acknowledge v s).unitsUsed = s.unitsUsed := rfl
@[simp] theorem acknowledge_irqEn (v : Word) (s : State) : (acknowledge v s).irqEn = s.irqEn := rfl
@[simp] theorem acknowledge_key (v : Word) (s : State) : (acknowledge v s).key = s.key := rfl
@[simp] theorem acknowledge_pay (v : Word) (s : State) : (acknowledge v s).pay = s.pay := rfl
@[simp] theorem acknowledge_pix (v : Word) (s : State) : (acknowledge v s).pix = s.pix := rfl
@[simp] theorem acknowledge_perm (v : Word) (s : State) : (acknowledge v s).perm = s.perm := rfl
@[simp] theorem acknowledge_engine (v : Word) (s : State) : (acknowledge v s).engine = s.engine := rfl
@[simp] theorem acknowledge_inputs (v : Word) (s : State) : (acknowledge v s).inputs = s.inputs := rfl
@[simp] theorem acknowledge_response (v : Word) (s : State) : (acknowledge v s).response = s.response := rfl
@[simp] theorem acknowledge_draws (v : Word) (s : State) : (acknowledge v s).draws = s.draws := rfl

@[simp] theorem accept_params (w : Word) (s : State) : (accept w s).params = s.params := rfl
@[simp] theorem accept_lastCmd (w : Word) (s : State) : (accept w s).lastCmd = s.lastCmd := rfl
@[simp] theorem accept_done (w : Word) (s : State) : (accept w s).done = false := rfl
@[simp] theorem accept_err (w : Word) (s : State) : (accept w s).err = s.err := rfl
@[simp] theorem accept_overrun (w : Word) (s : State) : (accept w s).overrun = s.overrun := rfl
@[simp] theorem accept_trunc (w : Word) (s : State) : (accept w s).trunc = false := rfl
@[simp] theorem accept_sentWr (w : Word) (s : State) : (accept w s).sentWr = false := rfl
@[simp] theorem accept_sentFound (w : Word) (s : State) : (accept w s).sentFound = false := rfl
@[simp] theorem accept_errcode (w : Word) (s : State) : (accept w s).errcode = s.errcode := rfl
@[simp] theorem accept_pixelLen (w : Word) (s : State) : (accept w s).pixelLen = s.pixelLen := rfl
@[simp] theorem accept_bpp (w : Word) (s : State) : (accept w s).bpp = s.bpp := rfl
@[simp] theorem accept_keyLen (w : Word) (s : State) : (accept w s).keyLen = s.keyLen := rfl
@[simp] theorem accept_payloadLen (w : Word) (s : State) : (accept w s).payloadLen = s.payloadLen := rfl
@[simp] theorem accept_capacity (w : Word) (s : State) : (accept w s).capacity = s.capacity := rfl
@[simp] theorem accept_embCount (w : Word) (s : State) : (accept w s).embCount = s.embCount := rfl
@[simp] theorem accept_outLen (w : Word) (s : State) : (accept w s).outLen = s.outLen := rfl
@[simp] theorem accept_unitsUsed (w : Word) (s : State) : (accept w s).unitsUsed = s.unitsUsed := rfl
@[simp] theorem accept_irqEn (w : Word) (s : State) : (accept w s).irqEn = s.irqEn := rfl
@[simp] theorem accept_key (w : Word) (s : State) : (accept w s).key = s.key := rfl
@[simp] theorem accept_pay (w : Word) (s : State) : (accept w s).pay = s.pay := rfl
@[simp] theorem accept_pix (w : Word) (s : State) : (accept w s).pix = s.pix := rfl
@[simp] theorem accept_perm (w : Word) (s : State) : (accept w s).perm = s.perm := rfl
@[simp] theorem accept_engine (w : Word) (s : State) : (accept w s).engine = .busy w := rfl
@[simp] theorem accept_inputs (w : Word) (s : State) : (accept w s).inputs = s.inputs := rfl
@[simp] theorem accept_response (w : Word) (s : State) : (accept w s).response = s.response := rfl
@[simp] theorem accept_draws (w : Word) (s : State) : (accept w s).draws = s.draws := rfl

@[simp] theorem finish_params (s : State) : (finish s).params = s.params := rfl
@[simp] theorem finish_lastCmd (s : State) : (finish s).lastCmd = s.lastCmd := rfl
@[simp] theorem finish_done (s : State) : (finish s).done = true := rfl
@[simp] theorem finish_err (s : State) : (finish s).err = s.err := rfl
@[simp] theorem finish_overrun (s : State) : (finish s).overrun = s.overrun := rfl
@[simp] theorem finish_trunc (s : State) : (finish s).trunc = s.trunc := rfl
@[simp] theorem finish_sentWr (s : State) : (finish s).sentWr = s.sentWr := rfl
@[simp] theorem finish_sentFound (s : State) : (finish s).sentFound = s.sentFound := rfl
@[simp] theorem finish_errcode (s : State) : (finish s).errcode = s.errcode := rfl
@[simp] theorem finish_pixelLen (s : State) : (finish s).pixelLen = s.pixelLen := rfl
@[simp] theorem finish_bpp (s : State) : (finish s).bpp = s.bpp := rfl
@[simp] theorem finish_keyLen (s : State) : (finish s).keyLen = s.keyLen := rfl
@[simp] theorem finish_payloadLen (s : State) : (finish s).payloadLen = s.payloadLen := rfl
@[simp] theorem finish_capacity (s : State) : (finish s).capacity = s.capacity := rfl
@[simp] theorem finish_embCount (s : State) : (finish s).embCount = s.embCount := rfl
@[simp] theorem finish_outLen (s : State) : (finish s).outLen = s.outLen := rfl
@[simp] theorem finish_unitsUsed (s : State) : (finish s).unitsUsed = s.unitsUsed := rfl
@[simp] theorem finish_irqEn (s : State) : (finish s).irqEn = s.irqEn := rfl
@[simp] theorem finish_key (s : State) : (finish s).key = s.key := rfl
@[simp] theorem finish_pay (s : State) : (finish s).pay = s.pay := rfl
@[simp] theorem finish_pix (s : State) : (finish s).pix = s.pix := rfl
@[simp] theorem finish_perm (s : State) : (finish s).perm = s.perm := rfl
@[simp] theorem finish_engine (s : State) : (finish s).engine = .idle := rfl
@[simp] theorem finish_inputs (s : State) : (finish s).inputs = s.inputs := rfl
@[simp] theorem finish_response (s : State) : (finish s).response = s.response := rfl
@[simp] theorem finish_draws (s : State) : (finish s).draws = s.draws := rfl

@[simp] theorem noteOverrun_params (s : State) : (noteOverrun s).params = s.params := rfl
@[simp] theorem noteOverrun_lastCmd (s : State) : (noteOverrun s).lastCmd = s.lastCmd := rfl
@[simp] theorem noteOverrun_done (s : State) : (noteOverrun s).done = s.done := rfl
@[simp] theorem noteOverrun_err (s : State) : (noteOverrun s).err = s.err := rfl
@[simp] theorem noteOverrun_overrun (s : State) : (noteOverrun s).overrun = true := rfl
@[simp] theorem noteOverrun_trunc (s : State) : (noteOverrun s).trunc = s.trunc := rfl
@[simp] theorem noteOverrun_sentWr (s : State) : (noteOverrun s).sentWr = s.sentWr := rfl
@[simp] theorem noteOverrun_sentFound (s : State) : (noteOverrun s).sentFound = s.sentFound := rfl
@[simp] theorem noteOverrun_errcode (s : State) : (noteOverrun s).errcode = s.errcode := rfl
@[simp] theorem noteOverrun_pixelLen (s : State) : (noteOverrun s).pixelLen = s.pixelLen := rfl
@[simp] theorem noteOverrun_bpp (s : State) : (noteOverrun s).bpp = s.bpp := rfl
@[simp] theorem noteOverrun_keyLen (s : State) : (noteOverrun s).keyLen = s.keyLen := rfl
@[simp] theorem noteOverrun_payloadLen (s : State) : (noteOverrun s).payloadLen = s.payloadLen := rfl
@[simp] theorem noteOverrun_capacity (s : State) : (noteOverrun s).capacity = s.capacity := rfl
@[simp] theorem noteOverrun_embCount (s : State) : (noteOverrun s).embCount = s.embCount := rfl
@[simp] theorem noteOverrun_outLen (s : State) : (noteOverrun s).outLen = s.outLen := rfl
@[simp] theorem noteOverrun_unitsUsed (s : State) : (noteOverrun s).unitsUsed = s.unitsUsed := rfl
@[simp] theorem noteOverrun_irqEn (s : State) : (noteOverrun s).irqEn = s.irqEn := rfl
@[simp] theorem noteOverrun_key (s : State) : (noteOverrun s).key = s.key := rfl
@[simp] theorem noteOverrun_pay (s : State) : (noteOverrun s).pay = s.pay := rfl
@[simp] theorem noteOverrun_pix (s : State) : (noteOverrun s).pix = s.pix := rfl
@[simp] theorem noteOverrun_perm (s : State) : (noteOverrun s).perm = s.perm := rfl
@[simp] theorem noteOverrun_engine (s : State) : (noteOverrun s).engine = s.engine := rfl
@[simp] theorem noteOverrun_inputs (s : State) : (noteOverrun s).inputs = s.inputs := rfl
@[simp] theorem noteOverrun_response (s : State) : (noteOverrun s).response = s.response := rfl
@[simp] theorem noteOverrun_draws (s : State) : (noteOverrun s).draws = s.draws := rfl

@[simp] theorem answer_params (r : Response) (s : State) : (answer r s).params = s.params := rfl
@[simp] theorem answer_lastCmd (r : Response) (s : State) : (answer r s).lastCmd = s.lastCmd := rfl
@[simp] theorem answer_done (r : Response) (s : State) : (answer r s).done = s.done := rfl
@[simp] theorem answer_err (r : Response) (s : State) : (answer r s).err = s.err := rfl
@[simp] theorem answer_overrun (r : Response) (s : State) : (answer r s).overrun = s.overrun := rfl
@[simp] theorem answer_trunc (r : Response) (s : State) : (answer r s).trunc = s.trunc := rfl
@[simp] theorem answer_sentWr (r : Response) (s : State) : (answer r s).sentWr = s.sentWr := rfl
@[simp] theorem answer_sentFound (r : Response) (s : State) : (answer r s).sentFound = s.sentFound := rfl
@[simp] theorem answer_errcode (r : Response) (s : State) : (answer r s).errcode = s.errcode := rfl
@[simp] theorem answer_pixelLen (r : Response) (s : State) : (answer r s).pixelLen = s.pixelLen := rfl
@[simp] theorem answer_bpp (r : Response) (s : State) : (answer r s).bpp = s.bpp := rfl
@[simp] theorem answer_keyLen (r : Response) (s : State) : (answer r s).keyLen = s.keyLen := rfl
@[simp] theorem answer_payloadLen (r : Response) (s : State) : (answer r s).payloadLen = s.payloadLen := rfl
@[simp] theorem answer_capacity (r : Response) (s : State) : (answer r s).capacity = s.capacity := rfl
@[simp] theorem answer_embCount (r : Response) (s : State) : (answer r s).embCount = s.embCount := rfl
@[simp] theorem answer_outLen (r : Response) (s : State) : (answer r s).outLen = s.outLen := rfl
@[simp] theorem answer_unitsUsed (r : Response) (s : State) : (answer r s).unitsUsed = s.unitsUsed := rfl
@[simp] theorem answer_irqEn (r : Response) (s : State) : (answer r s).irqEn = s.irqEn := rfl
@[simp] theorem answer_key (r : Response) (s : State) : (answer r s).key = s.key := rfl
@[simp] theorem answer_pay (r : Response) (s : State) : (answer r s).pay = s.pay := rfl
@[simp] theorem answer_pix (r : Response) (s : State) : (answer r s).pix = s.pix := rfl
@[simp] theorem answer_perm (r : Response) (s : State) : (answer r s).perm = s.perm := rfl
@[simp] theorem answer_engine (r : Response) (s : State) : (answer r s).engine = s.engine := rfl
@[simp] theorem answer_inputs (r : Response) (s : State) : (answer r s).inputs = s.inputs := rfl
@[simp] theorem answer_response (r : Response) (s : State) : (answer r s).response = some r := rfl
@[simp] theorem answer_draws (r : Response) (s : State) : (answer r s).draws = s.draws := rfl

@[simp] theorem withFetchWord_params (s : State) (nbits w : Nat) : (s.withFetchWord nbits w).params = s.params := rfl
@[simp] theorem withFetchWord_lastCmd (s : State) (nbits w : Nat) : (s.withFetchWord nbits w).lastCmd = s.lastCmd := rfl
@[simp] theorem withFetchWord_done (s : State) (nbits w : Nat) : (s.withFetchWord nbits w).done = s.done := rfl
@[simp] theorem withFetchWord_err (s : State) (nbits w : Nat) : (s.withFetchWord nbits w).err = s.err := rfl
@[simp] theorem withFetchWord_overrun (s : State) (nbits w : Nat) : (s.withFetchWord nbits w).overrun = s.overrun := rfl
@[simp] theorem withFetchWord_trunc (s : State) (nbits w : Nat) : (s.withFetchWord nbits w).trunc = s.trunc := rfl
@[simp] theorem withFetchWord_sentWr (s : State) (nbits w : Nat) : (s.withFetchWord nbits w).sentWr = s.sentWr := rfl
@[simp] theorem withFetchWord_sentFound (s : State) (nbits w : Nat) : (s.withFetchWord nbits w).sentFound = s.sentFound := rfl
@[simp] theorem withFetchWord_errcode (s : State) (nbits w : Nat) : (s.withFetchWord nbits w).errcode = s.errcode := rfl
@[simp] theorem withFetchWord_pixelLen (s : State) (nbits w : Nat) : (s.withFetchWord nbits w).pixelLen = s.pixelLen := rfl
@[simp] theorem withFetchWord_bpp (s : State) (nbits w : Nat) : (s.withFetchWord nbits w).bpp = s.bpp := rfl
@[simp] theorem withFetchWord_keyLen (s : State) (nbits w : Nat) : (s.withFetchWord nbits w).keyLen = s.keyLen := rfl
@[simp] theorem withFetchWord_payloadLen (s : State) (nbits w : Nat) : (s.withFetchWord nbits w).payloadLen = s.payloadLen := rfl
@[simp] theorem withFetchWord_capacity (s : State) (nbits w : Nat) : (s.withFetchWord nbits w).capacity = s.capacity := rfl
@[simp] theorem withFetchWord_embCount (s : State) (nbits w : Nat) : (s.withFetchWord nbits w).embCount = s.embCount := rfl
@[simp] theorem withFetchWord_outLen (s : State) (nbits w : Nat) : (s.withFetchWord nbits w).outLen = s.outLen := rfl
@[simp] theorem withFetchWord_unitsUsed (s : State) (nbits w : Nat) : (s.withFetchWord nbits w).unitsUsed = s.unitsUsed := rfl
@[simp] theorem withFetchWord_irqEn (s : State) (nbits w : Nat) : (s.withFetchWord nbits w).irqEn = s.irqEn := rfl
@[simp] theorem withFetchWord_key (s : State) (nbits w : Nat) : (s.withFetchWord nbits w).key = s.key := rfl
@[simp] theorem withFetchWord_pay (s : State) (nbits w : Nat) : (s.withFetchWord nbits w).pay = s.pay := rfl
@[simp] theorem withFetchWord_pix (s : State) (nbits w : Nat) : (s.withFetchWord nbits w).pix = s.pix := rfl
@[simp] theorem withFetchWord_perm (s : State) (nbits w : Nat) : (s.withFetchWord nbits w).perm = s.perm := rfl
@[simp] theorem withFetchWord_engine (s : State) (nbits w : Nat) : (s.withFetchWord nbits w).engine = .busy (BitVec.ofNat 32 (w % 2 ^ nbits)) := rfl
@[simp] theorem withFetchWord_inputs (s : State) (nbits w : Nat) : (s.withFetchWord nbits w).inputs = [] := rfl
@[simp] theorem withFetchWord_response (s : State) (nbits w : Nat) : (s.withFetchWord nbits w).response = s.response := rfl
@[simp] theorem withFetchWord_draws (s : State) (nbits w : Nat) : (s.withFetchWord nbits w).draws = s.draws := rfl

@[simp] theorem afterPowerOn_params (p : Params) (ts : List Turn) (d : Nat) : (State.afterPowerOn p ts d).params = p := rfl
@[simp] theorem afterPowerOn_lastCmd (p : Params) (ts : List Turn) (d : Nat) : (State.afterPowerOn p ts d).lastCmd = 0 := rfl
@[simp] theorem afterPowerOn_done (p : Params) (ts : List Turn) (d : Nat) : (State.afterPowerOn p ts d).done = false := rfl
@[simp] theorem afterPowerOn_err (p : Params) (ts : List Turn) (d : Nat) : (State.afterPowerOn p ts d).err = false := rfl
@[simp] theorem afterPowerOn_overrun (p : Params) (ts : List Turn) (d : Nat) : (State.afterPowerOn p ts d).overrun = false := rfl
@[simp] theorem afterPowerOn_trunc (p : Params) (ts : List Turn) (d : Nat) : (State.afterPowerOn p ts d).trunc = false := rfl
@[simp] theorem afterPowerOn_sentWr (p : Params) (ts : List Turn) (d : Nat) : (State.afterPowerOn p ts d).sentWr = false := rfl
@[simp] theorem afterPowerOn_sentFound (p : Params) (ts : List Turn) (d : Nat) : (State.afterPowerOn p ts d).sentFound = false := rfl
@[simp] theorem afterPowerOn_errcode (p : Params) (ts : List Turn) (d : Nat) : (State.afterPowerOn p ts d).errcode = .noError := rfl
@[simp] theorem afterPowerOn_pixelLen (p : Params) (ts : List Turn) (d : Nat) : (State.afterPowerOn p ts d).pixelLen = 0 := rfl
@[simp] theorem afterPowerOn_bpp (p : Params) (ts : List Turn) (d : Nat) : (State.afterPowerOn p ts d).bpp = 0 := rfl
@[simp] theorem afterPowerOn_keyLen (p : Params) (ts : List Turn) (d : Nat) : (State.afterPowerOn p ts d).keyLen = 0 := rfl
@[simp] theorem afterPowerOn_payloadLen (p : Params) (ts : List Turn) (d : Nat) : (State.afterPowerOn p ts d).payloadLen = 0 := rfl
@[simp] theorem afterPowerOn_capacity (p : Params) (ts : List Turn) (d : Nat) : (State.afterPowerOn p ts d).capacity = 0 := rfl
@[simp] theorem afterPowerOn_embCount (p : Params) (ts : List Turn) (d : Nat) : (State.afterPowerOn p ts d).embCount = 0 := rfl
@[simp] theorem afterPowerOn_outLen (p : Params) (ts : List Turn) (d : Nat) : (State.afterPowerOn p ts d).outLen = 0 := rfl
@[simp] theorem afterPowerOn_unitsUsed (p : Params) (ts : List Turn) (d : Nat) : (State.afterPowerOn p ts d).unitsUsed = 0 := rfl
@[simp] theorem afterPowerOn_irqEn (p : Params) (ts : List Turn) (d : Nat) : (State.afterPowerOn p ts d).irqEn = 0 := rfl
@[simp] theorem afterPowerOn_key (p : Params) (ts : List Turn) (d : Nat) : (State.afterPowerOn p ts d).key = [] := rfl
@[simp] theorem afterPowerOn_pay (p : Params) (ts : List Turn) (d : Nat) : (State.afterPowerOn p ts d).pay = [] := rfl
@[simp] theorem afterPowerOn_pix (p : Params) (ts : List Turn) (d : Nat) : (State.afterPowerOn p ts d).pix = [] := rfl
@[simp] theorem afterPowerOn_perm (p : Params) (ts : List Turn) (d : Nat) : (State.afterPowerOn p ts d).perm = [] := rfl
@[simp] theorem afterPowerOn_engine (p : Params) (ts : List Turn) (d : Nat) : (State.afterPowerOn p ts d).engine = .idle := rfl
@[simp] theorem afterPowerOn_inputs (p : Params) (ts : List Turn) (d : Nat) : (State.afterPowerOn p ts d).inputs = ts := rfl
@[simp] theorem afterPowerOn_response (p : Params) (ts : List Turn) (d : Nat) : (State.afterPowerOn p ts d).response = none := rfl
@[simp] theorem afterPowerOn_draws (p : Params) (ts : List Turn) (d : Nat) : (State.afterPowerOn p ts d).draws = d := rfl

@[simp] theorem assertReset_params (s : State) : (assertReset s).params = s.params := rfl
@[simp] theorem assertReset_lastCmd (s : State) : (assertReset s).lastCmd = 0 := rfl
@[simp] theorem assertReset_done (s : State) : (assertReset s).done = false := rfl
@[simp] theorem assertReset_err (s : State) : (assertReset s).err = false := rfl
@[simp] theorem assertReset_overrun (s : State) : (assertReset s).overrun = false := rfl
@[simp] theorem assertReset_trunc (s : State) : (assertReset s).trunc = false := rfl
@[simp] theorem assertReset_sentWr (s : State) : (assertReset s).sentWr = false := rfl
@[simp] theorem assertReset_sentFound (s : State) : (assertReset s).sentFound = false := rfl
@[simp] theorem assertReset_errcode (s : State) : (assertReset s).errcode = .noError := rfl
@[simp] theorem assertReset_pixelLen (s : State) : (assertReset s).pixelLen = 0 := rfl
@[simp] theorem assertReset_bpp (s : State) : (assertReset s).bpp = 0 := rfl
@[simp] theorem assertReset_keyLen (s : State) : (assertReset s).keyLen = 0 := rfl
@[simp] theorem assertReset_payloadLen (s : State) : (assertReset s).payloadLen = 0 := rfl
@[simp] theorem assertReset_capacity (s : State) : (assertReset s).capacity = 0 := rfl
@[simp] theorem assertReset_embCount (s : State) : (assertReset s).embCount = 0 := rfl
@[simp] theorem assertReset_outLen (s : State) : (assertReset s).outLen = 0 := rfl
@[simp] theorem assertReset_unitsUsed (s : State) : (assertReset s).unitsUsed = 0 := rfl
@[simp] theorem assertReset_irqEn (s : State) : (assertReset s).irqEn = 0 := rfl
@[simp] theorem assertReset_key (s : State) : (assertReset s).key = (abandon s).key := rfl
@[simp] theorem assertReset_pay (s : State) : (assertReset s).pay = (abandon s).pay := rfl
@[simp] theorem assertReset_pix (s : State) : (assertReset s).pix = (abandon s).pix := rfl
@[simp] theorem assertReset_perm (s : State) : (assertReset s).perm = (abandon s).perm := rfl
@[simp] theorem assertReset_engine (s : State) : (assertReset s).engine = .idle := rfl
@[simp] theorem assertReset_inputs (s : State) : (assertReset s).inputs = s.inputs := rfl
@[simp] theorem assertReset_response (s : State) : (assertReset s).response = none := rfl
@[simp] theorem assertReset_draws (s : State) : (assertReset s).draws = s.draws := rfl

/-- STATUS.BUSY is the engine's phase (R40). -/
theorem busy_eq_true_iff (s : State) : s.busy = true ↔ ∃ w, s.engine = .busy w := by
  unfold State.busy; cases s.engine <;> simp

theorem busy_eq_false_iff (s : State) : s.busy = false ↔ s.engine = .idle := by
  unfold State.busy; cases s.engine <;> simp

theorem busy_of_engine {s : State} {w : Word} (h : s.engine = .busy w) : s.busy = true := (busy_eq_true_iff s).2 ⟨w, h⟩

theorem not_busy_of_engine {s : State} (h : s.engine = .idle) : s.busy = false := (busy_eq_false_iff s).2 h

end Sys2Proof.Machine
end

