-- ==== Sys2Proof/Laws/Ops.lean ====
section
/-! SUPPORT. One lemma per shared operation that says what it can do: reading cells, reading and writing data units, the
byte order, and the two stages of a command. -/

namespace Sys2Proof.Machine

/-! ### Sequencing -/

theorem except_bind_ok {ε α β : Type} {x : Except ε α} {f : α → Except ε β} {b : β} :
    (x >>= f) = .ok b ↔ ∃ a, x = .ok a ∧ f a = .ok b := by
  cases x <;> simp [bind, Except.bind]

theorem except_bind_error {ε α β : Type} {x : Except ε α} {f : α → Except ε β} {e : ε} :
    (x >>= f) = .error e ↔ x = .error e ∨ ∃ a, x = .ok a ∧ f a = .error e := by
  cases x <;> simp [bind, Except.bind]

@[simp] theorem except_ok_bind {ε α β : Type} (a : α) (f : α → Except ε β) : ((.ok a : Except ε α) >>= f) = f a := rfl

@[simp] theorem except_error_bind {ε α β : Type} (e : ε) (f : α → Except ε β) :
    ((.error e : Except ε α) >>= f) = .error e := rfl

/-! ### Cells -/

/-- Everything a successful read of a cell can be (R79). -/
theorem readCell_ok_iff {w : Nat} {mode : UnwrittenRead} {name : RamName} {free : Nat → BitVec w}
    {cell : Option (BitVec w)} {d : Nat} {r : BitVec w × Nat} :
    readCell mode name free cell d = .ok r ↔
      cell = some r.1 ∧ r.2 = d ∨ cell = none ∧ mode = .draw ∧ r.1 = free d ∧ r.2 = d + 1 := by
  obtain ⟨v, e⟩ := r
  cases cell <;> cases mode <;> simp [readCell] <;> tauto

/-- A read of a cell faults exactly when the cell is unspecified and UNWRITTEN_READ is `fault` (R79). -/
theorem readCell_error_iff {w : Nat} {mode : UnwrittenRead} {name : RamName} {free : Nat → BitVec w}
    {cell : Option (BitVec w)} {d : Nat} {f : Fault} :
    readCell mode name free cell d = .error f ↔ cell = none ∧ mode = .fault ∧ f = .unspecifiedRead name := by
  cases cell <;> cases mode <;> simp [readCell, eq_comm]

@[simp] theorem readCell_some {w : Nat} (mode : UnwrittenRead) (name : RamName) (free : Nat → BitVec w) (v : BitVec w)
    (d : Nat) : readCell mode name free (some v) d = .ok (v, d) := by
  cases mode <;> rfl

@[simp] theorem readCell_draw {w : Nat} (name : RamName) (free : Nat → BitVec w) (d : Nat) :
    readCell .draw name free none d = .ok (free d, d + 1) := rfl

@[simp] theorem readCell_fault {w : Nat} (name : RamName) (free : Nat → BitVec w) (d : Nat) :
    readCell .fault name free none d = .error (.unspecifiedRead name) := rfl

/-- A read of a cell answers when the cell is specified or the instance draws. -/
theorem readCell_answers {w : Nat} {mode : UnwrittenRead} (name : RamName) (free : Nat → BitVec w)
    {cell : Option (BitVec w)} (d : Nat) (h : mode = .draw ∨ cell.isSome) :
    ∃ v e, readCell mode name free cell d = .ok (v, e) := by
  cases cell <;> cases mode <;> simp_all

/-- Specified bytes are read as they are, without a draw. -/
theorem readBytes_specified {mode : UnwrittenRead} {name : RamName} {m : Ram 8} {o n d : Nat}
    (h : ∀ k, k < n → (Ram.read m (o + k)).isSome) :
    readBytes mode name m o n d = .ok ((List.range n).map (fun k => (Ram.read m (o + k)).getD 0), d) := by
  induction n generalizing o with
  | zero => rfl
  | succ n ih =>
    obtain ⟨v, hv⟩ := Option.isSome_iff_exists.1 (h 0 (by omega))
    have ht : ∀ k, k < n → (Ram.read m (o + 1 + k)).isSome := fun k hk => by
      have := h (k + 1) (by omega); rwa [show o + 1 + k = o + (k + 1) by omega]
    rw [Nat.add_zero] at hv
    simp only [readBytes, hv, readCell_some, except_ok_bind, ih ht, List.range_succ_eq_map, List.map_cons,
      List.map_map, Nat.add_zero, Option.getD_some]
    congr 3
    refine List.map_congr_left fun k _ => ?_
    simp only [Function.comp, Nat.succ_eq_add_one, show o + 1 + k = o + (k + 1) by omega]

/-- Bytes read from an instance that draws are always answered. -/
theorem readBytes_draw (name : RamName) (m : Ram 8) (o n d : Nat) :
    ∃ bs e, readBytes .draw name m o n d = .ok (bs, e) := by
  induction n generalizing o d with
  | zero => exact ⟨_, _, rfl⟩
  | succ n ih =>
    obtain ⟨v, e, h⟩ := readCell_answers (mode := .draw) name Config.drawnByte (cell := Ram.read m o) d (.inl rfl)
    obtain ⟨bs, e', h'⟩ := ih (o + 1) e
    exact ⟨v :: bs, e', by simp [readBytes, h, h']⟩

/-- What the bytes are: a specified one is its value, and an unspecified one is the free value at the count of draws after
the unspecified ones before it. -/
theorem readBytes_drawn (name : RamName) (m : Ram 8) (o n d : Nat) :
    readBytes .draw name m o n d =
      .ok ((List.range n).map (fun k => (Ram.read m (o + k)).getD
          (Config.drawnByte (d + (List.range k).countP fun t => (Ram.read m (o + t)).isNone))),
        d + (List.range n).countP fun t => (Ram.read m (o + t)).isNone) := by
  induction n generalizing o d with
  | zero => rfl
  | succ n ih =>
    have hs : ∀ t, o + 1 + t = o + (t + 1) := fun t => by omega
    cases hc : Ram.read m o <;>
      simp [readBytes, readCell, hc, ih, List.range_succ_eq_map, List.countP_map, Function.comp_def, hs, Nat.add_assoc,
        Nat.add_comm 1, except_ok_bind]

/-- Under `fault`, reading bytes of which one is unspecified is a fault of that RAM. -/
theorem readBytes_fault {name : RamName} {m : Ram 8} {o n d : Nat} {k : Nat} (hk : k < n)
    (h : Ram.read m (o + k) = none) : readBytes .fault name m o n d = .error (.unspecifiedRead name) := by
  induction n generalizing o k d with
  | zero => omega
  | succ n ih =>
    cases hc : Ram.read m o with
    | none => simp [readBytes, hc]
    | some v =>
      cases k with
      | zero => simp_all
      | succ k =>
        have := ih (o := o + 1) (d := d) (k := k) (by omega) (by rwa [show o + 1 + k = o + (k + 1) by omega])
        simp [readBytes, hc, this]

/-- The number of bytes read is the number asked for. -/
theorem readBytes_length {mode : UnwrittenRead} {name : RamName} {m : Ram 8} {o n d : Nat} {bs : List Byte} {e : Nat}
    (h : readBytes mode name m o n d = .ok (bs, e)) : bs.length = n := by
  induction n generalizing o d bs e with
  | zero => simp_all [readBytes]
  | succ n ih =>
    simp only [readBytes, except_bind_ok, Prod.exists] at h
    obtain ⟨v, d', _, vs, d'', h2, h3⟩ := h
    simp only [Except.ok.injEq, Prod.mk.injEq] at h3
    rw [← h3.1, List.length_cons, ih h2]

/-! ### Bits -/

theorem bitsOfByte_length (b : Byte) : (bitsOfByte b).length = 8 := by simp [bitsOfByte]

theorem bitsOfByte_get (b : Byte) {t : Nat} (h : t < 8) : (bitsOfByte b)[t]'(by simp [bitsOfByte, h]) = b.getLsbD t := by
  simp [bitsOfByte]

/-- Bit 0 becomes the bit written and bits 7:1 are kept (R71). -/
theorem withBit0_bit (old : Byte) (b : Bool) (t : Nat) (ht : t < 8) :
    (withBit0 old b).getLsbD t = if t = 0 then b else old.getLsbD t := by
  cases b <;> revert old <;> interval_cases t <;> decide

/-- A byte put together from its own bits is the byte (R162 mirrors R142). -/
theorem byteOfBits_bitsOfByte (b : Byte) : byteOfBits (bitsOfByte b) = b := by
  revert b; decide

/-- Bit `t` of the byte is the t-th bit of the list. -/
theorem byteOfBits_bit (bs : List Bool) (t : Nat) (ht : t < 8) : (byteOfBits bs).getLsbD t = bs.getD t false := by
  induction bs generalizing t with
  | nil => simp [byteOfBits]
  | cons b bs ih =>
    cases t with
    | zero => cases b <;> simp [byteOfBits]
    | succ t =>
      have := ih t (by omega)
      have hb : ∀ x : Bool, (if x then 1#8 else 0#8).getLsbD (t + 1) = false := by
        intro x; cases x <;> simp
      rw [byteOfBits, BitVec.getLsbD_or, hb, BitVec.getLsbD_shiftLeft, List.getD_cons_succ, ← this]
      simp [ht]

/-! ### Data units -/

/-- A successful WriteUnitBit (R71): the unit's bit 0 is written, its other bits kept, no other unit touched. -/
theorem writeUnitBit_ok {mode : UnwrittenRead} {u : Nat} {b : Bool} {c c' : Carrier}
    (h : writeUnitBit mode u b c = .ok c') :
    ∃ old d, readCell mode .pixel Config.drawnByte (Ram.read c.pix u) c.draws = .ok (old, d) ∧
      c' = { pix := Ram.write c.pix u (withBit0 old b), draws := d } := by
  simp only [writeUnitBit, except_bind_ok, Prod.exists] at h
  obtain ⟨old, d, h1, h2⟩ := h
  exact ⟨old, d, h1, (Except.ok.inj h2).symm⟩

/-- Everything a successful `writeUnits` over distinct units does: unit j gets bit j in its bit 0 and keeps bits 7:1 (a
specified unit keeps its own), no other unit changes, and nothing is drawn when the units are specified. -/
theorem writeUnits_ok {mode : UnwrittenRead} {us : List Nat} {bs : List Bool} {c c' : Carrier} (hnd : us.Nodup)
    (hlen : us.length = bs.length) (h : writeUnits mode us bs c = .ok c') :
    (∀ u, u ∉ us → Ram.read c'.pix u = Ram.read c.pix u) ∧
    (∀ j (hj : j < us.length), ∃ old, (∀ v, Ram.read c.pix us[j] = some v → v = old) ∧
      Ram.read c'.pix us[j] = some (withBit0 old (bs[j]'(hlen ▸ hj)))) ∧
    ((∀ u ∈ us, (Ram.read c.pix u).isSome) → c'.draws = c.draws) := by
  induction us generalizing bs c with
  | nil =>
    obtain rfl : c = c' := Except.ok.inj h
    exact ⟨fun _ _ => rfl, fun j hj => absurd hj (Nat.not_lt_zero j), fun _ => rfl⟩
  | cons u us ih =>
    cases bs with
    | nil => simp at hlen
    | cons b bs =>
      simp only [writeUnits, except_bind_ok] at h
      obtain ⟨c1, h1, h2⟩ := h
      obtain ⟨old, d, hr, rfl⟩ := writeUnitBit_ok h1
      have hu := List.nodup_cons.1 hnd
      obtain ⟨i1, i2, i3⟩ := ih hu.2 (by simpa using hlen) h2
      refine ⟨fun v hv => ?_, fun j hj => ?_, fun hs => ?_⟩
      · simp only [List.mem_cons, not_or] at hv
        rw [i1 v hv.2]; exact Ram.read_write_other _ _ hv.1
      · cases j with
        | zero =>
          refine ⟨old, fun v hv => ?_, ?_⟩
          · simp only [List.getElem_cons_zero] at hv
            rw [hv, readCell_some] at hr
            exact (Prod.mk.inj (Except.ok.inj hr)).1
          · simp only [List.getElem_cons_zero]; rw [i1 u hu.1]; exact Ram.read_write_same ..
        | succ j =>
          have hj' : j < us.length := by simpa using hj
          obtain ⟨o, ho, ho'⟩ := i2 j hj'
          have hne : us[j] ≠ u := fun e => hu.1 (e ▸ List.getElem_mem hj')
          exact ⟨o, fun v hv => ho v ((Ram.read_write_other _ _ hne).trans hv), ho'⟩
      · have hsu := hs u (List.mem_cons_self ..)
        obtain ⟨v, hv⟩ := Option.isSome_iff_exists.1 hsu
        rw [hv, readCell_some] at hr
        rw [i3 (fun x hx => ?_), ← (Prod.mk.inj (Except.ok.inj hr)).2]
        have hne : x ≠ u := fun e => hu.1 (e ▸ hx)
        rw [show (Ram.read _ x) = _ from Ram.read_write_other _ _ hne]
        exact hs x (List.mem_cons_of_mem _ hx)

/-- `writeUnits` answers when the instance draws or the units are specified. -/
theorem writeUnits_answers {mode : UnwrittenRead} (us : List Nat) (bs : List Bool) (c : Carrier)
    (h : mode = .draw ∨ ∀ u ∈ us, (Ram.read c.pix u).isSome) : ∃ c', writeUnits mode us bs c = .ok c' := by
  induction us generalizing bs c with
  | nil => exact ⟨c, by cases bs <;> rfl⟩
  | cons u us ih =>
    cases bs with
    | nil => exact ⟨c, rfl⟩
    | cons b bs =>
      obtain ⟨v, d, hr⟩ := readCell_answers (mode := mode) .pixel Config.drawnByte (cell := Ram.read c.pix u) c.draws
        (h.imp id fun h => h u (List.mem_cons_self ..))
      obtain ⟨c', hc⟩ := ih bs { pix := Ram.write c.pix u (withBit0 v b), draws := d } (h.imp id fun h x hx => by
        show (Ram.read (Ram.write c.pix u _) x).isSome
        rw [Ram.read_write]; split_ifs
        · rfl
        · exact h x (List.mem_cons_of_mem _ hx))
      exact ⟨c', by simp [writeUnits, writeUnitBit, hr, hc]⟩

/-- Under `fault`, `writeUnits` over as many bits as units faults when a unit is unspecified. -/
theorem writeUnits_fault {us : List Nat} {bs : List Bool} {c : Carrier} (hlen : us.length = bs.length)
    (h : ∃ u ∈ us, Ram.read c.pix u = none) : writeUnits .fault us bs c = .error (.unspecifiedRead .pixel) := by
  induction us generalizing bs c with
  | nil => simp at h
  | cons u us ih =>
    cases bs with
    | nil => simp at hlen
    | cons b bs =>
      cases hc : Ram.read c.pix u with
      | none => simp [writeUnits, writeUnitBit, hc]
      | some v =>
        obtain ⟨x, hx, hn⟩ := h
        have hne : x ≠ u := fun e => by rw [e, hc] at hn; simp at hn
        have hx' : x ∈ us := by simpa [hne] using hx
        have := ih (bs := bs) (c := { pix := Ram.write c.pix u (withBit0 v b), draws := c.draws }) (by simpa using hlen)
          ⟨x, hx', by rw [show Ram.read _ x = _ from Ram.read_write_other _ _ hne]; exact hn⟩
        simp [writeUnits, writeUnitBit, hc, this]

/-- A successful ReadUnitBit leaves PIXEL RAM as it was. -/
theorem readUnits_ok {mode : UnwrittenRead} {us : List Nat} {c c' : Carrier} {bs : List Bool}
    (h : readUnits mode us c = .ok (bs, c')) : c'.pix = c.pix ∧ bs.length = us.length := by
  induction us generalizing c bs c' with
  | nil => simp_all [readUnits]
  | cons u us ih =>
    simp only [readUnits, readUnitBit, except_bind_ok, Prod.exists] at h
    obtain ⟨b, c1, ⟨v, d, h1, h1'⟩, bs', c2, h2, h3⟩ := h
    simp only [Except.ok.injEq, Prod.mk.injEq] at h1' h3
    obtain ⟨i1, i2⟩ := ih h2
    rw [← h3.1, ← h3.2, List.length_cons, List.length_cons, i2, i1, ← h1'.2]
    exact ⟨rfl, rfl⟩

/-- Specified units are read as they are, without a draw. -/
theorem readUnits_specified {mode : UnwrittenRead} {us : List Nat} {c : Carrier}
    (h : ∀ u ∈ us, (Ram.read c.pix u).isSome) :
    readUnits mode us c = .ok (us.map (fun u => ((Ram.read c.pix u).getD 0).getLsbD 0), c) := by
  induction us with
  | nil => rfl
  | cons u us ih =>
    obtain ⟨v, hv⟩ := Option.isSome_iff_exists.1 (h u (List.mem_cons_self ..))
    simp [readUnits, readUnitBit, hv, ih (fun x hx => h x (List.mem_cons_of_mem _ hx))]

theorem readUnits_draw (us : List Nat) (c : Carrier) : ∃ bs c', readUnits .draw us c = .ok (bs, c') := by
  induction us generalizing c with
  | nil => exact ⟨_, _, rfl⟩
  | cons u us ih =>
    obtain ⟨v, d, h⟩ := readCell_answers (mode := .draw) .pixel Config.drawnByte (cell := Ram.read c.pix u) c.draws (.inl rfl)
    obtain ⟨bs, c', h'⟩ := ih { c with draws := d }
    exact ⟨v.getLsbD 0 :: bs, c', by simp [readUnits, readUnitBit, h, h']⟩

theorem readUnits_fault {us : List Nat} {c : Carrier} (h : ∃ u ∈ us, Ram.read c.pix u = none) :
    readUnits .fault us c = .error (.unspecifiedRead .pixel) := by
  induction us with
  | nil => simp at h
  | cons u us ih =>
    cases hc : Ram.read c.pix u with
    | none => simp [readUnits, readUnitBit, hc]
    | some v =>
      obtain ⟨x, hx, hn⟩ := h
      have hne : x ≠ u := fun e => by rw [e, hc] at hn; simp at hn
      simp [readUnits, readUnitBit, hc, ih ⟨x, by simpa [hne] using hx, hn⟩]

/-! ### Byte order (R64, R65, R68) -/

theorem bytesOfWord_length (n : Nat) (v : Word) : (bytesOfWord n v).length = n := by
  induction n generalizing v with
  | zero => rfl
  | succ n ih => simp [bytesOfWord, ih]

/-- Byte `k` of the low bytes of a word is v[8k+7:8k] (R65). -/
theorem bytesOfWord_getElem? (n : Nat) (v : Word) (k : Nat) :
    (bytesOfWord n v)[k]? = if k < n then some ((v >>> (8 * k)).setWidth 8) else none := by
  induction n generalizing v k with
  | zero => simp [bytesOfWord]
  | succ n ih =>
    cases k with
    | zero => simp [bytesOfWord]
    | succ k =>
      simp only [bytesOfWord, List.getElem?_cons_succ, ih, Nat.succ_lt_succ_iff, ← BitVec.shiftRight_add,
        show 8 + 8 * k = 8 * (k + 1) by omega]

/-! ### The operands -/

theorem traversal_unkeyed (s : State) : traversal false s = .ok (List.range s.pixelLen.toNat, s.draws) := rfl

theorem traversal_keyed (s : State) : traversal true s = (do
    let (key, d) ← readBytes s.params.unwritten .key s.key 0 s.keyLen.toNat s.draws
    .ok (permGen s.params.permGen key s.pixelLen.toNat, d)) := rfl

/-- What a traversal permutation can be: the identity, or the generator's answer to some key bytes (R127). -/
theorem traversal_ok {keyed : Bool} {s : State} {p : List Nat} {d : Nat} (h : traversal keyed s = .ok (p, d)) :
    p = List.range s.pixelLen.toNat ∨ ∃ key, p = permGen s.params.permGen key s.pixelLen.toNat := by
  cases keyed with
  | false => exact .inl (by simp_all [traversal_unkeyed])
  | true =>
    simp only [traversal_keyed, except_bind_ok, Prod.exists] at h
    obtain ⟨key, d', _, h2⟩ := h
    exact .inr ⟨key, (Prod.mk.inj (Except.ok.inj h2)).1.symm⟩

/-- Entry `k` of the stored permutation, and the entries past it (R128). -/
theorem read_storePerm (p : List Nat) (m : Ram 32) (k : Nat) :
    Ram.read (storePerm p m) k = if k < p.length then some (BitVec.ofNat 32 (p.getD k 0)) else Ram.read m k := by
  rw [storePerm, Ram.read_writeList]
  simp only [Nat.zero_le, true_and, Nat.zero_add, List.length_map, Nat.sub_zero]
  split_ifs with h
  · simp [h]
  · rfl

/-! ### The two stages of a command -/

theorem runCommand_idle {i : Instr} {checks : List Check} {perform : State → Except Fault State} {s : State}
    (h : s.engine = .idle) : runCommand i checks perform s = .next (issue i checks s) := by
  simp [runCommand, h]

theorem runCommand_busy {i : Instr} {checks : List Check} {perform : State → Except Fault State} {s : State} {w : Word}
    (h : s.engine = .busy w) : runCommand i checks perform s = complete perform s := by
  simp [runCommand, h]

/-- Everything a command's run can answer next: the issue of it, or the completion of it. -/
theorem runCommand_next {i : Instr} {checks : List Check} {perform : State → Except Fault State} {s t : State}
    (h : runCommand i checks perform s = .next t) :
    s.engine = .idle ∧ t = issue i checks s ∨ ∃ w t', s.engine = .busy w ∧ perform s = .ok t' ∧ t = finish t' := by
  cases he : s.engine with
  | idle => rw [runCommand_idle he] at h; exact .inl ⟨rfl, by simpa using h.symm⟩
  | busy w =>
    rw [runCommand_busy he, complete] at h
    split at h
    · rename_i t' ht; exact .inr ⟨w, t', rfl, ht, by simpa using h.symm⟩
    · cases h

/-- The issue of a command (R180): a rejection with the first failing check's code, or acceptance. -/
theorem issue_cases (i : Instr) (checks : List Check) (s : State) :
    (∃ code, firstFailure checks (noteCommand (encode i) s) = some code ∧
      issue i checks s = reject code (noteCommand (encode i) s)) ∨
    (firstFailure checks (noteCommand (encode i) s) = none ∧
      issue i checks s = accept (encode i) (noteCommand (encode i) s)) := by
  unfold issue
  cases firstFailure checks (noteCommand (encode i) s) with
  | none => exact .inr ⟨rfl, rfl⟩
  | some code => exact .inl ⟨code, rfl, rfl⟩

end Sys2Proof.Machine
end

