-- ==== Sys2Proof/Laws/Engine.lean ====
section
/-! SUPPORT. What the loops of EMBED and EXTRACT can do, said once, and the shuffle's swap. -/

namespace Sys2Proof.Machine

/-! ### The shuffle -/

/-- A swap keeps the length of a sequence. -/
@[simp] theorem swapEntries_length (p : List Nat) (i j : Nat) : (swapEntries p i j).length = p.length := by
  simp [swapEntries]

/-- A swap of two entries inside a sequence only reorders it (R126). -/
theorem swapEntries_perm {p : List Nat} {i j : Nat} (hi : i < p.length) (hj : j < p.length) :
    (swapEntries p i j).Perm p := by
  unfold swapEntries
  rw [List.getD_eq_getElem _ _ hi, List.getD_eq_getElem _ _ hj]
  exact List.set_set_perm hi hj

/-! ### EMBED -/

/-- The breaking test of the payload loop: a whole byte is embedded while 8 units remain (R143). -/
theorem embedBytes_step {mode : UnwrittenRead} {pay : Ram 8} {left k : Nat} {units : List Nat} {c : Carrier}
    (h : 8 ≤ units.length) : embedBytes mode pay (left + 1) k units c = (do
      let (b, d) ← readCell mode .payload Config.drawnByte (Ram.read pay k) c.draws
      let c ← writeUnits mode (units.take 8) (bitsOfByte b) { c with draws := d }
      embedBytes mode pay left (k + 1) (units.drop 8) c) := by
  rw [embedBytes, if_neg (by omega)]

theorem embedBytes_stop {mode : UnwrittenRead} {pay : Ram 8} {left k : Nat} {units : List Nat} {c : Carrier}
    (h : units.length < 8) : embedBytes mode pay left k units c = .ok { count := k, rest := units, carrier := c } := by
  cases left with
  | zero => rfl
  | succ left => rw [embedBytes, if_pos h]

/-- How many bytes the loop embeds, and which units it leaves (R143). -/
theorem embedBytes_count {mode : UnwrittenRead} {pay : Ram 8} {left k : Nat} {units : List Nat} {c : Carrier}
    {e : Embedded} (h : embedBytes mode pay left k units c = .ok e) :
    e.count = k + min left (units.length / 8) ∧ e.rest = units.drop (8 * min left (units.length / 8)) := by
  induction left generalizing k units c with
  | zero => simp only [embedBytes, Except.ok.injEq] at h; subst h; simp
  | succ left ih =>
    by_cases hl : units.length < 8
    · rw [embedBytes_stop hl] at h
      have : units.length / 8 = 0 := by omega
      simp only [Except.ok.injEq] at h; subst h; simp [this]
    · rw [embedBytes_step (by omega)] at h
      simp only [except_bind_ok, Prod.exists] at h
      obtain ⟨b, d, _, c1, _, h3⟩ := h
      obtain ⟨i1, i2⟩ := ih h3
      have hm : min (left + 1) (units.length / 8) = min left ((units.drop 8).length / 8) + 1 := by
        rw [List.length_drop]; omega
      rw [i1, i2, hm, List.drop_drop]
      exact ⟨by omega, by congr 1; omega⟩

/-- Everything a successful payload loop over distinct units does to PIXEL RAM: bit t of byte k goes to unit 8k + t, which
keeps its bits 7:1 (a specified unit keeps its own, a specified byte gives its own bits); no other unit changes; and
nothing is drawn when all it reads is specified. -/
theorem embedBytes_ok {mode : UnwrittenRead} {pay : Ram 8} {left k : Nat} {units : List Nat} {c : Carrier} {e : Embedded}
    (hnd : units.Nodup) (h : embedBytes mode pay left k units c = .ok e) :
    (∀ u, u ∉ units.take (8 * min left (units.length / 8)) → Ram.read e.carrier.pix u = Ram.read c.pix u) ∧
    (∀ m, m < min left (units.length / 8) → ∃ b, (∀ v, Ram.read pay (k + m) = some v → v = b) ∧
      ∀ t, t < 8 → ∃ old, (∀ v, Ram.read c.pix (units.getD (8 * m + t) 0) = some v → v = old) ∧
        Ram.read e.carrier.pix (units.getD (8 * m + t) 0) = some (withBit0 old (b.getLsbD t))) ∧
    ((∀ m, m < min left (units.length / 8) → (Ram.read pay (k + m)).isSome) →
      (∀ u ∈ units.take (8 * min left (units.length / 8)), (Ram.read c.pix u).isSome) → e.carrier.draws = c.draws) := by
  induction left generalizing k units c with
  | zero =>
    simp only [embedBytes, Except.ok.injEq] at h; subst h
    exact ⟨fun _ _ => rfl, fun m hm => absurd hm (by omega), fun _ _ => rfl⟩
  | succ left ih =>
    by_cases hl : units.length < 8
    · rw [embedBytes_stop hl] at h
      have h0 : units.length / 8 = 0 := by omega
      simp only [Except.ok.injEq] at h; subst h
      rw [h0]
      exact ⟨fun _ _ => rfl, fun m hm => absurd hm (by omega), fun _ _ => rfl⟩
    · rw [embedBytes_step (by omega)] at h
      simp only [except_bind_ok, Prod.exists] at h
      obtain ⟨b, d, h1, c1, h2, h3⟩ := h
      have hm : min (left + 1) (units.length / 8) = min left ((units.drop 8).length / 8) + 1 := by
        rw [List.length_drop]; omega
      have h8 : (units.take 8).length = 8 := by rw [List.length_take]; omega
      have hnt : (units.take 8).Nodup := hnd.sublist (List.take_sublist ..)
      have hdd : (units.drop 8).Nodup := hnd.sublist (List.drop_sublist ..)
      have hdis : ∀ u, u ∈ units.take 8 → u ∉ units.drop 8 := fun u ha hb => List.disjoint_take_drop hnd (Nat.le_refl 8) ha hb
      obtain ⟨w1, w2, w3⟩ := writeUnits_ok hnt (by rw [h8, bitsOfByte_length]) h2
      obtain ⟨i1, i2, i3⟩ := ih hdd h3
      have htake : ∀ u, u ∈ units.take (8 * min (left + 1) (units.length / 8)) ↔
          u ∈ units.take 8 ∨ u ∈ (units.drop 8).take (8 * min left ((units.drop 8).length / 8)) := fun u => by
        rw [hm, show 8 * (min left ((units.drop 8).length / 8) + 1) = 8 + 8 * min left ((units.drop 8).length / 8) by omega,
          List.take_add, List.mem_append]
      refine ⟨fun u hu => ?_, fun m hm' => ?_, fun hp hx => ?_⟩
      · rw [htake, not_or] at hu
        rw [i1 u hu.2]; exact w1 u hu.1
      · cases m with
        | zero =>
          refine ⟨b, fun v hv => ?_, fun t ht => ?_⟩
          · rw [Nat.add_zero] at hv
            rw [hv, readCell_some] at h1
            exact (Prod.mk.inj (Except.ok.inj h1)).1
          · have htl : t < (units.take 8).length := by omega
            obtain ⟨old, ho, ho'⟩ := w2 t htl
            have hg : units.getD (8 * 0 + t) 0 = (units.take 8)[t] := by
              rw [Nat.mul_zero, Nat.zero_add, List.getD_eq_getElem _ _ (by omega), List.getElem_take]
            refine ⟨old, fun v hv => ho v (by rw [← hg]; exact hv), ?_⟩
            rw [hg, i1 _ (fun hmem => hdis _ (List.getElem_mem htl) (List.mem_of_mem_take hmem)), ho', bitsOfByte_get _ ht]
        | succ m =>
          obtain ⟨b', hb, hb'⟩ := i2 m (by omega)
          refine ⟨b', fun v hv => hb v (by rwa [show k + 1 + m = k + (m + 1) by omega]), fun t ht => ?_⟩
          obtain ⟨old, ho, ho'⟩ := hb' t ht
          have hg : units.getD (8 * (m + 1) + t) 0 = (units.drop 8).getD (8 * m + t) 0 := by
            simp only [List.getD_eq_getElem?_getD, List.getElem?_drop]; congr 2; omega
          rw [hg]
          have hin : (units.drop 8).getD (8 * m + t) 0 ∈ units.drop 8 := by
            have : 8 * m + t < (units.drop 8).length := by omega
            rw [List.getD_eq_getElem _ _ this]; exact List.getElem_mem this
          have hsame : Ram.read c1.pix ((units.drop 8).getD (8 * m + t) 0) = Ram.read c.pix ((units.drop 8).getD (8 * m + t) 0) :=
            w1 _ fun hmem => hdis _ hmem hin
          exact ⟨old, fun v hv => ho v (hsame.trans hv), ho'⟩
      · have hb := hp 0 (by omega)
        obtain ⟨v, hv⟩ := Option.isSome_iff_exists.1 hb
        rw [Nat.add_zero] at hv
        rw [hv, readCell_some] at h1
        have hd := (Prod.mk.inj (Except.ok.inj h1)).2
        have hc1 : c1.draws = d := w3 fun u hu => hx u ((htake u).2 (.inl hu))
        rw [i3 (fun m hm' => by rw [show k + 1 + m = k + (m + 1) by omega]; exact hp (m + 1) (by omega)) (fun u hu => ?_), hc1, hd]
        rw [w1 u fun hmem => hdis u hmem (List.mem_of_mem_take hu)]
        exact hx u ((htake u).2 (.inr hu))

/-- The payload loop answers when the instance draws, or when the payload bytes it reads and the units it writes are
specified. -/
theorem embedBytes_answers {mode : UnwrittenRead} {pay : Ram 8} {left k : Nat} {units : List Nat} {c : Carrier}
    (hnd : units.Nodup)
    (h : mode = .draw ∨ (∀ m, m < min left (units.length / 8) → (Ram.read pay (k + m)).isSome) ∧
      ∀ u ∈ units.take (8 * min left (units.length / 8)), (Ram.read c.pix u).isSome) :
    ∃ e, embedBytes mode pay left k units c = .ok e := by
  induction left generalizing k units c with
  | zero => exact ⟨_, rfl⟩
  | succ left ih =>
    by_cases hl : units.length < 8
    · exact ⟨_, embedBytes_stop hl⟩
    · have hm : min (left + 1) (units.length / 8) = min left ((units.drop 8).length / 8) + 1 := by
        rw [List.length_drop]; omega
      have h8 : (units.take 8).length = 8 := by rw [List.length_take]; omega
      have hnt : (units.take 8).Nodup := hnd.sublist (List.take_sublist ..)
      have hdd : (units.drop 8).Nodup := hnd.sublist (List.drop_sublist ..)
      rw [hm] at h
      obtain ⟨b, d, h1⟩ := readCell_answers (mode := mode) .payload Config.drawnByte (cell := Ram.read pay k) c.draws
        (h.imp id fun h => by simpa using h.1 0 (by omega))
      obtain ⟨c1, h2⟩ := writeUnits_answers (mode := mode) (units.take 8) (bitsOfByte b) { c with draws := d }
        (h.imp id fun h u hu => h.2 u (by
          rw [show 8 * (min left ((units.drop 8).length / 8) + 1) = 8 + 8 * min left ((units.drop 8).length / 8) by omega,
            List.take_add]
          exact List.mem_append_left _ hu))
      obtain ⟨w1, _, _⟩ := writeUnits_ok hnt (by rw [h8, bitsOfByte_length]) h2
      obtain ⟨e, h3⟩ := ih (k := k + 1) (c := c1) hdd (h.imp id fun h => ⟨fun m hm' => by
          rw [show k + 1 + m = k + (m + 1) by omega]; exact h.1 (m + 1) (by omega), fun u hu => by
          rw [w1 u fun hmem => List.disjoint_take_drop hnd (Nat.le_refl 8) hmem (List.mem_of_mem_take hu)]
          refine h.2 u ?_
          rw [show 8 * (min left ((units.drop 8).length / 8) + 1) = 8 + 8 * min left ((units.drop 8).length / 8) by omega,
            List.take_add]
          exact List.mem_append_right _ hu⟩)
      exact ⟨e, by rw [embedBytes_step (by omega), h1, except_ok_bind]; simp only; rw [h2, except_ok_bind, h3]⟩

/-! ### EXTRACT -/

/-- A successful extraction leaves PIXEL RAM as it was, writes only PAY[n..count−1], none of it 0xFF (R165, R170), and stops
without the sentinel exactly when no group is left (R163, R164). -/
theorem extractBytes_ok {mode : UnwrittenRead} {groups n : Nat} {units : List Nat} {pay : Ram 8} {c : Carrier}
    {x : Extracted} (h : extractBytes mode groups n units pay c = .ok x) :
    x.carrier.pix = c.pix ∧ n ≤ x.count ∧ x.count + (if x.found then 1 else 0) ≤ n + groups ∧
    (x.found = true ↔ x.count < n + groups) ∧
    (∀ k, k < n ∨ x.count ≤ k → Ram.read x.pay k = Ram.read pay k) ∧
    (∀ k, n ≤ k → k < x.count → ∃ b, b ≠ sentinel ∧ Ram.read x.pay k = some b) := by
  induction groups generalizing n units pay c with
  | zero =>
    simp only [extractBytes, Except.ok.injEq] at h; subst h
    exact ⟨rfl, Nat.le_refl _, by simp, by simp, fun _ _ => rfl, fun k h1 h2 => absurd h2 (by simp only; omega)⟩
  | succ groups ih =>
    simp only [extractBytes, except_bind_ok, Prod.exists] at h
    obtain ⟨bits, c1, h1, h2⟩ := h
    have hp := (readUnits_ok h1).1
    split_ifs at h2 with hs
    · simp only [Except.ok.injEq] at h2; subst h2
      exact ⟨hp, Nat.le_refl _, by simp, by simp, fun _ _ => rfl, fun k h1 h2 => absurd h2 (by simp only; omega)⟩
    · obtain ⟨i1, i2, i3, i6, i4, i5⟩ := ih h2
      refine ⟨i1.trans hp, by omega, by omega, by rw [i6]; omega, fun k hk => ?_, fun k h3 h4 => ?_⟩
      · rw [i4 k (by omega), Ram.read_write_other _ _ (by omega)]
      · by_cases hk : k = n
        · subst hk; exact ⟨_, hs, by rw [i4 k (by omega), Ram.read_write_same]⟩
        · exact i5 k (by omega) h4

/-- An extraction of an instance that draws always answers. -/
theorem extractBytes_draw (groups n : Nat) (units : List Nat) (pay : Ram 8) (c : Carrier) :
    ∃ x, extractBytes .draw groups n units pay c = .ok x := by
  induction groups generalizing n units pay c with
  | zero => exact ⟨_, rfl⟩
  | succ groups ih =>
    obtain ⟨bits, c1, h⟩ := readUnits_draw (units.take 8) c
    by_cases hs : byteOfBits bits = sentinel
    · exact ⟨_, by rw [extractBytes, h, except_ok_bind]; simp only; rw [if_pos hs]⟩
    · obtain ⟨x, hx⟩ := ih (n + 1) (units.drop 8) (Ram.write pay n (byteOfBits bits)) c1
      exact ⟨x, by rw [extractBytes, h, except_ok_bind]; simp only; rw [if_neg hs, hx]⟩

/-- The byte a list of 8 units of a carrier decodes to, with 0 for an unspecified unit's bit. -/
def unitsByte (pix : Ram 8) (units : List Nat) : Byte :=
  byteOfBits (units.map fun u => ((Ram.read pix u).getD 0).getLsbD 0)

/-- One round of the extraction loop over specified units (R161). -/
theorem extractBytes_step {mode : UnwrittenRead} {groups n : Nat} {units : List Nat} {pay : Ram 8} {c : Carrier}
    (h : ∀ u ∈ units.take 8, (Ram.read c.pix u).isSome) :
    extractBytes mode (groups + 1) n units pay c =
      if unitsByte c.pix (units.take 8) = sentinel then .ok { count := n, found := true, pay := pay, carrier := c }
      else extractBytes mode groups (n + 1) (units.drop 8) (Ram.write pay n (unitsByte c.pix (units.take 8))) c := by
  rw [extractBytes, readUnits_specified h, except_ok_bind]; rfl

/-! ### The canonical form -/

/-- Writing data units keeps the canonical form, and adds no cell but at those units. -/
theorem writeUnits_wf {mode : UnwrittenRead} {us : List Nat} {bs : List Bool} {c c' : Carrier}
    (h : writeUnits mode us bs c = .ok c') :
    (Ram.wf c.pix → Ram.wf c'.pix) ∧ ∀ x ∈ c'.pix, x ∈ c.pix ∨ x.1 ∈ us := by
  induction us generalizing bs c with
  | nil =>
    obtain rfl : c = c' := Except.ok.inj h
    exact ⟨id, fun x hx => .inl hx⟩
  | cons u us ih =>
    cases bs with
    | nil =>
      obtain rfl : c = c' := Except.ok.inj h
      exact ⟨id, fun x hx => .inl hx⟩
    | cons b bs =>
      simp only [writeUnits, except_bind_ok] at h
      obtain ⟨c1, h1, h2⟩ := h
      obtain ⟨old, d, _, rfl⟩ := writeUnitBit_ok h1
      obtain ⟨i1, i2⟩ := ih h2
      refine ⟨fun hw => i1 (Ram.wf_write hw _ _), fun x hx => ?_⟩
      rcases i2 x hx with hx | hx
      · rcases Ram.mem_write hx with rfl | hx
        · exact .inr (List.mem_cons_self ..)
        · exact .inl hx
      · exact .inr (List.mem_cons_of_mem _ hx)

/-- The payload loop keeps the canonical form of PIXEL RAM, and adds no cell but at its units. -/
theorem embedBytes_wf {mode : UnwrittenRead} {pay : Ram 8} {left k : Nat} {units : List Nat} {c : Carrier} {e : Embedded}
    (h : embedBytes mode pay left k units c = .ok e) :
    (Ram.wf c.pix → Ram.wf e.carrier.pix) ∧ ∀ x ∈ e.carrier.pix, x ∈ c.pix ∨ x.1 ∈ units := by
  induction left generalizing k units c with
  | zero =>
    simp only [embedBytes, Except.ok.injEq] at h; subst h
    exact ⟨id, fun x hx => .inl hx⟩
  | succ left ih =>
    by_cases hl : units.length < 8
    · rw [embedBytes_stop hl] at h
      simp only [Except.ok.injEq] at h; subst h
      exact ⟨id, fun x hx => .inl hx⟩
    · rw [embedBytes_step (by omega)] at h
      simp only [except_bind_ok, Prod.exists] at h
      obtain ⟨b, d, _, c1, h2, h3⟩ := h
      obtain ⟨w1, w2⟩ := writeUnits_wf h2
      obtain ⟨i1, i2⟩ := ih h3
      refine ⟨fun hw => i1 (w1 hw), fun x hx => ?_⟩
      rcases i2 x hx with hx | hx
      · exact (w2 x hx).imp id List.mem_of_mem_take
      · exact .inr (List.mem_of_mem_drop hx)

/-- The sentinel's writing keeps the canonical form of PIXEL RAM, and adds no cell but at its units. -/
theorem embedSentinel_wf {mode : UnwrittenRead} {units : List Nat} {c c' : Carrier} {sent : Bool}
    (h : embedSentinel mode units c = .ok (sent, c')) :
    (Ram.wf c.pix → Ram.wf c'.pix) ∧ ∀ x ∈ c'.pix, x ∈ c.pix ∨ x.1 ∈ units := by
  unfold embedSentinel at h
  split_ifs at h
  · simp only [except_bind_ok, Except.ok.injEq, Prod.mk.injEq] at h
    obtain ⟨c1, h1, _, rfl⟩ := h
    obtain ⟨w1, w2⟩ := writeUnits_wf h1
    exact ⟨w1, fun x hx => (w2 x hx).imp id List.mem_of_mem_take⟩
  · simp only [Except.ok.injEq, Prod.mk.injEq] at h
    obtain ⟨_, rfl⟩ := h
    exact ⟨id, fun x hx => .inl hx⟩

/-- The extraction keeps the canonical form of PAYLOAD RAM, and adds no cell but below its count. -/
theorem extractBytes_wf {mode : UnwrittenRead} {groups n : Nat} {units : List Nat} {pay : Ram 8} {c : Carrier}
    {x : Extracted} (h : extractBytes mode groups n units pay c = .ok x) :
    (Ram.wf pay → Ram.wf x.pay) ∧ ∀ y ∈ x.pay, y ∈ pay ∨ y.1 < x.count := by
  induction groups generalizing n units pay c with
  | zero =>
    simp only [extractBytes, Except.ok.injEq] at h; subst h
    exact ⟨id, fun y hy => .inl hy⟩
  | succ groups ih =>
    have h0 := h
    simp only [extractBytes, except_bind_ok, Prod.exists] at h
    obtain ⟨bits, c1, _, h2⟩ := h
    split_ifs at h2 with hs
    · simp only [Except.ok.injEq] at h2; subst h2
      exact ⟨id, fun y hy => .inl hy⟩
    · obtain ⟨i1, i2⟩ := ih h2
      refine ⟨fun hw => i1 (Ram.wf_write hw _ _), fun y hy => ?_⟩
      rcases i2 y hy with hy | hy
      · rcases Ram.mem_write hy with rfl | hy
        · exact .inr (Nat.lt_of_succ_le (extractBytes_ok h2).2.1)
        · exact .inl hy
      · exact .inr hy

/-- Storing a permutation keeps the canonical form of PERM RAM; a new cell is an index below its length with a value of it. -/
theorem storePerm_wf (p : List Nat) (m : Ram 32) :
    (Ram.wf m → Ram.wf (storePerm p m)) ∧
    ∀ x ∈ storePerm p m, x ∈ m ∨ (x.1 < p.length ∧ ∃ u ∈ p, x.2 = BitVec.ofNat 32 u) := by
  refine ⟨fun h => Ram.wf_writeList h _ _, fun x hx => ?_⟩
  rcases Ram.mem_writeList hx with hx | ⟨_, h2, h3⟩
  · exact .inl hx
  · obtain ⟨u, hu, he⟩ := List.mem_map.1 h3
    exact .inr ⟨by simpa using h2, u, hu, he.symm⟩

end Sys2Proof.Machine
end

