-- ==== Sys2Proof/Laws/Commands.lean ====
section
/-! SUPPORT. What the commands' own rules can do: one inversion lemma per rule, and the two stages of exec. -/

namespace Sys2Proof.Machine

/-- The rule of a command's complete step, by its operation and its K bit. -/
def performOf (i : Instr) : State → Except Fault State :=
  match i.operation with
  | .cap => performCap
  | .perm => performPerm i.keyed
  | .embed => performEmbed i.keyed
  | .extract => performExtract i.keyed

/-- While the engine is BUSY, exec is the complete step of the command. -/
theorem exec_busy (i : Instr) {s : State} {w : Word} (h : s.engine = .busy w) :
    exec i s = complete (performOf i) s := by
  cases i <;> exact runCommand_busy h

/-- While the engine is IDLE, exec issues the command with the command's own list of checks. -/
theorem exec_idle_issue (i : Instr) : ∃ checks, ∀ s : State, s.engine = .idle → exec i s = .next (issue i checks s) := by
  cases i <;> exact ⟨_, fun s h => runCommand_idle h⟩

/-- All that exec can do when it answers a next state. -/
theorem exec_next_cases {i : Instr} {s t : State} (h : exec i s = .next t) :
    (s.engine = .idle ∧ ∃ checks, t = issue i checks s) ∨
    ∃ w t', s.engine = .busy w ∧ performOf i s = .ok t' ∧ t = finish t' := by
  cases i <;> rcases runCommand_next h with ⟨h1, h2⟩ | ⟨w, t', h1, h2, h3⟩ <;>
    first | exact .inl ⟨h1, _, h2⟩ | exact .inr ⟨w, t', h1, h2, h3⟩

theorem complete_next_iff {perform : State → Except Fault State} {s t : State} :
    complete perform s = .next t ↔ ∃ t', perform s = .ok t' ∧ t = finish t' := by
  unfold complete
  cases perform s <;> simp [eq_comm]

theorem complete_fault_iff {perform : State → Except Fault State} {s : State} {f : Fault} :
    complete perform s = .fault f ↔ perform s = .error f := by
  unfold complete
  cases perform s <;> simp

theorem complete_not_refused (perform : State → Except Fault State) (s : State) (r : Refusal) :
    complete perform s ≠ .refused r := by
  unfold complete
  cases perform s <;> simp

/-- No arm of exec refuses. -/
theorem exec_not_refused (i : Instr) (s : State) (r : Refusal) : exec i s ≠ .refused r := by
  cases he : s.engine with
  | idle => obtain ⟨c, hc⟩ := exec_idle_issue i; rw [hc s he]; simp
  | busy w => rw [exec_busy i he]; exact complete_not_refused _ _ _

theorem performPerm_ok {keyed : Bool} {s t : State} (h : performPerm keyed s = .ok t) :
    ∃ p d, traversal keyed s = .ok (p, d) ∧ t = { s with perm := storePerm p s.perm, draws := d } := by
  simp only [performPerm, except_bind_ok, Prod.exists, Except.ok.injEq] at h
  obtain ⟨p, d, h1, h2⟩ := h
  exact ⟨p, d, h1, h2.symm⟩

theorem performEmbed_ok {keyed : Bool} {s t : State} (h : performEmbed keyed s = .ok t) :
    ∃ p d e sent c, traversal keyed s = .ok (p, d) ∧
      embedBytes s.params.unwritten s.pay s.payloadLen.toNat 0 p { pix := s.pix, draws := d } = .ok e ∧
      embedSentinel s.params.unwritten e.rest e.carrier = .ok (sent, c) ∧
      t = { s with
        perm := if keyed then storePerm p s.perm else s.perm
        pix := c.pix
        draws := c.draws
        embCount := BitVec.ofNat 32 e.count
        unitsUsed := BitVec.ofNat 32 (8 * e.count + (if sent then 8 else 0))
        trunc := decide (e.count < s.payloadLen.toNat)
        sentWr := sent } := by
  simp only [performEmbed, except_bind_ok, Prod.exists, Except.ok.injEq] at h
  obtain ⟨p, d, h1, e, h2, sent, c, h3, h4⟩ := h
  exact ⟨p, d, e, sent, c, h1, h2, h3, h4.symm⟩

theorem performExtract_ok {keyed : Bool} {s t : State} (h : performExtract keyed s = .ok t) :
    ∃ p d x, traversal keyed s = .ok (p, d) ∧
      extractBytes s.params.unwritten (p.length / 8) 0 p s.pay { pix := s.pix, draws := d } = .ok x ∧
      t = { s with
        perm := if keyed then storePerm p s.perm else s.perm
        pay := x.pay
        draws := x.carrier.draws
        outLen := BitVec.ofNat 32 x.count
        unitsUsed := BitVec.ofNat 32 (8 * x.count + (if x.found then 8 else 0))
        sentFound := x.found } := by
  simp only [performExtract, except_bind_ok, Prod.exists, Except.ok.injEq] at h
  obtain ⟨p, d, h1, x, h2, h4⟩ := h
  exact ⟨p, d, x, h1, h2, h4.symm⟩

/-- The state that each command's own rule can leave: every field not named is the old one. -/
theorem performOf_frame {i : Instr} {s t : State} (h : performOf i s = .ok t) :
    match i.operation with
    | .cap => t = { s with capacity := t.capacity }
    | .perm => t = { s with perm := t.perm, draws := t.draws }
    | .embed =>
      t = { s with
        perm := if i.keyed then t.perm else s.perm, pix := t.pix, draws := t.draws, embCount := t.embCount
        unitsUsed := t.unitsUsed, trunc := t.trunc, sentWr := t.sentWr }
    | .extract =>
      t = { s with
        perm := if i.keyed then t.perm else s.perm, pay := t.pay, draws := t.draws, outLen := t.outLen
        unitsUsed := t.unitsUsed, sentFound := t.sentFound } := by
  unfold performOf at h
  cases ho : i.operation <;> rw [ho] at h <;> simp only at h ⊢
  · obtain rfl := Except.ok.inj h; rfl
  · obtain ⟨p, d, _, rfl⟩ := performPerm_ok h; rfl
  · obtain ⟨p, d, e, sent, c, _, _, _, rfl⟩ := performEmbed_ok h; cases i.keyed <;> rfl
  · obtain ⟨p, d, x, _, _, rfl⟩ := performExtract_ok h; cases i.keyed <;> rfl

end Sys2Proof.Machine
end

