-- ==== Sys2Proof/Laws/PerInstr.lean ====
section
/-! SUPPORT. What holds of every command as syntax, one lemma per constructor: the fields of its word. -/

namespace Sys2Proof.Laws

/-- R91, R93, R94, R95: the word of the command has well-formed fields, with its operation's OP, its K and its S, and the
host's table entry reads the command back from the word's 32 bits. -/
def CommandWord.Statement (i : Instr) : Prop :=
  (fieldsOfWord (encode i)).wellFormed = true ∧ (fieldsOfWord (encode i)).op = opcodeOf i.operation ∧
  (fieldsOfWord (encode i)).k = i.keyed ∧ (fieldsOfWord (encode i)).s = i.strict ∧
  decodeTableWord 32 (encode i).toNat = some i

theorem CommandWord.cap : CommandWord.Statement .cap := by unfold CommandWord.Statement; decide
theorem CommandWord.perm : CommandWord.Statement .perm := by unfold CommandWord.Statement; decide
theorem CommandWord.permK : CommandWord.Statement .permK := by unfold CommandWord.Statement; decide
theorem CommandWord.embed : CommandWord.Statement .embed := by unfold CommandWord.Statement; decide
theorem CommandWord.embedK : CommandWord.Statement .embedK := by unfold CommandWord.Statement; decide
theorem CommandWord.embedS : CommandWord.Statement .embedS := by unfold CommandWord.Statement; decide
theorem CommandWord.embedKS : CommandWord.Statement .embedKS := by unfold CommandWord.Statement; decide
theorem CommandWord.extract : CommandWord.Statement .extract := by unfold CommandWord.Statement; decide
theorem CommandWord.extractK : CommandWord.Statement .extractK := by unfold CommandWord.Statement; decide

end Sys2Proof.Laws
end

