-- ==== Sys2Proof/Laws/Port.lean ====
section
/-! SUPPORT. What a host access can reach, what a reset keeps, and everything that one step can do. -/

namespace Sys2Proof.Machine

/-- R22: the offset of a register. -/
def Reg.offset : Reg → Nat
  | .id => 0x000
  | .version => 0x004
  | .cmd => 0x008
  | .status => 0x00C
  | .errcode => 0x010
  | .pixelLen => 0x014
  | .bpp => 0x018
  | .keyLen => 0x01C
  | .payloadLen => 0x020
  | .capacity => 0x024
  | .embCount => 0x028
  | .outLen => 0x02C
  | .unitsUsed => 0x030
  | .irqEn => 0x034
  | .nMax => 0x038
  | .kMax => 0x03C
  | .pMax => 0x040

theorem regAt_some {o : Nat} {r : Reg} : regAt o = some r ↔ o = r.offset := by
  constructor
  · intro h
    unfold regAt at h
    split at h <;> first | (obtain rfl := Option.some.inj h; rfl) | cases h
  · rintro rfl
    cases r <;> rfl

theorem fitsRam_iff {o n size : Nat} : fitsRam o n size = true ↔ o % n = 0 ∧ o + n ≤ size := by
  simp only [fitsRam, Bool.and_eq_true, decide_eq_true_eq]

/-- All that a legal access can touch. -/
theorem locate_some {p : Params} {a : Word} {n : AccessSize} {x : Target} (h : locate p a n = some x) :
    match x with
    | .reg r => n = .four ∧ a.toNat = r.offset
    | .key o => keyBase ≤ a.toNat ∧ o = a.toNat - keyBase ∧ o % n.bytes = 0 ∧ o + n.bytes ≤ p.kMax.toNat
    | .pay o => payBase ≤ a.toNat ∧ o = a.toNat - payBase ∧ o % n.bytes = 0 ∧ o + n.bytes ≤ p.pMax.toNat
    | .pix o => pixBase ≤ a.toNat ∧ o = a.toNat - pixBase ∧ o % n.bytes = 0 ∧ o + n.bytes ≤ p.nMax.toNat
    | .perm k => n = .four ∧ permBase + 4 * k = a.toNat ∧ k < p.nMax.toNat := by
  unfold locate at h
  simp only at h
  split_ifs at h with h1 h2 h3 h4 h5 h6 h7 h8 h9 h10
  · cases hr : regAt a.toNat with
    | none => rw [hr] at h; cases h
    | some r => rw [hr] at h; obtain rfl := Option.some.inj h; exact ⟨h2, regAt_some.1 hr⟩
  · obtain rfl := Option.some.inj h; have := fitsRam_iff.1 h4; exact ⟨h3.1, rfl, this.1, this.2⟩
  · obtain rfl := Option.some.inj h; have := fitsRam_iff.1 h6; exact ⟨h5.1, rfl, this.1, this.2⟩
  · obtain rfl := Option.some.inj h; have := fitsRam_iff.1 h8; exact ⟨h7.1, rfl, this.1, this.2⟩
  · obtain rfl := Option.some.inj h; obtain ⟨e, e'⟩ := h10; obtain ⟨f, f'⟩ := h9; exact ⟨e, by omega, by omega⟩

/-- What a host read leaves when it answers: the response, OVERRUN when it is blanked, and the count of draws, which moves
only while IDLE. -/
def ReadEffect (s t : State) : Prop :=
  (s.busy = true ∧ t = { s with response := some (.okay 0), overrun := true }) ∨
  ∃ r d, t = { s with response := some r, draws := d } ∧ (s.busy = true → d = s.draws)

theorem readRam_next {name : RamName} {m : Ram 8} {o n : Nat} {s t : State} (h : readRam name m o n s = .next t) :
    ReadEffect s t := by
  unfold readRam at h
  split_ifs at h with hb
  · exact .inl ⟨hb, (Host.Outcome.next.inj h).symm⟩
  · split at h
    · exact .inr ⟨_, _, (Host.Outcome.next.inj h).symm, fun h => absurd h hb⟩
    · cases h

theorem readPermEntry_next {k : Nat} {s t : State} (h : readPermEntry k s = .next t) : ReadEffect s t := by
  unfold readPermEntry at h
  split_ifs at h with hb
  · exact .inl ⟨hb, (Host.Outcome.next.inj h).symm⟩
  · split at h
    · exact .inr ⟨_, _, (Host.Outcome.next.inj h).symm, fun h => absurd h hb⟩
    · cases h

theorem hostRead_next {a : Word} {n : AccessSize} {s t : State} (h : hostRead a n s = .next t) : ReadEffect s t := by
  unfold hostRead at h
  split at h
  · exact .inr ⟨.error, s.draws, (Host.Outcome.next.inj h).symm, fun _ => rfl⟩
  · rename_i r _
    exact .inr ⟨.okay (readReg r s), s.draws, (Host.Outcome.next.inj h).symm, fun _ => rfl⟩
  · exact readRam_next h
  · exact readRam_next h
  · exact readRam_next h
  · exact readPermEntry_next h

/-- R221: what the abandoned command leaves of the RAMs. -/
theorem abandon_rams (s : State) :
    (abandon s).key = s.key ∧
    ((abandon s).pay = s.pay ∨ (abandon s).pay = Ram.forget s.pay (s.pixelLen.toNat / 8)) ∧
    ((abandon s).pix = s.pix ∨ (abandon s).pix = Ram.forget s.pix s.pixelLen.toNat) ∧
    ((abandon s).perm = s.perm ∨ (abandon s).perm = Ram.forget s.perm s.pixelLen.toNat) ∧
    (s.busy = false → abandon s = s) := by
  unfold abandon
  split
  · simp
  · rename_i w he
    have hb : s.busy = true := by simp [State.busy, he]
    simp only [hb]
    split
    · simp
    · rename_i i hd
      split <;> cases i.keyed <;> simp

/-- A reset keeps the RAMs' canonical form. -/
theorem assertReset_wf {s : State} (h : s.key.wf ∧ s.pay.wf ∧ s.pix.wf ∧ s.perm.wf) :
    (assertReset s).key.wf ∧ (assertReset s).pay.wf ∧ (assertReset s).pix.wf ∧ (assertReset s).perm.wf := by
  obtain ⟨h1, h2, h3, h4, -⟩ := abandon_rams s
  obtain ⟨w1, w2, w3, w4⟩ := h
  refine ⟨?_, ?_, ?_, ?_⟩
  · simp only [assertReset, h1]; exact w1
  · rcases h2 with e | e <;> simp only [assertReset, e]
    exacts [w2, Ram.wf_forget w2 _]
  · rcases h3 with e | e <;> simp only [assertReset, e]
    exacts [w3, Ram.wf_forget w3 _]
  · rcases h4 with e | e <;> simp only [assertReset, e]
    exacts [w4, Ram.wf_forget w4 _]

/-- All that one step can do when it answers a next state: one constructor per kind of turn and effect. -/
inductive StepEffect (s t : State) : Prop
  /-- No register and no RAM changes: a read, an ERROR, or the engine's turn while IDLE. -/
  | quiet (ts r d) (hd : s.busy = true → d = s.draws)
      (h : t = { s with inputs := ts, response := r, draws := d })
  /-- R67: an access blanked or discarded while BUSY. -/
  | blanked (ts r) (hb : s.busy = true) (h : t = { s with inputs := ts, response := r, overrun := true })
  /-- A write to STATUS. -/
  | acknowledged (ts r v) (hi : s.inputs = .write 0x0000000C#32 .four v :: ts)
      (h : t = { acknowledge v s with inputs := ts, response := r })
  /-- A write to IRQ_EN. -/
  | irqEnabled (ts r x) (h : t = { s with inputs := ts, response := r, irqEn := x })
  /-- A write to a length or depth register, or to a read-only register, while IDLE. -/
  | lengthWritten (ts r a b c d) (hb : s.busy = false)
      (h : t = { s with inputs := ts, response := r, pixelLen := a, bpp := b, keyLen := c, payloadLen := d })
  /-- A write in the KEY window while IDLE. -/
  | keyWritten (ts r o n addr v) (hb : s.busy = false) (hi : s.inputs = .write addr n v :: ts)
      (ha : addr.toNat = keyBase + o) (hf : o + n.bytes ≤ s.params.kMax.toNat)
      (h : t = { s with inputs := ts, response := r, key := Ram.writeList s.key o (bytesOfWord n.bytes v) })
  /-- A write in the PAYLOAD window while IDLE. -/
  | payWritten (ts r o n addr v) (hb : s.busy = false) (hi : s.inputs = .write addr n v :: ts)
      (ha : addr.toNat = payBase + o) (hf : o + n.bytes ≤ s.params.pMax.toNat)
      (h : t = { s with inputs := ts, response := r, pay := Ram.writeList s.pay o (bytesOfWord n.bytes v) })
  /-- A write in the PIXEL window while IDLE. -/
  | pixWritten (ts r o n addr v) (hb : s.busy = false) (hi : s.inputs = .write addr n v :: ts)
      (ha : addr.toNat = pixBase + o) (hf : o + n.bytes ≤ s.params.nMax.toNat)
      (h : t = { s with inputs := ts, response := r, pix := Ram.writeList s.pix o (bytesOfWord n.bytes v) })
  /-- A write to CMD, while IDLE, of a word that is no command. -/
  | illegal (ts r v) (he : s.engine = .idle) (hi : s.inputs = .write 0x00000008#32 .four v :: ts)
      (hd : ∀ i, decode v ≠ .ok i)
      (h : t = reject .illegalCmd (noteCommand v { s with inputs := ts, response := r }))
  /-- A write to CMD, while IDLE, of a command. -/
  | issued (ts r v i) (he : s.engine = .idle) (hi : s.inputs = .write 0x00000008#32 .four v :: ts)
      (hd : decode v = .ok i) (h : exec i { s with inputs := ts, response := r } = .next t)
  /-- The engine's turn while BUSY. -/
  | completed (ts w i) (he : s.engine = .busy w) (hd : decode w = .ok i)
      (hi : s.inputs = [] ∧ ts = [] ∨ s.inputs = .engine :: ts)
      (h : exec i { s with inputs := ts } = .next t)
  /-- A reset. -/
  | reset (ts) (hi : s.inputs = .rst :: ts) (h : t = assertReset { s with inputs := ts })
  /-- Power-on. -/
  | poweredOn (ts) (hi : s.inputs = .powerOn :: ts) (h : t = State.afterPowerOn s.params ts s.draws)

theorem writeUnlessBusy_cases {store : State → State} {s t : State}
    (h : (.next (writeUnlessBusy store s) : StepOutcome) = .next t) :
    (s.busy = true ∧ t = answer (.okay 0) (noteOverrun s)) ∨ (s.busy = false ∧ t = answer (.okay 0) (store s)) := by
  have h := (Host.Outcome.next.inj h).symm
  unfold writeUnlessBusy at h
  cases hb : s.busy with
  | true => rw [hb] at h; exact .inl ⟨rfl, h⟩
  | false => rw [hb] at h; exact .inr ⟨rfl, h⟩

theorem engineTurn_effect {s t : State} {ts : List Turn} (hi : s.inputs = [] ∧ ts = [] ∨ s.inputs = .engine :: ts)
    (h : engineTurn { s with inputs := ts } = .next t) : StepEffect s t := by
  unfold engineTurn at h
  split at h
  · exact .quiet ts s.response s.draws (fun _ => rfl) (Host.Outcome.next.inj h).symm
  · rename_i w he
    split at h
    · exact .completed ts w _ he ‹_› hi h
    · cases h

theorem hostWrite_effect {s t : State} {a : Word} {n : AccessSize} {v : Word} {ts : List Turn}
    (hi : s.inputs = .write a n v :: ts) (h : hostWrite a n v { s with inputs := ts } = .next t) : StepEffect s t := by
  have hn : 0 < n.bytes := by cases n <;> decide
  unfold hostWrite at h
  split at h
  · exact .quiet ts (some .error) s.draws (fun _ => rfl) (Host.Outcome.next.inj h).symm
  · exact .quiet ts (some .error) s.draws (fun _ => rfl) (Host.Outcome.next.inj h).symm
  · rename_i hl
    obtain ⟨rfl, ha⟩ := locate_some hl
    obtain rfl : a = 0x00000008#32 := BitVec.eq_of_toNat_eq ha
    split_ifs at h with hb
    · exact .blanked ts _ hb (Host.Outcome.next.inj h).symm
    · have he : s.engine = .idle := by
        cases he : s.engine with
        | idle => rfl
        | busy w => simp [State.busy, he] at hb
      unfold issueWord at h
      split at h
      · exact .issued ts _ v _ he hi ‹_› h
      · rename_i e hd
        exact .illegal ts _ v he hi (fun i h => by rw [hd] at h; cases h) (Host.Outcome.next.inj h).symm
  · rename_i r hc hl
    obtain ⟨rfl, ha⟩ := locate_some hl
    split_ifs at h with hw
    · have h := (Host.Outcome.next.inj h).symm
      cases r <;> simp only [writableWhileBusy] at hw <;> try contradiction
      · obtain rfl : a = 0x0000000C#32 := BitVec.eq_of_toNat_eq ha
        exact .acknowledged ts _ v hi h
      · exact .irqEnabled ts _ _ h
    · rcases writeUnlessBusy_cases h with ⟨hb, h⟩ | ⟨hb, h⟩
      · exact .blanked ts _ hb h
      · cases r <;> simp only [writableWhileBusy] at hw <;> try contradiction
        all_goals
          simp only [writeReg] at h
          exact .lengthWritten ts _ _ _ _ _ hb h
  · rename_i o hl
    have hl := locate_some hl
    simp only at hl
    rcases writeUnlessBusy_cases h with ⟨hb, h⟩ | ⟨hb, h⟩
    · exact .blanked ts _ hb h
    · exact .keyWritten ts _ o n a v hb hi (by omega) hl.2.2.2 h
  · rename_i o hl
    have hl := locate_some hl
    simp only at hl
    rcases writeUnlessBusy_cases h with ⟨hb, h⟩ | ⟨hb, h⟩
    · exact .blanked ts _ hb h
    · exact .payWritten ts _ o n a v hb hi (by omega) hl.2.2.2 h
  · rename_i o hl
    have hl := locate_some hl
    simp only at hl
    rcases writeUnlessBusy_cases h with ⟨hb, h⟩ | ⟨hb, h⟩
    · exact .blanked ts _ hb h
    · exact .pixWritten ts _ o n a v hb hi (by omega) hl.2.2.2 h

/-- Every step that answers a next state has one of the effects. -/
theorem step_effect {s t : State} (h : step s = .next t) : StepEffect s t := by
  unfold step nextTurn at h
  cases hi : s.inputs with
  | nil =>
    rw [hi] at h
    have e : ({ s with inputs := [] } : State) = s := by rw [← hi]
    exact engineTurn_effect (ts := []) (.inl ⟨hi, rfl⟩) (by rw [e]; exact h)
  | cons u ts =>
    rw [hi] at h
    cases u with
    | engine => exact engineTurn_effect (.inr hi) h
    | rst => exact .reset ts hi (Host.Outcome.next.inj h).symm
    | powerOn => exact .poweredOn ts hi (Host.Outcome.next.inj h).symm
    | write a n v => exact hostWrite_effect hi h
    | read a n =>
      rcases hostRead_next h with ⟨h1, h2⟩ | ⟨r, d, h2, h3⟩
      · exact .blanked ts _ h1 h2
      · exact .quiet ts (some r) d h3 h2

end Sys2Proof.Machine
end

