-- ==== Sys2Proof/Tests/Slice0.lean ====
section
/-! SUPPORT. Own tests: well-formedness, decoding, small steps with the values of spec/95_test_vectors.md, and a witness for
the hypotheses of every statement. -/

namespace Sys2Proof.Tests

open Sys2Proof Sys2Proof.Machine

/-! ### Well-formedness: an ill-formed term for each check -/

def goodFields : CommandFields := { op := 3#4, k := true, s := true, proto := 0#2, rsv := 0#24 }

theorem test_wf_accepts_embedKS : goodFields.wellFormed = true := by decide
theorem test_wf_refuses_reserved_bits : { goodFields with rsv := 1#24 }.wellFormed = false := by decide
theorem test_wf_refuses_protocol : { goodFields with proto := 1#2 }.wellFormed = false := by decide
theorem test_wf_refuses_operation : { goodFields with op := 5#4, s := false }.wellFormed = false := by decide
theorem test_wf_refuses_keyed_cap : { goodFields with op := 1#4, s := false }.wellFormed = false := by decide
theorem test_wf_refuses_strict_extract : { goodFields with op := 4#4 }.wellFormed = false := by decide

/-! ### Decoding of words written out bit by bit from R91 and R92 -/

theorem test_decode_cap : decode 0b00000000_00000000_00000000_00_0_0_0001#32 = .ok .cap := by decide
theorem test_decode_perm : decode 0b00000000_00000000_00000000_00_0_0_0010#32 = .ok .perm := by decide
theorem test_decode_permK : decode 0b00000000_00000000_00000000_00_0_1_0010#32 = .ok .permK := by decide
theorem test_decode_embed : decode 0b00000000_00000000_00000000_00_0_0_0011#32 = .ok .embed := by decide
theorem test_decode_embedK : decode 0b00000000_00000000_00000000_00_0_1_0011#32 = .ok .embedK := by decide
theorem test_decode_embedS : decode 0b00000000_00000000_00000000_00_1_0_0011#32 = .ok .embedS := by decide
theorem test_decode_embedKS : decode 0b00000000_00000000_00000000_00_1_1_0011#32 = .ok .embedKS := by decide
theorem test_decode_extract : decode 0b00000000_00000000_00000000_00_0_0_0100#32 = .ok .extract := by decide
theorem test_decode_extractK : decode 0b00000000_00000000_00000000_00_0_1_0100#32 = .ok .extractK := by decide
theorem test_decode_refuses_reserved_bits : decode 0x80000001#32 = .error .reservedBits := by decide
theorem test_decode_refuses_protocol : decode 0x00000043#32 = .error .reservedProtocol := by decide
theorem test_decode_refuses_operation : decode 0x00000005#32 = .error .reservedOperation := by decide
theorem test_decode_refuses_keyed_cap : decode 0x00000011#32 = .error .meaninglessField := by decide
theorem test_decode_refuses_strict_extract : decode 0x00000024#32 = .error .meaninglessField := by decide

/-! ### Small states -/

/-- A small instance: N_MAX = 64, K_MAX = 8, P_MAX = 8. -/
def small (unwritten : UnwrittenRead) : State :=
  State.afterPowerOn { nMax := 64, kMax := 8, pMax := 8, permGen := .default, unwritten := unwritten } [] 0

/-- The RAM that holds the bytes from cell 0 on. -/
def ram (bs : List Byte) : Ram 8 := Ram.writeList [] 0 bs

/-- A state with a key, a payload, a pixel buffer and a depth set up as R224 says. -/
def loaded (key pay pix : List Byte) (bpp : Byte) : State :=
  { small .fault with
    key := ram key, keyLen := BitVec.ofNat 32 key.length, pay := ram pay, payloadLen := BitVec.ofNat 32 pay.length
    pix := ram pix, pixelLen := BitVec.ofNat 32 pix.length, bpp := bpp }

/-- The state in which the engine holds the command. -/
def holding (i : Instr) (s : State) : State := { s with engine := .busy (commandWord i), lastCmd := commandWord i }

/-- The state with one turn to come. -/
def given (t : Turn) (s : State) : State := { s with inputs := [t] }

/-- A field of the next state, none when there is none. -/
def got {α : Type} (f : State → α) (o : StepOutcome) : Option α :=
  match o with
  | .next s => some (f s)
  | .fault _ => none
  | .refused _ => none

/-- The fault, none when there is none. -/
def faulted (o : StepOutcome) : Option Fault :=
  match o with
  | .next _ => none
  | .fault f => some f
  | .refused _ => none

/-- The next state; the state itself when there is none. -/
def next (o : StepOutcome) (s : State) : State :=
  match o with
  | .next t => t
  | .fault _ => s
  | .refused _ => s

/-- An outcome with a field is a next state. -/
theorem next_of_got {α : Type} {f : State → α} {o : StepOutcome} {a : α} (s : State) (h : got f o = some a) :
    o = .next (next o s) := by
  cases o <;> first | rfl | cases h

def zeros (n : Nat) : List Byte := List.replicate n 0#8
def ab : List Byte := [0x61#8, 0x62#8]

/-! ### One step of each command, against spec/95_test_vectors.md -/

/-- C1. -/
theorem test_cap_24 : got State.capacity (exec .cap (holding .cap { small .fault with pixelLen := 300, bpp := 24 }))
    = some 12 := by decide
/-- C10. -/
theorem test_cap_largest :
    got State.capacity (exec .cap (holding .cap { small .fault with pixelLen := 0xFFFFFFFF, bpp := 8 }))
    = some 0x1FFFFFFF := by decide
/-- PG17: KEY_LEN is not checked when K = 0. -/
theorem test_perm_ignores_key_len :
    got State.engine (exec .perm { small .fault with pixelLen := 4, keyLen := 9 }) = some (.busy 2#32) := by decide
/-- PG16. -/
theorem test_perm_identity : got State.perm (exec .perm (holding .perm { small .fault with pixelLen := 4 }))
    = some [(0, 0), (1, 1), (2, 2), (3, 3)] := by decide
/-- PG8. -/
theorem test_permK_ab : got State.perm (exec .permK (holding .permK (loaded ab [] (zeros 8) 0)))
    = some [(0, 5), (1, 3), (2, 2), (3, 0), (4, 6), (5, 7), (6, 1), (7, 4)] := by decide
/-- PG5: the empty key is not the identity. -/
theorem test_permK_empty_key : got State.perm (exec .permK (holding .permK (loaded [] [] (zeros 8) 0)))
    = some [(0, 2), (1, 0), (2, 4), (3, 5), (4, 3), (5, 1), (6, 6), (7, 7)] := by decide
/-- E7: two bytes into 20 units, no room for the sentinel. -/
theorem test_embed_omits_sentinel :
    got (fun t => (t.pix, t.embCount, t.unitsUsed, statusWord t))
      (exec .embed (holding .embed (loaded [] [0x5A, 0xA5] (zeros 20) 8)))
    = some (ram [0, 1, 0, 1, 1, 0, 1, 0, 1, 0, 1, 0, 0, 1, 0, 1, 0, 0, 0, 0], 2, 16, 0x02) := by decide
/-- E3: truncation. -/
theorem test_embed_truncates :
    got (fun t => (t.embCount, t.unitsUsed, statusWord t))
      (exec .embed (holding .embed (loaded [] [1, 2, 3] (zeros 16) 8))) = some (2, 16, 0x12) := by decide
/-- E12: bits 7:1 are kept and the units follow the key's permutation. -/
theorem test_embedK_all_ones :
    got (fun t => (t.pix, statusWord t))
      (exec .embedK (holding .embedK (loaded [0x4B] [0] (List.replicate 16 0xFF) 8)))
    = some (ram [0xFE, 0xFF, 0xFE, 0xFE, 0xFF, 0xFE, 0xFE, 0xFF, 0xFF, 0xFF, 0xFE, 0xFE, 0xFF, 0xFF, 0xFF, 0xFE], 0x22) :=
  by decide
/-- E4: strict mode rejects. -/
theorem test_embedS_rejected :
    got (fun t => (t.errcode, statusWord t, t.lastCmd)) (exec .embedS (loaded [] [1, 2, 3] (zeros 16) 8))
    = some (.capacityExceeded, 0x04, 0x23) := by decide
/-- E5: the exact fill is accepted and completes without the sentinel. -/
theorem test_embedS_exact_fill :
    got (fun t => (t.pix, statusWord t)) (exec .embedS (holding .embedS (loaded [] [1, 2] (zeros 16) 8)))
    = some (ram [1, 0, 0, 0, 0, 0, 0, 0, 0, 1, 0, 0, 0, 0, 0, 0], 0x02) := by decide
/-- E18 through the strict keyed word. -/
theorem test_embedKS_key :
    got State.pix (exec .embedKS (holding .embedKS (loaded [0x6B, 0x65, 0x79] [0x5A, 0xA5] (zeros 16) 8)))
    = some (ram [1, 1, 1, 0, 1, 1, 1, 1, 0, 0, 0, 0, 0, 0, 0, 1]) := by decide
/-- X6: the sentinel ends the output; byte 1 of PAYLOAD RAM stays. -/
theorem test_extract_stops_at_sentinel :
    got (fun t => (t.pay, t.outLen, t.unitsUsed, statusWord t)) (exec .extract (holding .extract
      (loaded [] [0x77, 0x88] [0, 1, 0, 1, 1, 0, 1, 0, 1, 1, 1, 1, 1, 1, 1, 1, 0, 0, 0, 0] 8)))
    = some (ram [0x5A, 0x88], 1, 16, 0x42) := by decide
/-- X13: 17 units, the last one unread. -/
theorem test_extract_partial_group :
    got (fun t => (t.outLen, t.unitsUsed, statusWord t)) (exec .extract (holding .extract
      (loaded [] [] (List.replicate 17 0xFE) 8))) = some (2, 16, 0x02) := by decide
/-- X15. -/
theorem test_extractK_key :
    got (fun t => (t.pay, t.outLen, statusWord t)) (exec .extractK (holding .extractK
      (loaded [0x6B, 0x65, 0x79] [] [1, 1, 1, 0, 1, 1, 1, 1, 0, 0, 0, 0, 0, 0, 0, 1] 8)))
    = some (ram [0x5A, 0xA5], 2, 0x02) := by decide
/-- R-4: an unspecified data unit faults under `fault`. -/
theorem test_extract_unspecified :
    faulted (exec .extract (holding .extract { small .fault with pixelLen := 8, bpp := 8 }))
    = some (.unspecifiedRead .pixel) := by decide

/-! ### The step -/

/-- The command of a table row runs as the first one after reset. -/
theorem test_fetch_perm :
    got (fun t => (t.engine, t.done)) (step (State.reset.withFetchWord 32 0x12)) = some (.idle, true) := by decide
/-- Byte order, 1 of the list in 95_test_vectors.md. -/
theorem test_write_little_endian :
    got State.pix (step (given (.write 0x10000000#32 .four 0x44332211#32) (small .fault)))
    = some (ram [0x11, 0x22, 0x33, 0x44]) := by decide
/-- Byte order, 2 of the list. -/
theorem test_read_little_endian :
    got State.response (step (given (.read 0x10000002#32 .two) (loaded [] [] [0x11, 0x22, 0x33, 0x44] 8)))
    = some (some (.okay 0x00004433#32)) := by decide
/-- BE4: PERM is not written. -/
theorem test_perm_write_is_error :
    got State.response (step (given (.write 0x40000000#32 .four 0#32) (small .fault))) = some (some .error) := by decide
/-- V6: a CMD write while BUSY leaves LAST_CMD. -/
theorem test_busy_cmd_discarded :
    got (fun t => (t.lastCmd, t.overrun)) (step (given (.write 8#32 .four 1#32) (holding .perm (small .fault))))
    = some (2, true) := by decide
/-- R-3. -/
theorem test_reset_forgets_perm :
    got State.perm (step (given .rst (holding .permK { small .fault with pixelLen := 1, perm := [(0, 7), (1, 9)] })))
    = some [(1, 9)] := by decide

/-! ### Witnesses: concrete states that meet the hypotheses of the statements -/

/-- An embedding state: two payload bytes into 24 units at depth 8, with the key "ab". -/
def embedding : State := loaded ab [0x48, 0x69] (zeros 24) 8
/-- The same with no sentinel to come: two bytes into 16 units. -/
def exactFill : State := loaded ab [1, 2] (zeros 16) 8
/-- Fewer than 8 units. -/
def tooSmall : State := loaded ab [1] (zeros 7) 8
/-- A payload byte 0xFF after another. -/
def sentinelInside : State := loaded ab [0x41, 0xFF] (zeros 24) 8
/-- An extracting state whose second group is the sentinel. -/
def extracting : State := loaded ab [0x77, 0x88] (zeros 8 ++ List.replicate 8 1#8 ++ zeros 8) 8

theorem witness_MisusedFieldsDecodeToNothing :
    (0x00000101#32).extractLsb' 8 24 ≠ 0#24 ∧ (0x00000041#32).extractLsb' 6 2 ≠ 0#2 ∧
    ((0x00000011#32).extractLsb' 0 4 = 0x1#4 ∧ (0x00000011#32).getLsbD 4 = true) ∧
    ((0x00000021#32).extractLsb' 0 4 = 0x1#4 ∧ (0x00000021#32).getLsbD 5 = true) ∧
    ((0x00000022#32).extractLsb' 0 4 = 0x2#4 ∧ (0x00000022#32).getLsbD 5 = true) ∧
    ((0x00000024#32).extractLsb' 0 4 = 0x4#4 ∧ (0x00000024#32).getLsbD 5 = true) := by decide
theorem witness_StepCompletesTheHeldCommand :
    (holding .embedK embedding).engine = .busy 0x13#32 ∧ decode 0x13#32 = .ok .embedK ∧
    (holding .embedK embedding).inputs = [] ∧ (given .engine (holding .embedK embedding)).inputs = [.engine] := by decide
theorem witness_StepIssuesTheWrittenCommand :
    (given (.write 8#32 .four 0x13#32) embedding).engine = .idle ∧ decode 0x13#32 = .ok .embedK ∧
    (given (.write 8#32 .four 0x13#32) embedding).inputs = [.write 0x00000008#32 .four 0x13#32] := by decide
theorem witness_IdleEngineHasNoStep :
    embedding.engine = .idle ∧ embedding.inputs = [] ∧ (given .engine embedding).inputs = [.engine] := by decide
theorem witness_IllegalWordIsRejected :
    (given (.write 8#32 .four 0x24#32) embedding).engine = .idle ∧ (∀ i, 0x24#32 ≠ commandWord i) ∧
    (given (.write 8#32 .four 0x24#32) embedding).inputs = [.write 0x00000008#32 .four 0x24#32] :=
  ⟨by decide, by intro i; cases i <;> decide, by decide⟩
theorem witness_RejectionReportsFirstFailingRow :
    embedding.engine = .idle ∧ (∀ i, decode 0#32 ≠ .ok i) ∧
    firstFailingRow .perm { embedding with pixelLen := 65 } = some .lengthRange ∧
    firstFailingRow .permK { embedding with keyLen := 9 } = some .lengthRange ∧
    firstFailingRow .embed { embedding with payloadLen := 9 } = some .lengthRange ∧
    firstFailingRow .extract { embedding with bpp := 16 } = some .unsupportedFormat ∧
    firstFailingRow .embedS { embedding with payloadLen := 4 } = some .capacityExceeded :=
  ⟨by decide, by intro i; cases i <;> decide, by decide, by decide, by decide, by decide, by decide⟩
theorem witness_AcceptanceHoldsTheCommand :
    embedding.engine = .idle ∧ Accepted .embedKS { embedding with pixelLen := 64, keyLen := 8, payloadLen := 8 } ∧
    Accepted .cap { embedding with pixelLen := 65, bpp := 16 } := by decide
theorem witness_CapCompletes : (holding .cap embedding).engine = .busy 1#32 := by decide
theorem witness_CapacityIsBounded : 0xFFFFFFFF < 2 ^ 32 := by decide
theorem witness_CapacityIsMonotone : 23 ≤ 24 ∧ 16#8 ≠ 8#8 ∧ 16#8 ≠ 24#8 := by decide
theorem witness_XorshiftKeepsNonzero : 0x811C9DC5#32 ≠ 0#32 := by decide
theorem witness_DefaultGeneratorFollowsThePseudocode :
    0x00002001#32 = 1#32 ^^^ ((1#32 <<< 13) &&& 0xFFFFFFFF#32) ∧ 0x00002001#32 = 0x00002001#32 ^^^ (0x00002001#32 >>> 17) ∧
    0 < [5, 6, 7].length ∧ 2 < [5, 6, 7].length ∧ 1 ≠ 0 ∧ 1 ≠ 2 := by decide
theorem witness_PermCompletes : (holding .perm embedding).engine = .busy 2#32 := by decide
theorem witness_PermKeyedCompletes :
    (holding .permK embedding).engine = .busy 0x12#32 ∧ KeySpecified (holding .permK embedding) := by decide
theorem witness_UnkeyedCommandsIgnoreTheKey :
    Instr.embed ∈ [Instr.embed, .embedS, .extract] ∧ (holding .embed embedding).engine = .busy 3#32 ∧
    exec .embed (holding .embed embedding) = .next (next (exec .embed (holding .embed embedding)) embedding) :=
  ⟨by decide, by decide, next_of_got (f := State.done) (a := true) _ (by decide)⟩
theorem witness_EmbedCompletes :
    (holding .embedK embedding).engine = .busy 0x13#32 ∧ Readable .embed (holding .embed embedding) ∧
    Readable .embedK (holding .embedK embedding) ∧ Readable .embedS (holding .embedS exactFill) ∧
    Readable .embedKS (holding .embedKS tooSmall) := by decide
theorem witness_EmbedWritesPayloadBits :
    Readable .embedK (holding .embedK embedding) ∧ 1 < embedCount (holding .embedK embedding) ∧
    embedSentinelFits (holding .embedK embedding) = true ∧
    24 ∉ (pathOf true (holding .embedK embedding)).take (embedUnits (holding .embedK embedding)) := by decide
theorem witness_EmbedChangesOnlyBitZero :
    (holding .embedK embedding).engine = .busy 0x13#32 ∧
    exec .embedK (holding .embedK embedding) = .next (next (exec .embedK (holding .embedK embedding)) embedding) ∧
    Ram.read (holding .embedK embedding).pix 23 = some 0#8 ∧ (holding .embedK embedding).pixelLen.toNat ≤ 24 :=
  ⟨by decide, next_of_got (f := State.done) (a := true) _ (by decide), by decide, by decide⟩
theorem witness_StrictEmbedNeverTruncates :
    (holding .embedKS exactFill).engine = .busy 0x33#32 ∧ Accepted .embedKS (holding .embedKS exactFill) ∧
    Readable .embedKS (holding .embedKS exactFill) := by decide
theorem witness_CapacityGuaranteesTheFit_exact :
    (holding .embed exactFill).engine = .busy 3#32 ∧
    exec .embed (holding .embed exactFill) = .next (next (exec .embed (holding .embed exactFill)) exactFill) ∧
    exactFill.bpp = 8#8 ∧ exactFill.payloadLen.toNat = capacityOf exactFill.pixelLen.toNat exactFill.bpp :=
  ⟨by decide, next_of_got (f := State.done) (a := true) _ (by decide), by decide, by decide⟩
theorem witness_CapacityGuaranteesTheFit_room :
    exec .embed (holding .embed embedding) = .next (next (exec .embed (holding .embed embedding)) embedding) ∧
    embedding.payloadLen.toNat + 1 = capacityOf embedding.pixelLen.toNat embedding.bpp :=
  ⟨next_of_got (f := State.done) (a := true) _ (by decide), by decide⟩
theorem witness_ExtractCompletes :
    (holding .extractK extracting).engine = .busy 0x14#32 ∧ Readable .extract (holding .extract extracting) ∧
    Readable .extractK (holding .extractK extracting) ∧ Readable .extract (holding .extract tooSmall) := by decide
theorem witness_ExtractOutputsTheDecodedBytes :
    Readable .extract (holding .extract extracting) ∧
    got (fun t => (t.outLen, t.sentFound)) (exec .extract (holding .extract extracting)) = some (1, true) := by decide
theorem witness_ExtractIsIdempotent :
    (holding .extract extracting).engine = .busy 4#32 ∧ Readable .extract (holding .extract extracting) ∧
    exec .extract (holding .extract extracting) = .next (next (exec .extract (holding .extract extracting)) extracting) ∧
    (next (exec .extract (holding .extract extracting)) extracting).pix = (holding .extract extracting).pix :=
  ⟨by decide, by decide, next_of_got (f := State.done) (a := true) _ (by decide), by decide⟩

/-- The state after an EMBED, in which the engine holds an EXTRACT. -/
def thenExtract (e x : Instr) (s : State) : State := holding x (next (exec e (holding e s)) s)

theorem witness_EmbedThenExtractReturnsThePayload :
    (∀ k, k < embedCount (holding .embedK embedding) →
      ∃ b, Ram.read (holding .embedK embedding).pay k = some b ∧ b ≠ 0xFF#8) ∧
    KeySpecified (holding .embedK embedding) ∧
    exec .embedK (holding .embedK embedding) = .next (next (exec .embedK (holding .embedK embedding)) embedding) ∧
    (thenExtract .embedK .extractK embedding).engine = .busy 0x14#32 ∧
    (thenExtract .embedK .extractK embedding).params.permGen = embedding.params.permGen ∧
    (thenExtract .embedK .extractK embedding).pixelLen = embedding.pixelLen ∧
    (thenExtract .embedK .extractK embedding).keyLen = embedding.keyLen ∧
    (thenExtract .embedK .extractK embedding).key = embedding.key ∧
    (thenExtract .embedK .extractK embedding).pix = (next (exec .embedK (holding .embedK embedding)) embedding).pix ∧
    got (fun t => (t.outLen, t.sentFound)) (exec .extractK (thenExtract .embedK .extractK embedding)) = some (2, true) := by
  refine ⟨fun k hk => ?_, by decide, next_of_got (f := State.done) (a := true) _ (by decide), by decide, by decide,
    by decide, by decide, by decide, rfl, by decide⟩
  have h : k < 2 := hk
  interval_cases k
  · exact ⟨0x48#8, by decide, by decide⟩
  · exact ⟨0x69#8, by decide, by decide⟩
theorem witness_PayloadSentinelStopsExtraction :
    1 < embedCount (holding .embed sentinelInside) ∧
    (∀ k, k < 1 → ∃ b, Ram.read (holding .embed sentinelInside).pay k = some b ∧ b ≠ 0xFF#8) ∧
    Ram.read (holding .embed sentinelInside).pay 1 = some 0xFF#8 ∧
    exec .embed (holding .embed sentinelInside)
      = .next (next (exec .embed (holding .embed sentinelInside)) sentinelInside) ∧
    (thenExtract .embed .extract sentinelInside).engine = .busy 4#32 ∧
    (thenExtract .embed .extract sentinelInside).params.permGen = sentinelInside.params.permGen ∧
    (thenExtract .embed .extract sentinelInside).pixelLen = sentinelInside.pixelLen ∧
    (thenExtract .embed .extract sentinelInside).pix
      = (next (exec .embed (holding .embed sentinelInside)) sentinelInside).pix ∧
    got (fun t => (t.outLen, t.sentFound)) (exec .extract (thenExtract .embed .extract sentinelInside)) = some (1, true) := by
  refine ⟨by decide, fun k hk => ?_, by decide, next_of_got (f := State.done) (a := true) _ (by decide), by decide,
    by decide, by decide, rfl, by decide⟩
  obtain rfl : k = 0 := by omega
  exact ⟨0x41#8, by decide, by decide⟩
theorem witness_DrawingInstanceAlwaysCompletes :
    (holding .embedK { small .draw with pixelLen := 8, keyLen := 1, bpp := 8 }).engine = .busy 0x13#32 ∧
    (holding .embedK { small .draw with pixelLen := 8, keyLen := 1, bpp := 8 }).params.unwritten = .draw ∧
    (holding .extract { small .draw with pixelLen := 17, bpp := 8 }).engine = .busy 4#32 ∧
    (holding .extract { small .draw with pixelLen := 17, bpp := 8 }).params.unwritten = .draw := by decide
theorem witness_CompletionFaultsExactlyOnUnspecifiedCells :
    embedding.params.unwritten = .fault ∧ Readable .embedK (holding .embedK embedding) ∧
    ¬Readable .embedK (holding .embedK { embedding with key := [] }) ∧
    ¬Readable .embed (holding .embed { embedding with pay := ram [1] }) ∧
    ¬Readable .extract (holding .extract { extracting with pix := ram (zeros 15) }) := by decide
/-- A 2-byte KEY read, a 4-byte PAYLOAD read and a 1-byte PIXEL read at the ends of the RAMs, each with an unspecified byte. -/
theorem witness_HostReadOfUnspecifiedByte :
    (small .fault).params.Legal ∧ (small .draw).params.Legal ∧ (small .draw).engine = .idle ∧
    (small .draw).params.unwritten = .draw ∧ (small .fault).params.unwritten = .fault ∧
    (6 % AccessSize.two.bytes = 0 ∧ 6 + AccessSize.two.bytes ≤ (small .draw).params.kMax.toNat ∧
      (given (.read 0x00100006#32 .two) (small .draw)).inputs = [.read (BitVec.ofNat 32 (0x00100000 + 6)) .two] ∧
      ¬Specified [(6, 1#8)] 7) ∧
    (4 % AccessSize.four.bytes = 0 ∧ 4 + AccessSize.four.bytes ≤ (small .draw).params.pMax.toNat ∧
      (given (.read 0x08000004#32 .four) (small .draw)).inputs = [.read (BitVec.ofNat 32 (0x08000000 + 4)) .four] ∧
      ¬Specified (small .draw).pay 4) ∧
    (63 % AccessSize.one.bytes = 0 ∧ 63 + AccessSize.one.bytes ≤ (small .draw).params.nMax.toNat ∧
      (given (.read 0x1000003F#32 .one) (small .draw)).inputs = [.read (BitVec.ofNat 32 (0x10000000 + 63)) .one] ∧
      ¬Specified (small .draw).pix 63) := by decide
theorem witness_HostReadOfUnspecifiedEntry :
    (small .draw).params.Legal ∧ (small .draw).engine = .idle ∧ 63 < (small .draw).params.nMax.toNat ∧
    (given (.read 0x400000FC#32 .four) (small .draw)).inputs = [.read (BitVec.ofNat 32 (0x40000000 + 4 * 63)) .four] ∧
    ¬Specified (small .draw).perm 63 ∧ (small .draw).params.unwritten = .draw ∧
    (small .fault).params.unwritten = .fault := by decide

/-- A BUSY state, not the one after reset, that meets the invariant. -/
theorem witness_StepKeepsTheInvariant :
    Invariant (holding .embed embedding) ∧
    step (holding .embed embedding) = .next (next (step (holding .embed embedding)) embedding) := by
  refine ⟨⟨by decide, by decide, by decide, by decide, by decide, by decide, by decide, by decide, by decide, ?_⟩,
    next_of_got (f := State.done) (a := true) _ (by decide)⟩
  intro w hw
  obtain rfl : 3#32 = w := Engine.busy.inj hw
  exact ⟨by decide, by decide, by decide, by decide, by decide, .embed, by decide, by decide⟩
theorem witness_StepKeepsTheParameters :
    step (given .rst (holding .embed embedding)) = .next (next (step (given .rst (holding .embed embedding))) embedding) :=
  next_of_got (f := State.done) (a := false) _ (by decide)

theorem writes_register (offset : Nat) (v : Word) (s : State) :
    WritesRegister (given (.write (BitVec.ofNat 32 offset) .four v) s) offset v := ⟨[], rfl⟩
theorem resets (s : State) : Resets (given .rst s) := ⟨[], rfl⟩
theorem powers_on (s : State) : PowersOn (given .powerOn s) := ⟨[], rfl⟩
theorem engine_completes (i : Instr) (s : State) : EngineCompletes (given .engine (holding i s)) i :=
  ⟨commandWord i, rfl, by cases i <;> decide, .inr ⟨[], rfl⟩⟩

theorem witness_InputsAreFrozenWhileBusy :
    (holding .embed embedding).busy = true ∧
    HostAccesses (given (.write 0x10000000#32 .one 1#32) (holding .embed embedding)) true 0x10000000#32 .one ∧
    HostAccesses (given (.read 0x10000000#32 .one) (holding .embed embedding)) false 0x10000000#32 .one ∧
    got State.overrun (step (given (.read 0x10000000#32 .one) (holding .embed embedding))) = some true :=
  ⟨by decide, ⟨1#32, [], rfl⟩, ⟨[], rfl⟩, by decide⟩
theorem not_resets_on_completion (i : Instr) (s : State) :
    ¬Resets (given .engine (holding i s)) ∧ ¬PowersOn (given .engine (holding i s)) := by
  constructor <;> rintro ⟨ts, h⟩ <;> cases h
theorem witness_ResultRegistersHaveTheirWriters :
    got State.capacity (step (given .engine (holding .cap embedding))) = some 3 ∧ embedding.capacity = 0 ∧
    got (fun t => (t.embCount, t.unitsUsed)) (step (given .engine (holding .embedKS embedding))) = some (2, 24) ∧
    embedding.embCount = 0 ∧ embedding.unitsUsed = 0 ∧
    got (fun t => (t.outLen, t.unitsUsed)) (step (given .engine (holding .extract extracting))) = some (1, 16) ∧
    extracting.outLen = 0 := by decide
theorem witness_RamsHaveTheirWriters :
    got State.key (step (given (.write 0x00100007#32 .one 5#32) (small .fault))) = some [(7, 5)] ∧
    got State.pay (step (given (.write 0x08000007#32 .one 5#32) (small .fault))) = some [(7, 5)] ∧
    got State.pix (step (given (.write 0x1000003F#32 .one 5#32) (small .fault))) = some [(63, 5)] ∧
    got State.pay (step (given .engine (holding .extract extracting))) = some (ram [0, 0x88]) ∧
    got State.pix (step (given .rst (holding .embed embedding))) = some [] ∧
    got State.pay (step (given .rst (holding .extract { extracting with pixelLen := 8 }))) = some [(1, 0x88)] ∧
    got (fun t => t.perm.length) (step (given .engine (holding .extractK extracting))) = some 24 := by decide
theorem witness_OverrunIsSticky :
    got State.overrun (step (given (.write 12#32 .four 8#32) { embedding with overrun := true })) = some false ∧
    got State.overrun (step (given .rst { embedding with overrun := true })) = some false ∧
    got State.overrun (step (given .powerOn { embedding with overrun := true })) = some false := by decide
theorem witness_ErrIsSticky :
    got State.err (step (given (.write 12#32 .four 4#32) { embedding with err := true, errcode := .illegalCmd }))
      = some false ∧
    got State.err (step (given .rst { embedding with err := true, errcode := .illegalCmd })) = some false ∧
    embedding.err = false ∧ got State.err (step (given (.write 8#32 .four 0#32) embedding)) = some true := by decide
theorem witness_BusyAndDoneHaveTheirEvents :
    embedding.busy = false ∧ got State.busy (step (given (.write 8#32 .four 0x33#32) embedding)) = some true ∧
    (holding .embedKS embedding).busy = true ∧
    got (fun t => (t.busy, t.done)) (step (given .engine (holding .embedKS embedding))) = some (false, true) ∧
    got State.busy (step (given .rst (holding .embedKS embedding))) = some false := by decide

/-- Legal accesses at the ends of the regions of an instance with N_MAX = 64, K_MAX = 8, P_MAX = 8. -/
theorem witness_ExactlyIllegalAccessesGetError_legal :
    (small .fault).params.Legal ∧ LegalAccess (small .fault).params true 0x00000040#32 .four ∧
    LegalAccess (small .fault).params true 0x00100006#32 .two ∧
    LegalAccess (small .fault).params false 0x08000004#32 .four ∧
    LegalAccess (small .fault).params true 0x1000003F#32 .one ∧
    LegalAccess (small .fault).params false 0x400000FC#32 .four ∧
    HostAccesses (given (.read 0x400000FC#32 .four) (small .fault)) false 0x400000FC#32 .four :=
  ⟨by decide, .inl (by decide), .inr (.inl ⟨6, by decide⟩), .inr (.inr (.inl ⟨4, by decide⟩)),
    .inr (.inr (.inr (.inl ⟨63, by decide⟩))), .inr (.inr (.inr (.inr ⟨252, by decide⟩))), ⟨[], rfl⟩⟩
theorem witness_ExactlyIllegalAccessesGetError_illegal :
    ¬LegalAccess (small .fault).params false 0x00000044#32 .four ∧
    ¬LegalAccess (small .fault).params true 0x00100008#32 .one ∧
    ¬LegalAccess (small .fault).params true 0x400000FC#32 .four := by
  unfold LegalAccess
  refine ⟨?_, ?_, ?_⟩ <;> rintro (h | ⟨o, h⟩ | ⟨o, h⟩ | ⟨o, h⟩ | ⟨o, h⟩) <;>
    simp [small, State.afterPowerOn, AccessSize.bytes] at h <;> omega
theorem witness_RegisterReadsReturnTheRegisters :
    ((0x040, (small .fault).params.pMax) : Nat × Word) = (0x040, 8#32) ∧
    (given (.read 0x00000040#32 .four) (small .fault)).inputs = [.read (BitVec.ofNat 32 0x040) .four] ∧
    got State.response (step (given (.read 0x00000000#32 .four) (small .fault))) = some (some (.okay 0x4B4C5045#32)) := by
  decide
theorem witness_StatusWriteClearsWhatItNames :
    (given (.write 0x0000000C#32 .four 0xE#32) embedding).inputs = [.write 0x0000000C#32 .four 0xE#32] := by decide
theorem witness_RegisterWritesStore :
    embedding.engine = .idle ∧
    (given (.write 0x00000018#32 .four 0x118#32) embedding).inputs = [.write 0x00000018#32 .four 0x118#32] ∧
    got State.bpp (step (given (.write 0x00000018#32 .four 0x118#32) embedding)) = some 24 ∧
    got State.irqEn (step (given (.write 0x00000034#32 .four 0xFF#32) (holding .cap embedding))) = some 7 := by decide
theorem witness_BusyRegisterWriteIsDiscarded :
    (holding .cap embedding).busy = true ∧
    (given (.write 0x00000014#32 .four 5#32) (holding .cap embedding)).inputs
      = [.write (BitVec.ofNat 32 0x014) .four 5#32] := by decide
theorem witness_BusyRamAccessIsBlanked :
    (small .fault).params.Legal ∧ (holding .cap (small .fault)).busy = true ∧
    HostAccesses (given (.read 0x00100000#32 .one) (holding .cap (small .fault))) false 0x00100000#32 .one ∧
    LegalAccess (small .fault).params false 0x00100000#32 .one ∧ 0x00100000 ≤ (0x00100000#32).toNat :=
  ⟨by decide, by decide, ⟨[], rfl⟩, .inr (.inl ⟨0, by decide⟩), by decide⟩
theorem witness_RamWritesStoreLittleEndian :
    (small .fault).params.Legal ∧ (small .fault).engine = .idle ∧ 4 % AccessSize.four.bytes = 0 ∧
    4 + AccessSize.four.bytes ≤ (small .fault).params.kMax.toNat ∧
    4 + AccessSize.four.bytes ≤ (small .fault).params.pMax.toNat ∧ 60 % AccessSize.four.bytes = 0 ∧
    60 + AccessSize.four.bytes ≤ (small .fault).params.nMax.toNat ∧
    (given (.write 0x1000003C#32 .four 1#32) (small .fault)).inputs
      = [.write (BitVec.ofNat 32 (0x10000000 + 60)) .four 1#32] := by decide
theorem witness_RamReadsReturnLittleEndian :
    (loaded (zeros 8) (zeros 8) (zeros 64) 8).params.Legal ∧
    (∀ k, 4 ≤ k → k < 4 + AccessSize.four.bytes → Specified (loaded (zeros 8) (zeros 8) (zeros 64) 8).key k) ∧
    (∀ k, 6 ≤ k → k < 6 + AccessSize.two.bytes → Specified (loaded (zeros 8) (zeros 8) (zeros 64) 8).pay k) ∧
    (∀ k, 63 ≤ k → k < 63 + AccessSize.one.bytes → Specified (loaded (zeros 8) (zeros 8) (zeros 64) 8).pix k) := by
  refine ⟨by decide, fun k h1 h2 => ?_, fun k h1 h2 => ?_, fun k h1 h2 => ?_⟩ <;>
    simp only [AccessSize.bytes] at h2 <;> interval_cases k <;> decide
theorem witness_PermReadsReturnTheEntry :
    63 < (small .fault).params.nMax.toNat ∧ Ram.read [(63, 9#32)] 63 = some 9#32 ∧
    (given (.read 0x400000FC#32 .four) (small .fault)).inputs = [.read (BitVec.ofNat 32 (0x40000000 + 4 * 63)) .four] := by
  decide
theorem witness_ResetSetsEveryRegister : (given .rst (holding .embedKS embedding)).inputs = [.rst] := by decide
theorem witness_ResetUnspecifiesTheAbandonedOutput :
    (given .rst embedding).engine = .idle ∧ (given .rst (holding .embedK embedding)).engine = .busy (commandWord .embedK) ∧
    got (fun t => (Ram.read t.pix 23, t.perm)) (step (given .rst (holding .embedK { embedding with perm := [(23, 1), (24, 2)] })))
      = some (none, [(24, 2)]) := by decide
theorem witness_PowerOnUnspecifiesEveryCell : (given .powerOn embedding).inputs = [.powerOn] := by decide

end Sys2Proof.Tests
end

/-! The family 10_state: what a read of a register returns (R22 to R26, R32 to R45), the bits of STATUS (R26), the
codes of ERRCODE (R182) and the interrupt output (R51, R192). -/

namespace Sys2Proof.Machine

/-! ### Registers at the host port -/

theorem Reg.offset_lt (r : Reg) : r.offset < 0x1000 := by
  cases r <;> decide

/-- R22, R61: a four-byte access at a register's offset is legal and touches that register, whatever the parameters. -/
theorem locate_reg (p : Params) {a : Word} {r : Reg} (h : a.toNat = r.offset) : locate p a .four = some (.reg r) := by
  have hr : regAt a.toNat = some r := regAt_some.2 h
  have hlt : a.toNat < 0x1000 := h ▸ r.offset_lt
  simp only [locate, if_pos hlt, if_true, hr, Option.map_some]

/-- R70: a register's value does not depend on the turns still to come. -/
theorem readReg_inputs (r : Reg) (s : State) (ts : List Turn) : readReg r { s with inputs := ts } = readReg r s := by
  cases r <;> rfl

theorem hostRead_reg {a : Word} {r : Reg} (s : State) (h : a.toNat = r.offset) :
    hostRead a .four s = .next { s with response := some (.okay (readReg r s)) } := by
  simp only [hostRead, locate_reg s.params h, answer]

/-- A read of register `r` answers its value and changes only the model's own turn list and response. -/
theorem step_read_reg {s : State} {ts : List Turn} {a : Word} {r : Reg} (hi : s.inputs = .read a .four :: ts)
    (ha : a.toNat = r.offset) :
    step s = .next { s with inputs := ts, response := some (.okay (readReg r s)) } := by
  calc step s = hostRead a .four { s with inputs := ts } := by simp only [step, nextTurn, hi, takeTurn]
    _ = .next { s with inputs := ts, response := some (.okay (readReg r s)) } := by
      rw [hostRead_reg _ ha, readReg_inputs]

/-- The registers in the order of their offsets (R22). -/
def Reg.all : List Reg :=
  [.id, .version, .cmd, .status, .errcode, .pixelLen, .bpp, .keyLen, .payloadLen, .capacity, .embCount, .outLen,
    .unitsUsed, .irqEn, .nMax, .kMax, .pMax]

theorem Reg.mem_all (r : Reg) : r ∈ Reg.all := by
  cases r <;> decide

/-- Settles O44: the statement's table lists each register's offset with what `readReg` says of it. -/
theorem registerReadsReturnTheRegisters : Obligations.RegisterReadsReturnTheRegisters := by
  intro s ts e he hi
  have htable : e ∈ Reg.all.map fun r => (r.offset, readReg r s) := he
  obtain ⟨r, -, rfl⟩ := List.mem_map.1 htable
  have ha : (BitVec.ofNat 32 r.offset).toNat = r.offset :=
    Nat.mod_eq_of_lt (r.offset_lt.trans (by decide))
  exact step_read_reg hi ha

/-! ### STATUS, ERRCODE and `irq` -/

/-- R26: the seven flags of STATUS from bit 0 up: each appended flag moves the ones before it one place up. -/
theorem statusWord_flags (s : State) :
    (statusWord s).getLsbD 0 = s.busy ∧ (statusWord s).getLsbD 1 = s.done ∧ (statusWord s).getLsbD 2 = s.err ∧
    (statusWord s).getLsbD 3 = s.overrun ∧ (statusWord s).getLsbD 4 = s.trunc ∧ (statusWord s).getLsbD 5 = s.sentWr ∧
    (statusWord s).getLsbD 6 = s.sentFound := by
  simp only [statusWord, BitVec.getLsbD_setWidth, BitVec.getLsbD_append, BitVec.getLsbD_ofBool]
  simp

/-- R26: bits 31:7 of STATUS read 0, since only seven flags are widened to the word. -/
theorem statusWord_reserved (s : State) {n : Nat} (hn : 7 ≤ n) : (statusWord s).getLsbD n = false := by
  rw [statusWord, BitVec.getLsbD_setWidth, BitVec.getLsbD_of_ge _ _ hn, Bool.and_false]

/-- R51, R192: `irq` is high exactly when an enabled one of DONE, ERR and OVERRUN is set. -/
theorem irq_iff (s : State) :
    irq s = true ↔ (s.done = true ∧ s.irqEn.getLsbD 0 = true) ∨ (s.err = true ∧ s.irqEn.getLsbD 1 = true) ∨
      (s.overrun = true ∧ s.irqEn.getLsbD 2 = true) := by
  simp only [irq, Bool.or_eq_true, Bool.and_eq_true, or_assoc]

/-- Settles O45, from the bits of STATUS, the codes of R182 and the equation of `irq`. -/
theorem statusErrcodeAndIrqBits : Obligations.StatusErrcodeAndIrqBits := by
  refine ⟨fun s => ?_, ⟨rfl, rfl, rfl, rfl, rfl⟩, irq_iff⟩
  obtain ⟨hbusy, hdone, herr, hoverrun, htrunc, hsentWr, hsentFound⟩ := statusWord_flags s
  exact ⟨hbusy, hdone, herr, hoverrun, htrunc, hsentWr, hsentFound, fun _ => statusWord_reserved s⟩

end Sys2Proof.Machine

/-! The family 20_memory: which host accesses the address map lets in (R61 to R63, R66, R78), and which answer each access
gets (R190, R191). -/

namespace Sys2Proof.Machine

/-! ### The address map -/

theorem AccessSize.bytes_pos (n : AccessSize) : 0 < n.bytes := by
  cases n <;> decide

/-- R22, R62: the registers stand at the word addresses from 0x000 to 0x040, one at each. -/
theorem Reg.exists_offset_iff {o : Nat} : (∃ r : Reg, o = r.offset) ↔ o % 4 = 0 ∧ o ≤ 0x040 := by
  constructor
  · rintro ⟨r, rfl⟩
    cases r <;> decide
  · rintro ⟨haligned, hle⟩
    have htable : ∀ k < 17, ∃ r ∈ Reg.all, 4 * k = r.offset := by decide
    obtain ⟨r, -, hr⟩ := htable (o / 4) (by omega)
    exact ⟨r, by omega⟩

theorem regionBases :
    keyBase = 0x00100000 ∧ payBase = 0x08000000 ∧ pixBase = 0x10000000 ∧ permBase = 0x40000000 :=
  ⟨rfl, rfl, rfl, rfl⟩

/-! R7, R61: under legal parameters the windows do not overlap, so an access that fits one window is located there. -/

section Windows

variable {p : Params} {a : Word} {n : AccessSize} {o : Nat}

theorem locate_key (ha : a.toNat = keyBase + o) (haligned : o % n.bytes = 0) (hin : o + n.bytes ≤ p.kMax.toNat) :
    locate p a n = some (.key o) := by
  have hn := n.bytes_pos
  have hbases := regionBases
  simp only [locate]
  rw [if_neg (by omega), if_pos (by omega), ha, Nat.add_sub_cancel_left, if_pos (fitsRam_iff.2 ⟨haligned, hin⟩)]

theorem locate_pay (hp : p.Legal) (ha : a.toNat = payBase + o) (haligned : o % n.bytes = 0)
    (hin : o + n.bytes ≤ p.pMax.toNat) : locate p a n = some (.pay o) := by
  have hn := n.bytes_pos
  have hbases := regionBases
  simp only [locate]
  rw [if_neg (by omega), if_neg (by omega), if_pos (by omega), ha, Nat.add_sub_cancel_left,
    if_pos (fitsRam_iff.2 ⟨haligned, hin⟩)]

theorem locate_pix (hp : p.Legal) (ha : a.toNat = pixBase + o) (haligned : o % n.bytes = 0)
    (hin : o + n.bytes ≤ p.nMax.toNat) : locate p a n = some (.pix o) := by
  have hn := n.bytes_pos
  have hbases := regionBases
  simp only [locate]
  rw [if_neg (by omega), if_neg (by omega), if_neg (by omega), if_pos (by omega), ha, Nat.add_sub_cancel_left,
    if_pos (fitsRam_iff.2 ⟨haligned, hin⟩)]

theorem locate_perm (hp : p.Legal) {k : Nat} (ha : a.toNat = permBase + 4 * k) (hk : k < p.nMax.toNat) :
    locate p a .four = some (.perm k) := by
  have hbases := regionBases
  simp only [locate]
  rw [if_neg (by omega), if_neg (by omega), if_neg (by omega), if_neg (by omega), if_pos (by omega), ha,
    Nat.add_sub_cancel_left, if_pos ⟨trivial, Nat.mul_mod_right 4 k⟩, Nat.mul_div_cancel_left k (by decide)]

end Windows

/-- R63, R78: a target that an access of this direction may touch; PERM RAM cannot be written by the host. -/
def Target.Permits (write : Bool) : Target → Prop
  | .perm _ => write = false
  | .reg _ | .key _ | .pay _ | .pix _ => True

theorem Target.permits_read (x : Target) : x.Permits false := by
  cases x with
  | perm k => exact rfl
  | _ => trivial

/-- The legality of R61 to R63, R66 and R78, in the words of the address map, is the machine's own: the access locates a
target that its direction may touch. -/
theorem legalAccess_iff_locate {p : Params} (hp : p.Legal) {write : Bool} {a : Word} {n : AccessSize} :
    LegalAccess p write a n ↔ ∃ x, locate p a n = some x ∧ x.Permits write := by
  have hbases := regionBases
  constructor
  · rintro (⟨rfl, haligned, hle⟩ | ⟨o, ha, haligned, hin⟩ | ⟨o, ha, haligned, hin⟩ | ⟨o, ha, haligned, hin⟩ |
      ⟨o, ha, hread, rfl, haligned, hin⟩)
    · obtain ⟨r, hr⟩ := Reg.exists_offset_iff.2 ⟨haligned, hle⟩
      exact ⟨.reg r, locate_reg p hr, trivial⟩
    · exact ⟨.key o, locate_key ha haligned hin, trivial⟩
    · exact ⟨.pay o, locate_pay hp ha haligned hin, trivial⟩
    · exact ⟨.pix o, locate_pix hp ha haligned hin, trivial⟩
    · have hentry : a.toNat = permBase + 4 * (o / 4) := by omega
      exact ⟨.perm (o / 4), locate_perm hp hentry (by omega), hread⟩
  · rintro ⟨x, hx, hpermits⟩
    have hreach := locate_some hx
    cases x with
    | reg r =>
      obtain ⟨hn, ha⟩ := hreach
      exact .inl ⟨hn, Reg.exists_offset_iff.1 ⟨r, ha⟩⟩
    | key o =>
      obtain ⟨hbase, ho, haligned, hin⟩ := hreach
      exact .inr (.inl ⟨o, by omega, haligned, hin⟩)
    | pay o =>
      obtain ⟨hbase, ho, haligned, hin⟩ := hreach
      exact .inr (.inr (.inl ⟨o, by omega, haligned, hin⟩))
    | pix o =>
      obtain ⟨hbase, ho, haligned, hin⟩ := hreach
      exact .inr (.inr (.inr (.inl ⟨o, by omega, haligned, hin⟩)))
    | perm k =>
      obtain ⟨hn, ha, hk⟩ := hreach
      exact .inr (.inr (.inr (.inr ⟨4 * k, ha.symm, hpermits, hn, Nat.mul_mod_right 4 k, by omega⟩)))

/-! ### A host access as a step -/

theorem step_read {s : State} {a : Word} {n : AccessSize} {ts : List Turn} (hi : s.inputs = .read a n :: ts) :
    step s = hostRead a n { s with inputs := ts } := by
  simp only [step, nextTurn, hi, takeTurn]

theorem step_write {s : State} {a : Word} {n : AccessSize} {v : Word} {ts : List Turn}
    (hi : s.inputs = .write a n v :: ts) : step s = hostWrite a n v { s with inputs := ts } := by
  simp only [step, nextTurn, hi, takeTurn]

/-! ### ERROR (R190) -/

section ErrorAnswers

variable {a : Word} {n : AccessSize} {s : State}

/-- Every target may be read, so a read that may touch nothing has located nothing. -/
theorem hostRead_error (h : ∀ x, locate s.params a n = some x → ¬x.Permits false) :
    hostRead a n s = .next (answer .error s) := by
  cases hx : locate s.params a n with
  | none => simp only [hostRead, hx]
  | some x => exact absurd x.permits_read (h x hx)

/-- A write that may touch nothing has located nothing, or an entry of PERM RAM. -/
theorem hostWrite_error (v : Word) (h : ∀ x, locate s.params a n = some x → ¬x.Permits true) :
    hostWrite a n v s = .next (answer .error s) := by
  cases hx : locate s.params a n with
  | none => simp only [hostWrite, hx]
  | some x =>
    cases x with
    | perm k => simp only [hostWrite, hx]
    | _ => exact absurd trivial (h _ hx)

end ErrorAnswers

/-! ### OKAY (R191) -/

/-- R60: the step that leads to `t` answered OKAY. -/
def AnsweredOkay (t : State) : Prop := ∃ v, t.response = some (.okay v)

theorem answeredOkay_answer (v : Word) (s : State) : AnsweredOkay (answer (.okay v) s) := ⟨v, rfl⟩

theorem answeredOkay_writeUnlessBusy (store : State → State) (s : State) : AnsweredOkay (writeUnlessBusy store s) :=
  answeredOkay_answer 0 _

theorem readRam_okay {name : RamName} {m : Ram 8} {o n : Nat} {s t : State} (h : readRam name m o n s = .next t) :
    AnsweredOkay t := by
  unfold readRam at h
  split_ifs at h with hbusy
  · exact Host.Outcome.next.inj h ▸ answeredOkay_answer 0 _
  · split at h
    · exact Host.Outcome.next.inj h ▸ answeredOkay_answer _ _
    · cases h

theorem readPermEntry_okay {k : Nat} {s t : State} (h : readPermEntry k s = .next t) : AnsweredOkay t := by
  unfold readPermEntry at h
  split_ifs at h with hbusy
  · exact Host.Outcome.next.inj h ▸ answeredOkay_answer 0 _
  · split at h
    · exact Host.Outcome.next.inj h ▸ answeredOkay_answer _ _
    · cases h

/-- A read that locates a target gets OKAY when it is answered at all: the read of an unspecified cell may fault. -/
theorem hostRead_okay {a : Word} {n : AccessSize} {x : Target} {s t : State} (hx : locate s.params a n = some x)
    (h : hostRead a n s = .next t) : AnsweredOkay t := by
  simp only [hostRead, hx] at h
  cases x with
  | reg r => exact Host.Outcome.next.inj h ▸ answeredOkay_answer _ _
  | key o => exact readRam_okay h
  | pay o => exact readRam_okay h
  | pix o => exact readRam_okay h
  | perm k => exact readPermEntry_okay h

/-- R181, R187: the issue of a command, rejected or accepted, leaves the answer to its CMD write as it is. -/
theorem issue_response (i : Instr) (checks : List Check) (s : State) : (issue i checks s).response = s.response := by
  rcases issue_cases i checks s with ⟨code, -, h⟩ | ⟨-, h⟩ <;> rw [h]
  · rw [reject_response, noteCommand_response]
  · rw [accept_response, noteCommand_response]

theorem issueWord_response {w : Word} {s t : State} (he : s.engine = .idle) (h : issueWord w s = .next t) :
    t.response = s.response := by
  unfold issueWord at h
  split at h
  · rename_i i _
    obtain ⟨checks, hissue⟩ := exec_idle_issue i
    rw [hissue s he] at h
    exact Host.Outcome.next.inj h ▸ issue_response i checks s
  · exact Host.Outcome.next.inj h ▸ reject_response _ _

/-- R67, R180: a write to CMD is discarded while BUSY, and issues its word while IDLE. -/
theorem hostWrite_cmd {a : Word} {n : AccessSize} {v : Word} {s : State}
    (hx : locate s.params a n = some (.reg .cmd)) :
    hostWrite a n v s = if s.busy then .next (answer (.okay 0) (noteOverrun s)) else issueWord v (answer (.okay 0) s) := by
  simp only [hostWrite, hx]

/-- R67: a write to a register other than CMD takes the register's own rule, unless BUSY discards it. -/
theorem hostWrite_reg {a : Word} {n : AccessSize} {v : Word} {s : State} {r : Reg}
    (hx : locate s.params a n = some (.reg r)) (hr : r ≠ .cmd) :
    hostWrite a n v s = if writableWhileBusy r then .next (answer (.okay 0) (writeReg r v s))
      else .next (writeUnlessBusy (writeReg r v) s) := by
  simp only [hostWrite, hx]

theorem hostWrite_reg_okay {a : Word} {n : AccessSize} {v : Word} {r : Reg} {s t : State}
    (hx : locate s.params a n = some (.reg r)) (h : hostWrite a n v s = .next t) : AnsweredOkay t := by
  by_cases hr : r = .cmd
  · subst hr
    rw [hostWrite_cmd hx] at h
    split_ifs at h with hbusy
    · exact Host.Outcome.next.inj h ▸ answeredOkay_answer 0 _
    · have hidle : (answer (.okay 0) s).engine = .idle := (busy_eq_false_iff s).1 (Bool.eq_false_iff.2 hbusy)
      exact ⟨0, issueWord_response hidle h⟩
  · rw [hostWrite_reg hx hr] at h
    split_ifs at h
    · exact Host.Outcome.next.inj h ▸ answeredOkay_answer 0 _
    · exact Host.Outcome.next.inj h ▸ answeredOkay_writeUnlessBusy _ _

/-- R191: a write that may touch what it locates gets OKAY, even when BUSY discards it. -/
theorem hostWrite_okay {a : Word} {n : AccessSize} {v : Word} {x : Target} {s t : State}
    (hx : locate s.params a n = some x) (hpermits : x.Permits true) (h : hostWrite a n v s = .next t) :
    AnsweredOkay t := by
  cases x with
  | reg r => exact hostWrite_reg_okay hx h
  | perm k => cases hpermits
  | _ =>
    simp only [hostWrite, hx] at h
    exact Host.Outcome.next.inj h ▸ answeredOkay_writeUnlessBusy _ _

/-! ### Exactly the illegal accesses -/

section Access

variable {s : State} {write : Bool} {a : Word} {n : AccessSize}

theorem step_access_error (hacc : HostAccesses s write a n)
    (h : ∀ x, locate s.params a n = some x → ¬x.Permits write) :
    step s = .next { s with inputs := s.inputs.tail, response := some .error } := by
  cases write with
  | false =>
    obtain ⟨ts, hi⟩ := hacc
    rw [step_read hi, hi]
    exact hostRead_error h
  | true =>
    obtain ⟨v, ts, hi⟩ := hacc
    rw [step_write hi, hi]
    exact hostWrite_error v h

theorem step_access_okay {x : Target} {t : State} (hacc : HostAccesses s write a n)
    (hx : locate s.params a n = some x) (hpermits : x.Permits write) (h : step s = .next t) : AnsweredOkay t := by
  cases write with
  | false =>
    obtain ⟨ts, hi⟩ := hacc
    rw [step_read hi] at h
    exact hostRead_okay (s := { s with inputs := ts }) hx h
  | true =>
    obtain ⟨v, ts, hi⟩ := hacc
    rw [step_write hi] at h
    exact hostWrite_okay (s := { s with inputs := ts }) hx hpermits h

end Access

/-- Settles O43: the address map's legality is the machine's, which alone decides between ERROR and OKAY. -/
theorem exactlyIllegalAccessesGetError : Obligations.ExactlyIllegalAccessesGetError := by
  intro s write a n hp hacc
  rw [legalAccess_iff_locate hp]
  constructor
  · intro hillegal
    exact step_access_error hacc fun x hx hpermits => hillegal ⟨x, hx, hpermits⟩
  · rintro ⟨x, hx, hpermits⟩ t h
    exact step_access_okay hacc hx hpermits h

end Sys2Proof.Machine

/-! The family 30_encoding: the fields of a command word (R91), decoding and the table's nine words (R93 to R96), and the
rejection of a word that is no command (R99). -/

namespace Sys2Proof

/-! ### The fields of a word (R91) -/

/-- R91: the five fields cover the word, so they put it together again. -/
theorem wordOfFields_fieldsOfWord (w : Word) : wordOfFields (fieldsOfWord w) = w := by
  refine BitVec.eq_of_getLsbD_eq fun n hn => ?_
  simp only [wordOfFields, fieldsOfWord, BitVec.getLsbD_append, BitVec.getLsbD_ofBool, BitVec.getLsbD_extractLsb']
  grind

/-- R91: no two fields overlap, so each is read back as it was written. -/
theorem fieldsOfWord_wordOfFields (f : CommandFields) : fieldsOfWord (wordOfFields f) = f := by
  obtain ⟨op, k, s, proto, rsv⟩ := f
  simp only [fieldsOfWord, wordOfFields, CommandFields.mk.injEq]
  refine ⟨BitVec.eq_of_getLsbD_eq fun n hn => ?_, ?_, ?_, BitVec.eq_of_getLsbD_eq fun n hn => ?_,
    BitVec.eq_of_getLsbD_eq fun n hn => ?_⟩
  all_goals
    simp only [BitVec.getLsbD_extractLsb', BitVec.getLsbD_append, BitVec.getLsbD_ofBool]
    grind

theorem fieldsOfWord_eq_iff {w : Word} {f : CommandFields} : fieldsOfWord w = f ↔ w = wordOfFields f := by
  constructor
  · rintro rfl
    exact (wordOfFields_fieldsOfWord w).symm
  · rintro rfl
    exact fieldsOfWord_wordOfFields f

/-! ### Decoding (R96) -/

/-- R92, R95: past the tests of RSV and PROTO, a command is decoded from its own OP, K and S and from no other. -/
theorem decodeOperation_ok_iff {op : BitVec 4} {k s : Bool} {i : Instr} :
    decodeOperation op k s = .ok i ↔ op = opcodeOf i.operation ∧ k = i.keyed ∧ s = i.strict := by
  constructor
  · intro h
    unfold decodeOperation at h
    split at h
    case h_5 => cases h
    case h_1 hop | h_2 hop | h_3 hop | h_4 hop =>
      obtain ⟨-, rfl⟩ := BitVec.toNat_eq_nat.1 hop
      cases k <;> cases s <;> cases h <;> exact ⟨rfl, rfl, rfl⟩
  · rintro ⟨rfl, rfl, rfl⟩
    cases i <;> rfl

/-- R93, R94, R96: a reserved bit or protocol decodes to nothing, and a command's own fields have neither. -/
theorem decodeFields_ok_iff {f : CommandFields} {i : Instr} : decodeFields f = .ok i ↔ f = fieldsOf i := by
  obtain ⟨op, k, s, proto, rsv⟩ := f
  simp only [fieldsOf, CommandFields.mk.injEq]
  unfold decodeFields
  split_ifs with hrsv hproto
  · exact iff_of_false nofun fun ⟨_, _, _, _, h⟩ => hrsv h
  · exact iff_of_false nofun fun ⟨_, _, _, h, _⟩ => hproto h
  · obtain rfl : rsv = 0#24 := not_not.1 hrsv
    obtain rfl : proto = 0#2 := not_not.1 hproto
    simp only [decodeOperation_ok_iff, and_true]

/-- R96: the encoder inverts the decoder, and a word that the decoder accepts is the encoder's. -/
theorem decode_ok_iff {w : Word} {i : Instr} : decode w = .ok i ↔ w = encode i := by
  rw [decode, decodeFields_ok_iff, fieldsOfWord_eq_iff, encode]

/-- R92 to R95: the fields of every command are well-formed. -/
theorem fieldsOf_wellFormed (i : Instr) : (fieldsOf i).wellFormed = true := by
  cases i <;> decide

theorem wellFormed_of_decode {w : Word} {i : Instr} (h : decode w = .ok i) : (fieldsOfWord w).wellFormed = true := by
  rw [decodeFields_ok_iff.1 h]
  exact fieldsOf_wellFormed i

/-- R92 to R95: the checks of `wellFormed` as propositions. -/
theorem CommandFields.wellFormed_iff (f : CommandFields) :
    f.wellFormed = true ↔ f.rsv = 0#24 ∧ f.proto = 0#2 ∧ (f.op = 1#4 ∨ f.op = 2#4 ∨ f.op = 3#4 ∨ f.op = 4#4) ∧
      ¬(f.op = 1#4 ∧ f.k = true) ∧ (f.op = 3#4 ∨ f.s = false) := by
  simp [CommandFields.wellFormed, CommandFields.rsvClear, CommandFields.protoSentinel, CommandFields.opDefined,
    CommandFields.kMeaningful, CommandFields.sMeaningful, and_assoc, or_assoc, imp_iff_not_or]

end Sys2Proof

namespace Sys2Proof.Machine

theorem encode_eq_commandWord (i : Instr) : encode i = commandWord i := by
  cases i <;> rfl

/-- Settles O1: the fields of a word determine it, and each command is decoded from its own fields only. -/
theorem decodeAcceptsExactlyTheTable : Obligations.DecodeAcceptsExactlyTheTable := by
  refine ⟨fun i w => ?_, encode_eq_commandWord⟩
  rw [decode_ok_iff, encode_eq_commandWord]

/-- Settles O3: each misuse of a field contradicts one part of the well-formedness of a decoded word's fields. -/
theorem misusedFieldsDecodeToNothing : Obligations.MisusedFieldsDecodeToNothing := by
  intro w hmisuse i h
  obtain ⟨hrsv, hproto, -, hk, hs⟩ := (CommandFields.wellFormed_iff _).1 (wellFormed_of_decode h)
  simp only [fieldsOfWord] at hrsv hproto hk hs
  have hstrict {op : BitVec 4} (hop : w.extractLsb' 0 4 = op) (hne : op ≠ 3#4) : w.getLsbD 5 = false :=
    hs.resolve_left (hop ▸ hne)
  rcases hmisuse with hrsv' | hproto' | ⟨hop, hk' | hs'⟩ | ⟨hop, hs'⟩ | ⟨hop, hs'⟩
  · exact hrsv' hrsv
  · exact hproto' hproto
  · exact hk ⟨hop, hk'⟩
  all_goals exact Bool.false_ne_true ((hstrict hop (by decide)).symm.trans hs')

/-- R96: decoding is total, so a word that is none of the nine decodes to an error. -/
theorem exists_decode_error {w : Word} (hw : ∀ i, w ≠ commandWord i) : ∃ e, decode w = .error e := by
  cases h : decode w with
  | error e => exact ⟨e, rfl⟩
  | ok i => exact absurd ((decode_ok_iff.1 h).trans (encode_eq_commandWord i)) (hw i)

theorem issueWord_error {w : Word} {e : DecodeError} (s : State) (h : decode w = .error e) :
    issueWord w s = .next (reject .illegalCmd (noteCommand w s)) := by
  simp only [issueWord, h]

/-- R180: while IDLE, a write to CMD issues its word, once the port has answered OKAY. -/
theorem step_write_cmd {s : State} {a w : Word} {ts : List Turn} (hidle : s.engine = .idle)
    (ha : a.toNat = Reg.offset .cmd) (hi : s.inputs = .write a .four w :: ts) :
    step s = issueWord w (answer (.okay 0) { s with inputs := ts }) := by
  have hnotBusy : State.busy { s with inputs := ts } = false := not_busy_of_engine hidle
  rw [step_write hi, hostWrite_cmd (locate_reg _ ha), hnotBusy]
  rfl

/-- Settles O7: the write to CMD issues its word, which does not decode, and the issue raises ILLEGAL_CMD. -/
theorem illegalWordIsRejected : Obligations.IllegalWordIsRejected := by
  intro s w ts hidle hw hi
  obtain ⟨e, he⟩ := exists_decode_error hw
  rw [step_write_cmd hidle rfl hi, issueWord_error _ he]
  rfl

end Sys2Proof.Machine

/-! The family 43_keyed_decoder: what the complete step of EXTRACT leaves (R161 to R165). -/

namespace Sys2Proof.Machine

/-! ### The traversal permutation (R127) -/

@[simp] theorem shuffle_length (n : Nat) (x : Word) (p : List Nat) : (shuffle n x p).length = p.length := by
  induction n generalizing x p with
  | zero => rfl
  | succ n ih => rw [shuffle, ih, swapEntries_length]

/-- R121: every generator answers a sequence of the length asked for. -/
@[simp] theorem permGen_length (choice : PermGenChoice) (key : List Byte) (n : Nat) :
    (permGen choice key n).length = n := by
  cases choice with
  | default => simp only [permGen, defaultPermGen, shuffle_length, List.length_range]
  | other =>
    simp only [permGen]
    split_ifs with hperm
    · rw [(List.isPerm_iff.1 hperm).length_eq, List.length_range]
    · exact List.length_range

@[simp] theorem pathOf_length (keyed : Bool) (s : State) : (pathOf keyed s).length = s.pixelLen.toNat := by
  cases keyed with
  | false => exact List.length_range
  | true => exact permGen_length ..

/-- R127: with a specified key, or with none to read, a command traverses `pathOf` and draws nothing. -/
theorem traversal_specified {keyed : Bool} {s : State} (h : keyed = true → KeySpecified s) :
    traversal keyed s = .ok (pathOf keyed s, s.draws) := by
  cases keyed with
  | false => rfl
  | true =>
    have hkey : ∀ k, k < s.keyLen.toNat → (Ram.read s.key (0 + k)).isSome := by
      simpa only [Nat.zero_add] using h rfl
    rw [traversal_keyed, readBytes_specified hkey, except_ok_bind]
    simp only [Nat.zero_add, pathOf, keyBytes, if_true]

/-- R128: PERM RAM after a command that stores the path only when it is keyed. -/
theorem read_perm_of_path (keyed : Bool) (s : State) (k : Nat) :
    Ram.read (if keyed then storePerm (pathOf keyed s) s.perm else s.perm) k =
      if keyed = true ∧ k < s.pixelLen.toNat then some (BitVec.ofNat 32 ((pathOf keyed s).getD k 0))
      else Ram.read s.perm k := by
  cases keyed with
  | false => simp only [Bool.false_eq_true, if_false, false_and]
  | true => simp only [if_true, true_and, read_storePerm, pathOf_length]

/-! ### The groups along a path (R162 to R164) -/

/-- The units of the `n`-th whole group of 8, entry by entry. -/
theorem take_drop_group {p : List Nat} {n : Nat} (h : 8 * (n + 1) ≤ p.length) :
    (p.drop (8 * n)).take 8 = (List.range 8).map fun t => p.getD (8 * n + t) 0 := by
  have hlen : ((p.drop (8 * n)).take 8).length = 8 := by
    rw [List.length_take, List.length_drop]
    omega
  refine List.ext_getElem (by rw [hlen, List.length_map, List.length_range]) fun t ht _ => ?_
  have ht8 : t < 8 := hlen ▸ ht
  simp only [List.getElem_take, List.getElem_drop, List.getElem_map, List.getElem_range]
  exact (List.getD_eq_getElem _ _ (by omega)).symm

/-- R162: the byte the loop puts together from a whole group is the closed form's. -/
theorem unitsByte_group (s : State) {p : List Nat} {n : Nat} (h : 8 * (n + 1) ≤ p.length) :
    unitsByte s.pix ((p.drop (8 * n)).take 8) = groupByte s p n := by
  rw [take_drop_group h, unitsByte, List.map_map]
  rfl

/-- R163: of the `groups` groups from the `n`-th on, those that EXTRACT outputs: all before the first sentinel. -/
def outputGroups (s : State) (p : List Nat) (n groups : Nat) : List Nat :=
  (List.range' n groups).takeWhile fun m => groupByte s p m != sentinel

theorem outputGroups_sentinel {s : State} {p : List Nat} {n : Nat} (groups : Nat) (h : groupByte s p n = sentinel) :
    outputGroups s p n (groups + 1) = [] := by
  simp [outputGroups, List.range'_succ, h]

theorem outputGroups_byte {s : State} {p : List Nat} {n : Nat} (groups : Nat) (h : groupByte s p n ≠ sentinel) :
    outputGroups s p n (groups + 1) = n :: outputGroups s p (n + 1) groups := by
  simp [outputGroups, List.range'_succ, h]

/-- R163, R164: over a whole path the groups output are those below the closed form's count. -/
theorem outputGroups_path (s : State) (p : List Nat) :
    outputGroups s p 0 (s.pixelLen.toNat / 8) = List.range (extractCount s p) := by
  have hprefix : outputGroups s p 0 (s.pixelLen.toNat / 8) <+: List.range (s.pixelLen.toNat / 8) := by
    rw [List.range_eq_range']
    exact List.takeWhile_prefix _
  have hcount : (outputGroups s p 0 (s.pixelLen.toNat / 8)).length = extractCount s p := by
    rw [outputGroups, ← List.range_eq_range', extractCount]
  have hle : extractCount s p ≤ s.pixelLen.toNat / 8 := by
    simpa only [hcount, List.length_range] using hprefix.length_le
  rw [List.prefix_iff_eq_take.1 hprefix, hcount, List.take_range, Nat.min_eq_left hle]

/-- How many units the loop reads when it outputs `count` of `groups` groups: theirs, and those of the sentinel that
stopped it before the last (R165). -/
def unitsRead (count groups : Nat) : Nat := 8 * count + if count < groups then 8 else 0

/-- A sentinel in the first group costs its 8 units. -/
theorem unitsRead_zero (groups : Nat) : unitsRead 0 (groups + 1) = 8 := by
  simp only [unitsRead, Nat.mul_zero, Nat.zero_add, if_pos (Nat.succ_pos groups)]

/-- Another byte before another group costs 8 units. -/
theorem unitsRead_succ (count groups : Nat) : unitsRead (count + 1) (groups + 1) = 8 + unitsRead count groups := by
  simp only [unitsRead, Nat.add_lt_add_iff_right]
  omega

theorem extractUnits_eq (s : State) (p : List Nat) :
    extractUnits s p = unitsRead (extractCount s p) (s.pixelLen.toNat / 8) := by
  simp only [extractUnits, extractFinds, unitsRead, decide_eq_true_eq]

/-! ### The loop and the complete step (R161, R165) -/

/-- R161: the loop from the `n`-th group on, over readable units, in closed form: its output groups are written in order,
and it finds the sentinel when they are not all. -/
theorem extractBytes_specified {mode : UnwrittenRead} {s : State} {p : List Nat} {d groups n : Nat} (pay : Ram 8)
    (hlen : 8 * (n + groups) ≤ p.length)
    (hspec : ∀ u ∈ (p.drop (8 * n)).take (unitsRead (outputGroups s p n groups).length groups), Specified s.pix u) :
    extractBytes mode groups n (p.drop (8 * n)) pay { pix := s.pix, draws := d } =
      .ok { count := n + (outputGroups s p n groups).length
            found := decide ((outputGroups s p n groups).length < groups)
            pay := Ram.writeList pay n ((outputGroups s p n groups).map (groupByte s p))
            carrier := { pix := s.pix, draws := d } } := by
  induction groups generalizing n pay with
  | zero => rfl
  | succ groups ih =>
    have hbyte : unitsByte s.pix ((p.drop (8 * n)).take 8) = groupByte s p n := unitsByte_group s (by omega)
    by_cases hsent : groupByte s p n = sentinel
    · rw [outputGroups_sentinel groups hsent, List.length_nil, unitsRead_zero] at hspec
      rw [extractBytes_step hspec, if_pos (hbyte.trans hsent), outputGroups_sentinel groups hsent]
      simp [Ram.writeList]
    · rw [outputGroups_byte groups hsent, List.length_cons, unitsRead_succ, List.take_add] at hspec
      have hnext : (p.drop (8 * n)).drop 8 = p.drop (8 * (n + 1)) := List.drop_drop
      rw [hnext] at hspec
      have hfirst := fun u hu => hspec u (List.mem_append_left _ hu)
      have hrest := fun u hu => hspec u (List.mem_append_right _ hu)
      rw [extractBytes_step hfirst, if_neg (hbyte ▸ hsent), hbyte, hnext, ih _ (by omega) hrest,
        outputGroups_byte groups hsent]
      simp [Ram.writeList, Nat.add_assoc, Nat.add_comm 1]

/-- PAYLOAD RAM after an extraction along `p` (R165). -/
def extractedPay (s : State) (p : List Nat) : Ram 8 :=
  Ram.writeList s.pay 0 ((List.range (extractCount s p)).map (groupByte s p))

/-- R165: the groups' bytes stand in PAY[0..n−1], and every other byte is the old one. -/
theorem read_extractedPay (s : State) (p : List Nat) (n : Nat) :
    Ram.read (extractedPay s p) n = if n < extractCount s p then some (groupByte s p n) else Ram.read s.pay n := by
  rw [extractedPay, Ram.read_writeList]
  simp only [Nat.zero_le, true_and, Nat.zero_add, List.length_map, List.length_range, Nat.sub_zero]
  split_ifs with h
  · simp [h]
  · rfl

/-- R161: the loop over a whole path whose read units are specified. -/
theorem extractBytes_path {mode : UnwrittenRead} {s : State} {p : List Nat} {d : Nat} (hlen : p.length = s.pixelLen.toNat)
    (hspec : ∀ u ∈ p.take (extractUnits s p), Specified s.pix u) :
    extractBytes mode (p.length / 8) 0 p s.pay { pix := s.pix, draws := d } =
      .ok { count := extractCount s p, found := extractFinds s p, pay := extractedPay s p
            carrier := { pix := s.pix, draws := d } } := by
  have hfit : 8 * (0 + s.pixelLen.toNat / 8) ≤ p.length := by omega
  have hgroups := outputGroups_path s p
  have hloop := extractBytes_specified (mode := mode) (s := s) (d := d) s.pay hfit
  rw [hgroups, List.length_range, ← extractUnits_eq, Nat.zero_add] at hloop
  rw [hlen]
  exact hloop hspec

/-- R161, R165: the whole of EXTRACT's own rule, when all that it reads is specified. -/
theorem performExtract_specified {keyed : Bool} {s : State} (hkey : keyed = true → KeySpecified s)
    (hspec : ∀ u ∈ (pathOf keyed s).take (extractUnits s (pathOf keyed s)), Specified s.pix u) :
    performExtract keyed s = .ok { s with
      perm := if keyed then storePerm (pathOf keyed s) s.perm else s.perm
      pay := extractedPay s (pathOf keyed s)
      outLen := BitVec.ofNat 32 (extractCount s (pathOf keyed s))
      unitsUsed := BitVec.ofNat 32 (extractUnits s (pathOf keyed s))
      sentFound := extractFinds s (pathOf keyed s) } := by
  rw [performExtract, traversal_specified hkey, except_ok_bind]
  simp only
  rw [extractBytes_path (pathOf_length keyed s) hspec, except_ok_bind]
  rfl

theorem performOf_extract {i : Instr} (h : i.operation = .extract) : performOf i = performExtract i.keyed := by
  simp only [performOf, h]

/-- The two EXTRACT commands are those whose operation is EXTRACT (R96). -/
theorem mem_extracts_iff {i : Instr} : i ∈ [Instr.extract, .extractK] ↔ i.operation = .extract := by
  cases i <;> decide

/-- Settles O24: the BUSY engine completes EXTRACT's own rule, whose loop over readable units has a closed form. -/
theorem extractCompletes : Obligations.ExtractCompletes := by
  intro i hi s w hbusy hreadable
  have hop : i.operation = .extract := mem_extracts_iff.1 hi
  obtain ⟨hkey, -, hunits⟩ := hreadable
  refine ⟨extractedPay s (pathOf i.keyed s),
    if i.keyed then storePerm (pathOf i.keyed s) s.perm else s.perm, ?_,
    read_extractedPay s _, read_perm_of_path i.keyed s⟩
  rw [exec_busy i hbusy, performOf_extract hop, complete_next_iff]
  exact ⟨_, performExtract_specified hkey (hunits hop), rfl⟩

end Sys2Proof.Machine

/-! The family 60_exceptions: the checks of a command in the order of R183, its rejection (R181) and its acceptance
(R187). -/

namespace Sys2Proof.Machine

/-! ### The table of checks (R183) -/

/-- R183: rows 2 to 6, in order, each for the commands it applies to. -/
def checksOf (i : Instr) : List Check :=
  (if i.operation ≠ .cap then [checkPixelLen] else []) ++
  ((if i.keyed = true then [checkKeyLen] else []) ++
  ((if i.operation = .embed then [checkPayloadLen] else []) ++
  ((if i.operation = .embed ∨ i.operation = .extract then [checkDepth] else []) ++
  ((if i.strict = true then [checkCapacity] else []) ++ []))))

/-- R180: an IDLE engine issues each command with exactly the rows of R183's table that apply to it. -/
theorem exec_idle (i : Instr) {s : State} (hidle : s.engine = .idle) : exec i s = .next (issue i (checksOf i) s) := by
  cases i <;> exact runCommand_idle hidle

/-- A row raises its code when it applies and fails; otherwise the rows after it decide. -/
theorem firstFailure_row {applies fails : Prop} [Decidable applies] [Decidable fails] {check : Check} {code : ErrCode}
    {s : State} (hcheck : check s = if fails then some code else none) (rows : List Check) :
    firstFailure ((if applies then [check] else []) ++ rows) s =
      if applies ∧ fails then some code else firstFailure rows s := by
  by_cases happlies : applies
  · by_cases hfails : fails <;> simp [firstFailure, hcheck, happlies, hfails]
  · simp [happlies]

theorem checkDepth_eq (s : State) :
    checkDepth s = if ¬(s.bpp = 8#8 ∨ s.bpp = 24#8) then some .unsupportedFormat else none := by
  rw [checkDepth, ite_not]

/-- R183, R184: the machine's checks of a command find the first failing row of the table. -/
theorem firstFailure_checksOf (i : Instr) (s : State) : firstFailure (checksOf i) s = firstFailingRow i s := by
  rw [checksOf, firstFailure_row (check := checkPixelLen) rfl, firstFailure_row (check := checkKeyLen) rfl,
    firstFailure_row (check := checkPayloadLen) rfl, firstFailure_row (checkDepth_eq s),
    firstFailure_row (check := checkCapacity) rfl]
  rfl

/-- R180: no row reads LAST_CMD, so writing it before the checks leaves their outcome. -/
theorem firstFailure_noteCommand (i : Instr) (w : Word) (s : State) :
    firstFailure (checksOf i) (noteCommand w s) = firstFailingRow i s := by
  rw [firstFailure_checksOf]
  rfl

/-! ### Rejection and acceptance (R181, R187) -/

theorem exec_rejected {i : Instr} {s : State} {code : ErrCode} (hidle : s.engine = .idle)
    (hrow : firstFailingRow i s = some code) : exec i s = .next (reject code (noteCommand (commandWord i) s)) := by
  rw [exec_idle i hidle, issue, firstFailure_noteCommand, hrow, encode_eq_commandWord]

theorem exec_accepted {i : Instr} {s : State} (hidle : s.engine = .idle) (haccepted : Accepted i s) :
    exec i s = .next (accept (commandWord i) (noteCommand (commandWord i) s)) := by
  rw [exec_idle i hidle, issue, firstFailure_noteCommand, haccepted, encode_eq_commandWord]

/-- Settles O8: a word that does not decode raises ILLEGAL_CMD, a command the code of its first failing row, and `reject`
after `noteCommand` writes the three named registers only. -/
theorem rejectionReportsFirstFailingRow : Obligations.RejectionReportsFirstFailingRow := by
  intro s hidle
  refine ⟨fun w hillegal => ?_, fun i code hrow => exec_rejected hidle hrow⟩
  have hword (i : Instr) : w ≠ commandWord i := fun hw =>
    hillegal i (decode_ok_iff.2 (hw.trans (encode_eq_commandWord i).symm))
  obtain ⟨e, he⟩ := exists_decode_error hword
  exact issueWord_error s he

/-- Settles O9: when no row of R183 fails the issue is `accept` after `noteCommand`, which write the named fields only. -/
theorem acceptanceHoldsTheCommand : Obligations.AcceptanceHoldsTheCommand :=
  fun _ _ hidle haccepted => exec_accepted hidle haccepted

end Sys2Proof.Machine

/-! The family 70_reset_and_hazards: what the assertion of `rst` does to the registers (R220) and to the RAM cells of an
abandoned command (R221), and what power-on does (R222). -/

namespace Sys2Proof.Machine

/-! ### Reset and power-on as steps (R220, R222) -/

theorem step_rst {s : State} {ts : List Turn} (hi : s.inputs = .rst :: ts) :
    step s = .next (assertReset { s with inputs := ts }) := by
  simp only [step, nextTurn, hi, takeTurn]

theorem step_powerOn {s : State} {ts : List Turn} (hi : s.inputs = .powerOn :: ts) :
    step s = .next (State.afterPowerOn s.params ts s.draws) := by
  simp only [step, nextTurn, hi, takeTurn]

/-- Settles O53: only the RAMs of the state after a reset depend on the engine's phase. -/
theorem resetSetsEveryRegister : Obligations.ResetSetsEveryRegister :=
  fun _ _ hi => ⟨_, _, _, _, _, _, step_rst hi⟩

/-! ### The cells of the abandoned command (R221) -/

theorem abandon_idle {s : State} (hidle : s.engine = .idle) : abandon s = s := by
  obtain ⟨-, -, -, -, hkeep⟩ := abandon_rams s
  exact hkeep (not_busy_of_engine hidle)

/-- R221: the three RAMs a command can write, each forgotten exactly when the held command writes it. -/
theorem abandon_held {s : State} {i : Instr} (hheld : s.engine = .busy (commandWord i)) :
    abandon s = { s with
      pix := if i.operation = .embed then Ram.forget s.pix s.pixelLen.toNat else s.pix
      pay := if i.operation = .extract then Ram.forget s.pay (s.pixelLen.toNat / 8) else s.pay
      perm := if i.operation = .perm ∨ i.keyed = true then Ram.forget s.perm s.pixelLen.toNat else s.perm } := by
  have hdecode : decode (commandWord i) = .ok i := decode_ok_iff.2 (encode_eq_commandWord i).symm
  unfold abandon
  split
  case h_1 hidle => exact absurd (hheld.symm.trans hidle) Engine.noConfusion
  case h_2 w hw =>
    obtain rfl : commandWord i = w := Engine.busy.inj (hheld.symm.trans hw)
    simp only [hdecode]
    cases i <;> rfl

theorem Ram.read_ite_forget {w : Nat} (p : Prop) [Decidable p] (m : Ram w) (n u : Nat) :
    Ram.read (if p then Ram.forget m n else m) u = if p ∧ u < n then none else Ram.read m u := by
  by_cases hp : p
  · simp only [hp, if_true, true_and, Ram.read_forget]
  · simp only [hp, if_false, false_and]

/-- Settles O54: an IDLE engine abandons nothing, and a BUSY one forgets the first cells of exactly the RAMs that its
command writes. -/
theorem resetUnspecifiesTheAbandonedOutput : Obligations.ResetUnspecifiesTheAbandonedOutput := by
  intro s ts hi
  refine ⟨fun hidle => ⟨_, step_rst hi, ?_⟩, fun i hheld => ⟨_, step_rst hi, ?_⟩⟩
  · have hkept := abandon_idle (s := { s with inputs := ts }) hidle
    rw [assertReset_key, assertReset_pay, assertReset_pix, assertReset_perm, hkept]
    exact ⟨rfl, rfl, rfl, rfl⟩
  · have hforgotten := abandon_held (s := { s with inputs := ts }) hheld
    rw [assertReset_key, assertReset_pay, assertReset_pix, assertReset_perm, hforgotten]
    exact ⟨rfl, Ram.read_ite_forget _ s.pix _, Ram.read_ite_forget _ s.pay _, Ram.read_ite_forget _ s.perm _⟩

/-! ### Power-on (R222) -/

/-- Settles O55: the state after power-on is reset's but for the model's own fields, and its RAMs list no cell. -/
theorem powerOnUnspecifiesEveryCell : Obligations.PowerOnUnspecifiesEveryCell :=
  fun _ _ hi => ⟨_, _, _, step_powerOn hi, rfl,
    fun _ => ⟨Ram.read_nil _, Ram.read_nil _, Ram.read_nil _, Ram.read_nil _⟩⟩

end Sys2Proof.Machine

/-! The family 41_permutation: the generator's answer is a permutation (R121), the pieces of the default generator (R123 to
R126), and the completion of PERM (R127, R128). -/

namespace Sys2Proof.Machine

/-! ### Laws of the generator (R121) -/

/-- R126: every pass swaps two entries inside the sequence, so the loop only reorders it. -/
theorem shuffle_perm {n : Nat} (x : Word) {p : List Nat} (hn : n ≤ p.length - 1) : (shuffle n x p).Perm p := by
  induction n generalizing x p with
  | zero => exact List.Perm.refl p
  | succ n ih =>
    have hj : (xorshift x).toNat % (n + 2) < n + 2 := Nat.mod_lt _ (by omega)
    have hswap : (swapEntries p (n + 1) ((xorshift x).toNat % (n + 2))).Perm p :=
      swapEntries_perm (by omega) (by omega)
    exact (ih _ (by rw [swapEntries_length]; omega)).trans hswap

theorem defaultPermGen_perm (key : List Byte) (n : Nat) : (defaultPermGen key n).Perm (List.range n) :=
  shuffle_perm _ (by rw [List.length_range])

/-- Settles O13: the default shuffles the identity, and another generator's answer is replaced unless it is lawful. -/
theorem permGenIsAPermutation : Obligations.PermGenIsAPermutation := by
  intro choice key n
  cases choice with
  | default => exact defaultPermGen_perm key n
  | other =>
    simp only [permGen]
    split_ifs with hlawful
    · exact List.isPerm_iff.1 hlawful
    · exact List.Perm.refl _

theorem pathOf_perm (keyed : Bool) (s : State) : (pathOf keyed s).Perm (List.range s.pixelLen.toNat) := by
  cases keyed with
  | false => exact List.Perm.refl _
  | true => exact permGenIsAPermutation ..

/-- R121, R127: whatever the key's bytes turn out to be, a traversal is a permutation of [0, N). -/
theorem traversal_perm {keyed : Bool} {s : State} {p : List Nat} {d : Nat} (h : traversal keyed s = .ok (p, d)) :
    p.Perm (List.range s.pixelLen.toNat) := by
  rcases traversal_ok h with rfl | ⟨key, rfl⟩
  · exact List.Perm.refl _
  · exact permGenIsAPermutation ..

/-! ### The default generator (R123 to R126) -/

/-- A word that equals itself shifted left by a positive amount is 0: from bit 0 up, each bit is 0 or a lower bit. -/
theorem eq_zero_of_eq_shiftLeft {w k : Nat} {x : BitVec w} (hk : 0 < k) (h : x = x <<< k) : x = 0#w := by
  have hbit (n : Nat) : x.getLsbD n = false := by
    induction n using Nat.strongRecOn with
    | ind n ih =>
      rw [h, BitVec.getLsbD_shiftLeft]
      by_cases hn : n < k
      · simp [hn]
      · rw [ih (n - k) (by omega), Bool.and_false]
  exact BitVec.eq_of_getLsbD_eq fun n _ => by rw [hbit n, BitVec.getLsbD_zero]

/-- A word that equals itself shifted right by a positive amount is 0: from the top bit down, each bit is 0 or a higher
bit. -/
theorem eq_zero_of_eq_ushiftRight {w k : Nat} {x : BitVec w} (hk : 0 < k) (h : x = x >>> k) : x = 0#w := by
  have hbit (m n : Nat) (hm : w - n = m) : x.getLsbD n = false := by
    induction m using Nat.strongRecOn generalizing n with
    | ind m ih =>
      by_cases hn : w ≤ n
      · exact BitVec.getLsbD_of_ge x n hn
      · rw [h, BitVec.getLsbD_ushiftRight]
        exact ih (w - (k + n)) (by omega) (k + n) rfl
  exact BitVec.eq_of_getLsbD_eq fun n _ => by rw [hbit _ n rfl, BitVec.getLsbD_zero]

/-- Settles O14: each of the three shifts of R124 takes only 0 to 0. -/
theorem xorshiftKeepsNonzero : Obligations.XorshiftKeepsNonzero := by
  intro s hs h
  simp only [xorshift] at h
  have h2 := eq_zero_of_eq_shiftLeft (by decide) (BitVec.xor_eq_zero_iff.1 h)
  have h1 := eq_zero_of_eq_ushiftRight (by decide) (BitVec.xor_eq_zero_iff.1 h2)
  exact hs (eq_zero_of_eq_shiftLeft (by decide) (BitVec.xor_eq_zero_iff.1 h1))

/-- R123: a further key byte is one further round. -/
theorem fnvSeed_concat (key : List Byte) (b : Byte) :
    fnvSeed (key ++ [b]) = (fnvSeed key ^^^ b.setWidth 32) * 0x01000193#32 := by
  rw [fnvSeed, List.foldl_concat, fnvSeed]

/-- R124 with the pseudocode's masks: a word of 32 bits is within the mask. -/
theorem xorshift_masked (s : Word) :
    xorshift s =
      let s1 := s ^^^ ((s <<< 13) &&& 0xFFFFFFFF#32)
      let s2 := s1 ^^^ (s1 >>> 17)
      s2 ^^^ ((s2 <<< 5) &&& 0xFFFFFFFF#32) := by
  have hmask (x : Word) : x &&& 0xFFFFFFFF#32 = x := BitVec.and_allOnes
  simp only [hmask, xorshift]

theorem initialDraw_ne_zero (seed : Word) : initialDraw seed ≠ 0#32 := by
  unfold initialDraw
  split_ifs with hseed
  · decide
  · exact hseed

section Swap

variable {p : List Nat} {i j : Nat}

theorem swapEntries_getElem?_right (hi : i < p.length) (hj : j < p.length) : (swapEntries p i j)[j]? = p[i]? := by
  rw [swapEntries, List.getElem?_set_self (by rwa [List.length_set]), List.getD_eq_getElem _ _ hi,
    List.getElem?_eq_getElem hi]

theorem swapEntries_getElem?_left (hi : i < p.length) (hj : j < p.length) : (swapEntries p i j)[i]? = p[j]? := by
  by_cases hij : j = i
  · subst hij
    exact swapEntries_getElem?_right hi hj
  · rw [swapEntries, List.getElem?_set_ne hij, List.getElem?_set_self hi, List.getD_eq_getElem _ _ hj,
      List.getElem?_eq_getElem hj]

theorem swapEntries_getElem?_other {k : Nat} (hi : k ≠ i) (hj : k ≠ j) : (swapEntries p i j)[k]? = p[k]? := by
  rw [swapEntries, List.getElem?_set_ne hj.symm, List.getElem?_set_ne hi.symm]

end Swap

/-- R126: the recursion on the loop's counter is the loop over the counter's values from `n` down to 1. -/
theorem shuffle_eq_foldl (n : Nat) (x : Word) (p : List Nat) :
    shuffle n x p = (((List.range n).map (· + 1)).reverse.foldl
      (fun c i => (xorshift c.1, swapEntries c.2 i ((xorshift c.1).toNat % (i + 1)))) (x, p)).2 := by
  induction n generalizing x p with
  | zero => rfl
  | succ n ih =>
    rw [shuffle, ih, List.range_succ, List.map_append, List.reverse_append]
    rfl

/-- Settles O15, piece by piece. -/
theorem defaultGeneratorFollowsThePseudocode : Obligations.DefaultGeneratorFollowsThePseudocode := by
  refine ⟨⟨rfl, fnvSeed_concat⟩, ?_, fun seed => ⟨rfl, initialDraw_ne_zero seed⟩, fun p i j hi hj => ?_, fun key n => ?_⟩
  · rintro s s1 s2 rfl rfl
    exact xorshift_masked s
  · exact ⟨swapEntries_length p i j, swapEntries_getElem?_left hi hj, swapEntries_getElem?_right hi hj,
      fun k => swapEntries_getElem?_other⟩
  · exact shuffle_eq_foldl ..

/-! ### PERM (R128) -/

/-- R128: the whole of PERM's own rule, when the key it reads, if any, is specified. -/
theorem performPerm_specified {keyed : Bool} {s : State} (hkey : keyed = true → KeySpecified s) :
    performPerm keyed s = .ok { s with perm := storePerm (pathOf keyed s) s.perm } := by
  rw [performPerm, traversal_specified hkey, except_ok_bind]

theorem read_storePerm_pathOf (keyed : Bool) (s : State) (k : Nat) :
    Ram.read (storePerm (pathOf keyed s) s.perm) k =
      if k < s.pixelLen.toNat then some (BitVec.ofNat 32 ((pathOf keyed s).getD k 0)) else Ram.read s.perm k := by
  rw [read_storePerm, pathOf_length]

/-- Settles O16: the path of an unkeyed command is the identity. -/
theorem permCompletes : Obligations.PermCompletes := by
  intro s w hbusy
  refine ⟨storePerm (pathOf false s) s.perm, ?_, fun k => ?_⟩
  · rw [exec_busy .perm hbusy, complete_next_iff]
    exact ⟨_, performPerm_specified nofun, rfl⟩
  · rw [read_storePerm_pathOf]
    split_ifs with hk
    · rw [pathOf, if_neg Bool.false_ne_true, List.getD_eq_getElem _ _ (by rwa [List.length_range]), List.getElem_range]
    · rfl

/-- Settles O17: the path of a keyed command with a specified key is the generator's answer to the key. -/
theorem permKeyedCompletes : Obligations.PermKeyedCompletes := by
  intro s w hbusy hkey
  refine ⟨storePerm (pathOf true s) s.perm, ?_, read_storePerm_pathOf true s⟩
  rw [exec_busy .permK hbusy, complete_next_iff]
  exact ⟨_, performPerm_specified fun _ => hkey, rfl⟩

end Sys2Proof.Machine

/-! The family 42_keyed_encoder: what the complete step of EMBED leaves (R141 to R151), and what the capacity says of it
(R115, R147). -/

namespace Sys2Proof.Machine

/-! ### Groups of units along a path (R142) -/

/-- R142: byte `b` stands in bit 0 of the `m`-th group of 8 units of `p`; the units keep their bits 7:1, a specified one
its own. -/
def GroupWritten (old : Ram 8) (p : List Nat) (m : Nat) (b : Byte) (new : Ram 8) : Prop :=
  ∀ j, j < 8 → ∃ v0, (∀ v, Ram.read old (p.getD (8 * m + j) 0) = some v → v = v0) ∧
    Ram.read new (p.getD (8 * m + j) 0) = some (withBit0 v0 (b.getLsbD j))

/-- What EMBED does to PIXEL RAM along the path `p` (R141): the payload's groups, the sentinel's group, and the rest. -/
structure EmbeddedAlong (s : State) (p : List Nat) (pix : Ram 8) : Prop where
  /-- A specified payload byte goes to its group; an unspecified one is a free value. -/
  payload : ∀ m, m < embedCount s → ∃ b, (∀ v, Ram.read s.pay m = some v → v = b) ∧ GroupWritten s.pix p m b pix
  sentinelGroup : embedSentinelFits s = true → GroupWritten s.pix p (embedCount s) sentinel pix
  others : ∀ u, u ∉ p.take (embedUnits s) → Ram.read pix u = Ram.read s.pix u

/-- EMBED's result registers and flags, and the permutation it leaves in PERM RAM when keyed (R145, R146, R128). -/
def embedResults (keyed : Bool) (p : List Nat) (s : State) (pix : Ram 8) (draws : Nat) : State :=
  { s with
    perm := if keyed then storePerm p s.perm else s.perm
    pix := pix
    draws := draws
    embCount := BitVec.ofNat 32 (embedCount s)
    unitsUsed := BitVec.ofNat 32 (embedUnits s)
    trunc := decide (embedCount s < s.payloadLen.toNat)
    sentWr := embedSentinelFits s }

theorem embedUnits_eq (s : State) :
    embedUnits s = 8 * embedCount s + if 8 ≤ s.pixelLen.toNat - 8 * embedCount s then 8 else 0 := by
  simp only [embedUnits, embedSentinelFits, decide_eq_true_eq]

theorem embedSentinelFits_iff (s : State) :
    embedSentinelFits s = true ↔ 8 ≤ s.pixelLen.toNat - 8 * embedCount s := by
  rw [embedSentinelFits, decide_eq_true_eq]

theorem embedCount_le (s : State) : embedCount s ≤ s.payloadLen.toNat ∧ embedCount s ≤ s.pixelLen.toNat / 8 :=
  ⟨Nat.min_le_left _ _, Nat.min_le_right _ _⟩

theorem embedUnits_le (s : State) : embedUnits s ≤ s.pixelLen.toNat := by
  have := (embedCount_le s).2
  rw [embedUnits_eq]
  split_ifs <;> omega

/-! ### The sentinel (R146) -/

theorem embedSentinel_none {mode : UnwrittenRead} {units : List Nat} (c : Carrier) (h : ¬8 ≤ units.length) :
    embedSentinel mode units c = .ok (false, c) := by
  rw [embedSentinel, if_neg h]

/-- Everything a successful writing of the sentinel does: all of it when 8 units are left, nothing otherwise. -/
theorem embedSentinel_ok {mode : UnwrittenRead} {units : List Nat} {c c' : Carrier} {sent : Bool} (hnd : units.Nodup)
    (h : embedSentinel mode units c = .ok (sent, c')) :
    sent = decide (8 ≤ units.length) ∧
    (sent = true → GroupWritten c.pix units 0 sentinel c'.pix) ∧
    (∀ u, u ∉ units.take (if 8 ≤ units.length then 8 else 0) → Ram.read c'.pix u = Ram.read c.pix u) ∧
    ((∀ u ∈ units.take (if 8 ≤ units.length then 8 else 0), Specified c.pix u) → c'.draws = c.draws) := by
  by_cases h8 : 8 ≤ units.length
  · simp only [embedSentinel, if_pos h8, except_bind_ok, Except.ok.injEq, Prod.mk.injEq] at h
    obtain ⟨c1, hwrite, rfl, rfl⟩ := h
    have hlen : (units.take 8).length = (bitsOfByte sentinel).length := by
      rw [List.length_take, bitsOfByte_length, Nat.min_eq_left h8]
    obtain ⟨hothers, hunits, hdraws⟩ := writeUnits_ok (hnd.sublist (List.take_sublist ..)) hlen hwrite
    simp only [if_pos h8]
    refine ⟨(decide_eq_true h8).symm, fun _ j hj => ?_, hothers, hdraws⟩
    obtain ⟨v0, hold, hnew⟩ := hunits j (by rw [hlen, bitsOfByte_length]; exact hj)
    have hunit : units.getD (8 * 0 + j) 0 = (units.take 8)[j]'(by rw [hlen, bitsOfByte_length]; exact hj) := by
      rw [List.getD_eq_getElem _ _ (by omega), List.getElem_take]
      simp only [Nat.mul_zero, Nat.zero_add]
    rw [hunit]
    exact ⟨v0, hold, by rw [hnew, bitsOfByte_get _ hj]⟩
  · rw [embedSentinel_none c h8, Except.ok.injEq, Prod.mk.injEq] at h
    obtain ⟨rfl, rfl⟩ := h
    exact ⟨(decide_eq_false h8).symm, nofun, fun _ _ => rfl, fun _ => rfl⟩

/-! ### The complete step (R141) -/

section Entries

variable {p : List Nat} {i n : Nat}

theorem getD_mem_take (hi : i < n) (hn : n ≤ p.length) : p.getD i 0 ∈ p.take n := by
  rw [List.getD_eq_getElem _ _ (hi.trans_le hn)]
  exact List.mem_take_iff_getElem.2 ⟨i, by omega, rfl⟩

theorem getD_drop : (p.drop n).getD i 0 = p.getD (n + i) 0 := by
  rw [List.getD_eq_getElem?_getD, List.getElem?_drop, ← List.getD_eq_getElem?_getD]

/-- The entries of a path are distinct, so one from `n` on is none of the first `n`. -/
theorem getD_notMem_take (hp : p.Nodup) (hn : n ≤ i) (hi : i < p.length) : p.getD i 0 ∉ p.take n := by
  intro hmem
  refine List.disjoint_take_drop hp (Nat.le_refl n) hmem ?_
  rw [show i = n + (i - n) by omega, ← getD_drop, List.getD_eq_getElem _ _ (by rw [List.length_drop]; omega)]
  exact List.getElem_mem _

end Entries

theorem nodup_of_path {p : List Nat} {n : Nat} (hp : p.Perm (List.range n)) : p.Nodup :=
  hp.nodup_iff.2 List.nodup_range

theorem length_of_path {p : List Nat} {n : Nat} (hp : p.Perm (List.range n)) : p.length = n := by
  rw [hp.length_eq, List.length_range]

theorem take_embedUnits (s : State) {p : List Nat} (hlen : p.length = s.pixelLen.toNat) :
    p.take (embedUnits s) = p.take (8 * embedCount s) ++
      (p.drop (8 * embedCount s)).take (if 8 ≤ (p.drop (8 * embedCount s)).length then 8 else 0) := by
  rw [embedUnits_eq, List.take_add, List.length_drop, hlen]

/-- A writing of groups is the same seen from a RAM that holds the same in the group's units before it, and from one that
holds the same after it. -/
theorem GroupWritten.congr {old old' new new' : Ram 8} {p p' : List Nat} {m m' : Nat} {b : Byte}
    (h : GroupWritten old p m b new) (hp : ∀ j, j < 8 → p'.getD (8 * m' + j) 0 = p.getD (8 * m + j) 0)
    (hold : ∀ j, j < 8 → Ram.read old' (p.getD (8 * m + j) 0) = Ram.read old (p.getD (8 * m + j) 0))
    (hnew : ∀ j, j < 8 → Ram.read new' (p.getD (8 * m + j) 0) = Ram.read new (p.getD (8 * m + j) 0)) :
    GroupWritten old' p' m' b new' := by
  intro j hj
  rw [hp j hj, hold j hj, hnew j hj]
  exact h j hj

/-- The payload loop and the sentinel after it, over a whole path (R141). -/
theorem embedLoop_ok {mode : UnwrittenRead} {s : State} {p : List Nat} {d : Nat} {e : Embedded} {sent : Bool}
    {c : Carrier} (hp : p.Perm (List.range s.pixelLen.toNat))
    (hloop : embedBytes mode s.pay s.payloadLen.toNat 0 p { pix := s.pix, draws := d } = .ok e)
    (hsentinel : embedSentinel mode e.rest e.carrier = .ok (sent, c)) :
    e.count = embedCount s ∧ sent = embedSentinelFits s ∧ EmbeddedAlong s p c.pix ∧
    ((∀ k, k < embedCount s → Specified s.pay k) → (∀ u ∈ p.take (embedUnits s), Specified s.pix u) → c.draws = d) := by
  have hlen := length_of_path hp
  have hnd := nodup_of_path hp
  obtain ⟨hcount, hrest⟩ := embedBytes_count hloop
  obtain ⟨hothers, hbytes, hdraws⟩ := embedBytes_ok hnd hloop
  rw [hlen, ← embedCount] at hcount hrest hothers hbytes hdraws
  rw [hrest] at hsentinel
  obtain ⟨hsent, hgroup, hothers', hdraws'⟩ := embedSentinel_ok (hnd.sublist (List.drop_sublist ..)) hsentinel
  have hfits : sent = embedSentinelFits s := by rw [hsent, embedSentinelFits, List.length_drop, hlen]
  have hdisjoint (u : Nat) (hu : u ∈ p.take (8 * embedCount s)) (n : Nat) :
      u ∉ (p.drop (8 * embedCount s)).take n := fun hu' =>
    List.disjoint_take_drop hnd (Nat.le_refl _) hu (List.mem_of_mem_take hu')
  have hle := (embedCount_le s).2
  refine ⟨by rw [hcount, Nat.zero_add], hfits, ⟨fun m hm => ?_, fun hf => ?_, fun u hu => ?_⟩, fun hpay hpix => ?_⟩
  · obtain ⟨b, hb, hwritten⟩ := hbytes m hm
    rw [Nat.zero_add] at hb
    refine ⟨b, hb, GroupWritten.congr (fun j hj => hwritten j hj) (fun _ _ => rfl) (fun _ _ => rfl) fun j hj => ?_⟩
    exact hothers' _ (hdisjoint _ (getD_mem_take (by omega) (by omega)) _)
  · have hroom := (embedSentinelFits_iff s).1 hf
    have hentry (j : Nat) : (p.drop (8 * embedCount s)).getD (8 * 0 + j) 0 = p.getD (8 * embedCount s + j) 0 := by
      rw [getD_drop, Nat.mul_zero, Nat.zero_add]
    refine (hgroup (hfits.trans hf)).congr (fun j _ => (hentry j).symm) (fun j hj => ?_) fun _ _ => rfl
    rw [hentry]
    exact (hothers _ (getD_notMem_take hnd (by omega) (by omega))).symm
  · rw [take_embedUnits s hlen, List.mem_append, not_or] at hu
    rw [hothers' u hu.2, hothers u hu.1]
  · rw [take_embedUnits s hlen] at hpix
    have hfirst := hdraws (by simpa only [Nat.zero_add] using hpay) fun u hu => hpix u (List.mem_append_left _ hu)
    rw [hdraws' fun u hu => ?_, hfirst]
    rw [Specified, hothers u fun hu' => hdisjoint u hu' _ hu]
    exact hpix u (List.mem_append_right _ hu)

/-- R141, R145: everything EMBED's own rule can do when it answers, whatever UNWRITTEN_READ is. -/
theorem performEmbed_effect {keyed : Bool} {s t : State} (h : performEmbed keyed s = .ok t) :
    ∃ p d, traversal keyed s = .ok (p, d) ∧ EmbeddedAlong s p t.pix ∧ t = embedResults keyed p s t.pix t.draws ∧
      ((∀ k, k < embedCount s → Specified s.pay k) → (∀ u ∈ p.take (embedUnits s), Specified s.pix u) → t.draws = d) := by
  obtain ⟨p, d, e, sent, c, htraversal, hloop, hsentinel, rfl⟩ := performEmbed_ok h
  obtain ⟨hcount, hsent, hembedded, hdraws⟩ := embedLoop_ok (traversal_perm htraversal) hloop hsentinel
  refine ⟨p, d, htraversal, hembedded, ?_, hdraws⟩
  rw [hcount, hsent]
  rfl

theorem embedSentinel_answers {mode : UnwrittenRead} {units : List Nat} (c : Carrier)
    (h : mode = .draw ∨ ∀ u ∈ units.take (if 8 ≤ units.length then 8 else 0), Specified c.pix u) :
    ∃ sent c', embedSentinel mode units c = .ok (sent, c') := by
  by_cases h8 : 8 ≤ units.length
  · rw [if_pos h8] at h
    obtain ⟨c', hc'⟩ := writeUnits_answers (units.take 8) (bitsOfByte sentinel) c h
    exact ⟨true, c', by rw [embedSentinel, if_pos h8, hc', except_ok_bind]⟩
  · exact ⟨false, c, embedSentinel_none c h8⟩

/-- EMBED's own rule answers when the path is known and what it reads past the key is specified, or free (R79, R144). -/
theorem performEmbed_answers {keyed : Bool} {s : State} {p : List Nat} {d : Nat} (hp : traversal keyed s = .ok (p, d))
    (h : s.params.unwritten = .draw ∨
      (∀ k, k < embedCount s → Specified s.pay k) ∧ ∀ u ∈ p.take (embedUnits s), Specified s.pix u) :
    ∃ t, performEmbed keyed s = .ok t := by
  have hlen := length_of_path (traversal_perm hp)
  have hnd := nodup_of_path (traversal_perm hp)
  rw [take_embedUnits s hlen] at h
  obtain ⟨e, hloop⟩ := embedBytes_answers (mode := s.params.unwritten) (pay := s.pay) (left := s.payloadLen.toNat)
    (k := 0) (c := { pix := s.pix, draws := d }) hnd (h.imp id fun h => by
      rw [hlen]
      exact ⟨fun m hm => by rw [Nat.zero_add]; exact h.1 m hm, fun u hu => h.2 u (List.mem_append_left _ hu)⟩)
  obtain ⟨-, hrest⟩ := embedBytes_count hloop
  obtain ⟨hothers, -, -⟩ := embedBytes_ok hnd hloop
  rw [hlen, ← embedCount] at hrest hothers
  obtain ⟨sent, c, hsentinel⟩ := embedSentinel_answers (mode := s.params.unwritten) (units := e.rest) e.carrier
    (h.imp id fun h u hu => by
      rw [hrest] at hu
      rw [Specified, hothers u fun hu' =>
        List.disjoint_take_drop hnd (Nat.le_refl _) hu' (List.mem_of_mem_take hu)]
      exact h.2 u (List.mem_append_right _ hu))
  exact ⟨_, by rw [performEmbed, hp, except_ok_bind]; simp only; rw [hloop, except_ok_bind, hsentinel, except_ok_bind]⟩

/-! ### The four EMBED commands -/

theorem performOf_embed {i : Instr} (h : i.operation = .embed) : performOf i = performEmbed i.keyed := by
  simp only [performOf, h]

/-- The four EMBED commands are those whose operation is EMBED (R96). -/
theorem mem_embeds_iff {i : Instr} : i ∈ [Instr.embed, .embedK, .embedS, .embedKS] ↔ i.operation = .embed := by
  cases i <;> decide

/-- R188: while BUSY a command completes exactly when its own rule answers. -/
theorem exec_busy_next_iff {i : Instr} {s t : State} {w : Word} (hbusy : s.engine = .busy w) :
    exec i s = .next t ↔ ∃ t', performOf i s = .ok t' ∧ t = finish t' := by
  rw [exec_busy i hbusy, complete_next_iff]

section EmbedCommands

variable {i : Instr} {s t : State} {w : Word}

/-- R141, R145: all that a completed EMBED can leave, whatever UNWRITTEN_READ is. -/
theorem exec_embed_effect (hop : i.operation = .embed) (hbusy : s.engine = .busy w) (h : exec i s = .next t) :
    ∃ p d, traversal i.keyed s = .ok (p, d) ∧ EmbeddedAlong s p t.pix ∧
      t = finish (embedResults i.keyed p s t.pix t.draws) := by
  obtain ⟨t', ht', rfl⟩ := (exec_busy_next_iff hbusy).1 h
  rw [performOf_embed hop] at ht'
  obtain ⟨p, d, htraversal, hembedded, hresults, -⟩ := performEmbed_effect ht'
  exact ⟨p, d, htraversal, hembedded, congrArg finish hresults⟩

/-- R141, R144: an EMBED whose operands are specified completes along its path and draws nothing. -/
theorem exec_embed_readable (hop : i.operation = .embed) (hbusy : s.engine = .busy w) (hreadable : Readable i s) :
    ∃ t, exec i s = .next t ∧ EmbeddedAlong s (pathOf i.keyed s) t.pix ∧
      t = finish (embedResults i.keyed (pathOf i.keyed s) s t.pix s.draws) := by
  obtain ⟨hkey, hembed, -⟩ := hreadable
  obtain ⟨hpay, hpix⟩ := hembed hop
  have hpath := traversal_specified hkey
  obtain ⟨t', ht'⟩ := performEmbed_answers hpath (.inr ⟨hpay, hpix⟩)
  obtain ⟨p, d, htraversal, hembedded, hresults, hdraws⟩ := performEmbed_effect ht'
  obtain ⟨rfl, rfl⟩ := Prod.mk.inj (Except.ok.inj (hpath.symm.trans htraversal))
  rw [hdraws hpay hpix] at hresults
  exact ⟨_, (exec_busy_next_iff hbusy).2 ⟨t', by rw [performOf_embed hop]; exact ht', rfl⟩, hembedded,
    congrArg finish hresults⟩

end EmbedCommands

/-- Settles O19: the closed form of the results, and of PERM RAM after a command that stores its path only when keyed. -/
theorem embedCompletes : Obligations.EmbedCompletes := by
  intro i hi s w hbusy hreadable
  obtain ⟨t, ht, -, hresults⟩ := exec_embed_readable (mem_embeds_iff.1 hi) hbusy hreadable
  refine ⟨t.pix, if i.keyed then storePerm (pathOf i.keyed s) s.perm else s.perm, ?_, read_perm_of_path i.keyed s⟩
  rw [ht, hresults, embedResults, embedUnits_eq]
  rfl

/-- A group of units that has been written along specified units: what each held and what it holds. -/
theorem GroupWritten.specified {old new : Ram 8} {p : List Nat} {m : Nat} {b : Byte} (h : GroupWritten old p m b new)
    {j : Nat} (hj : j < 8) (hspec : Specified old (p.getD (8 * m + j) 0)) :
    ∃ v, Ram.read old (p.getD (8 * m + j) 0) = some v ∧
      Ram.read new (p.getD (8 * m + j) 0) = some (withBit0 v (b.getLsbD j)) := by
  obtain ⟨v0, hold, hnew⟩ := h j hj
  obtain ⟨v, hv⟩ := Option.isSome_iff_exists.1 hspec
  exact ⟨v, hv, by rw [hnew, hold v hv]⟩

/-- Settles O20: every unit that EMBED writes is specified, so the group written is the old one but for bit 0. -/
theorem embedWritesPayloadBits : Obligations.EmbedWritesPayloadBits := by
  intro i hi s w hbusy hreadable
  have hop := mem_embeds_iff.1 hi
  obtain ⟨t, ht, hembedded, -⟩ := exec_embed_readable hop hbusy hreadable
  obtain ⟨-, hembed, -⟩ := hreadable
  obtain ⟨hpay, hpix⟩ := hembed hop
  have hunits : embedUnits s ≤ (pathOf i.keyed s).length := by rw [pathOf_length]; exact embedUnits_le s
  have heq := embedUnits_eq s
  refine ⟨t, ht, fun k j hk hj => ?_, fun hfits j hj => ?_, hembedded.others⟩
  · obtain ⟨b, hb, hgroup⟩ := hembedded.payload k hk
    obtain ⟨v, hv⟩ := Option.isSome_iff_exists.1 (hpay k hk)
    obtain ⟨old, hold, hnew⟩ := hgroup.specified hj (hpix _ (getD_mem_take (by omega) hunits))
    exact ⟨v, old, hv, hold, by rw [hnew, hb v hv]; rfl⟩
  · have hroom := (embedSentinelFits_iff s).1 hfits
    rw [if_pos hroom] at heq
    exact (hembedded.sentinelGroup hfits).specified hj (hpix _ (getD_mem_take (by omega) hunits))

/-- R71: replacing bit 0 keeps the other bits. -/
theorem withBit0_and_fe (old : Byte) (b : Bool) : withBit0 old b &&& 0xFE#8 = old &&& 0xFE#8 := by
  revert old
  cases b <;> decide

/-- R142: each unit that EMBED writes is in the group of a payload byte or of the sentinel. -/
theorem EmbeddedAlong.written {s : State} {p : List Nat} {pix : Ram 8} (h : EmbeddedAlong s p pix)
    {u : Nat} (hu : u ∈ p.take (embedUnits s)) :
    ∃ m j b, j < 8 ∧ u = p.getD (8 * m + j) 0 ∧ GroupWritten s.pix p m b pix := by
  obtain ⟨n, hn, rfl⟩ := List.mem_take_iff_getElem.1 hu
  have hentry : p[n] = p.getD (8 * (n / 8) + n % 8) 0 := by
    rw [Nat.div_add_mod, List.getD_eq_getElem _ _ (by omega)]
  by_cases hpayload : n / 8 < embedCount s
  · obtain ⟨b, -, hgroup⟩ := h.payload _ hpayload
    exact ⟨n / 8, n % 8, b, Nat.mod_lt _ (by decide), hentry, hgroup⟩
  · have heq := embedUnits_eq s
    split_ifs at heq with hroom
    · have hlast : n / 8 = embedCount s := by omega
      exact ⟨n / 8, n % 8, sentinel, Nat.mod_lt _ (by decide), hentry,
        hlast ▸ h.sentinelGroup ((embedSentinelFits_iff s).2 hroom)⟩
    · omega

/-- R144: a specified unit keeps its bits 7:1. -/
theorem EmbeddedAlong.keeps_high_bits {s : State} {p : List Nat} {pix : Ram 8} (h : EmbeddedAlong s p pix)
    {u : Nat} {v : Byte} (hv : Ram.read s.pix u = some v) :
    ∃ v', Ram.read pix u = some v' ∧ v' &&& 0xFE#8 = v &&& 0xFE#8 := by
  by_cases hu : u ∈ p.take (embedUnits s)
  · obtain ⟨m, j, b, hj, rfl, hgroup⟩ := h.written hu
    obtain ⟨v', hv', hnew⟩ := hgroup.specified hj (Option.isSome_iff_exists.2 ⟨v, hv⟩)
    obtain rfl := Option.some.inj (hv.symm.trans hv')
    exact ⟨_, hnew, withBit0_and_fe _ _⟩
  · exact ⟨v, (h.others u hu).trans hv, rfl⟩

/-- Settles O21: the units written lie on the path, and each keeps its bits 7:1. -/
theorem embedChangesOnlyBitZero : Obligations.EmbedChangesOnlyBitZero := by
  intro i hi s t w hbusy h
  obtain ⟨p, d, htraversal, hembedded, hresults⟩ := exec_embed_effect (mem_embeds_iff.1 hi) hbusy h
  refine ⟨fun u v hv => hembedded.keeps_high_bits hv, fun u hu => hembedded.others u fun hmem => ?_, ?_, ?_⟩
  · have hlt := List.mem_range.1 ((traversal_perm htraversal).mem_iff.1 (List.mem_of_mem_take hmem))
    omega
  · rw [hresults]; rfl
  · rw [hresults]; rfl

/-! ### EMBED and the capacity (R115, R147) -/

/-- R110, R112: the capacity for each supported depth, and 0 for the others. -/
theorem capacityOf_24 (len : Nat) : capacityOf len 24#8 = len / 24 := by
  rw [capacityOf, if_pos rfl, Nat.div_div_eq_div_mul]

theorem capacityOf_8 (len : Nat) : capacityOf len 8#8 = len / 8 := by
  rw [capacityOf, if_neg (by decide), if_pos rfl]

theorem capacityOf_other {bpp : Byte} (len : Nat) (h8 : bpp ≠ 8#8) (h24 : bpp ≠ 24#8) : capacityOf len bpp = 0 := by
  rw [capacityOf, if_neg h24, if_neg h8]

theorem capacityOf_le (len : Nat) (bpp : Byte) : capacityOf len bpp ≤ len / 8 := by
  by_cases h24 : bpp = 24#8
  · rw [h24, capacityOf_24]
    omega
  · by_cases h8 : bpp = 8#8
    · rw [h8, capacityOf_8]
    · rw [capacityOf_other len h8 h24]
      exact Nat.zero_le _

/-- R115: a payload within the capacity is embedded whole. -/
theorem embedCount_of_le_capacity {s : State} (h : s.payloadLen.toNat ≤ capacityOf s.pixelLen.toNat s.bpp) :
    embedCount s = s.payloadLen.toNat :=
  Nat.min_eq_left (h.trans (capacityOf_le _ _))

/-- A completed EMBED of a payload within the capacity is not truncated, and EMB_COUNT is the payload's length. -/
theorem exec_embed_untruncated {i : Instr} {s t : State} {w : Word} (hop : i.operation = .embed)
    (hbusy : s.engine = .busy w) (h : exec i s = .next t)
    (hcap : s.payloadLen.toNat ≤ capacityOf s.pixelLen.toNat s.bpp) :
    t.trunc = false ∧ t.embCount = s.payloadLen := by
  obtain ⟨p, d, -, -, hresults⟩ := exec_embed_effect hop hbusy h
  have hcount := embedCount_of_le_capacity hcap
  rw [hresults]
  simp only [finish_trunc, finish_embCount, embedResults, hcount, Nat.lt_irrefl, decide_false, BitVec.ofNat_toNat,
    BitVec.setWidth_eq, and_self]

/-- R183, row 6: the registers let a strict command in only within the capacity. -/
theorem le_capacity_of_accepted {i : Instr} {s : State} (hstrict : i.strict = true) (h : Accepted i s) :
    s.payloadLen.toNat ≤ capacityOf s.pixelLen.toNat s.bpp := by
  simp only [Accepted, firstFailingRow] at h
  split_ifs at h with _ _ _ _ hrow
  exact not_lt.1 fun hlt => hrow ⟨hstrict, hlt⟩

/-- Settles O22: acceptance bounds the payload by the capacity. -/
theorem strictEmbedNeverTruncates : Obligations.StrictEmbedNeverTruncates := by
  intro i hi s w hbusy haccepted hreadable
  have hcommands : ∀ i ∈ [Instr.embedS, .embedKS], i.operation = .embed ∧ i.strict = true := by decide
  obtain ⟨hop, hstrict⟩ := hcommands i hi
  obtain ⟨t, ht, -, -⟩ := exec_embed_readable hop hbusy hreadable
  exact ⟨t, ht, exec_embed_untruncated hop hbusy ht (le_capacity_of_accepted hstrict haccepted)⟩

/-- R115, R146: when a payload within the capacity leaves no room for the sentinel. -/
theorem embedSentinelFits_eq_false_iff {s : State} (hdepth : s.bpp = 8#8 ∨ s.bpp = 24#8)
    (hcap : s.payloadLen.toNat ≤ capacityOf s.pixelLen.toNat s.bpp) :
    embedSentinelFits s = false ↔
      s.pixelLen.toNat < 8 ∨ s.bpp = 8#8 ∧ s.payloadLen.toNat = s.pixelLen.toNat / 8 := by
  rw [embedSentinelFits, decide_eq_false_iff_not, embedCount_of_le_capacity hcap]
  rcases hdepth with h8 | h24
  · rw [h8, capacityOf_8] at hcap
    simp only [h8, true_and]
    omega
  · rw [h24, capacityOf_24] at hcap
    have hne : ¬24#8 = 8#8 := by decide
    simp only [h24, hne, false_and, or_false]
    omega

/-- Settles O23: within the capacity the payload fits, and the cases without a sentinel are those of the arithmetic. -/
theorem capacityGuaranteesTheFit : Obligations.CapacityGuaranteesTheFit := by
  intro i hi s t w hbusy h hdepth hcap
  have hop := mem_embeds_iff.1 hi
  obtain ⟨htrunc, hcount⟩ := exec_embed_untruncated hop hbusy h hcap
  obtain ⟨p, d, -, -, hresults⟩ := exec_embed_effect hop hbusy h
  have hsent : t.sentWr = embedSentinelFits s := by rw [hresults]; rfl
  have hiff := embedSentinelFits_eq_false_iff hdepth hcap
  refine ⟨htrunc, hcount, by rw [hsent]; exact hiff, fun hroom => ?_⟩
  rw [hsent, ← Bool.not_eq_false, hiff]
  have hle := capacityOf_le s.pixelLen.toNat s.bpp
  omega

/-! ### The key of an unkeyed command (R50, R148, R171) -/

/-- The state with another key. -/
def rekeyed (len : Word) (key : Ram 8) (s : State) : State := { s with keyLen := len, key := key }

/-- R148: an unkeyed EMBED keeps PERM RAM, and its path and its loops take nothing from the key. -/
theorem performEmbed_unkeyed {s t : State} (h : performEmbed false s = .ok t) :
    t.perm = s.perm ∧ ∀ len key, performEmbed false (rekeyed len key s) = .ok (rekeyed len key t) := by
  obtain ⟨p, d, e, sent, c, htraversal, hloop, hsentinel, rfl⟩ := performEmbed_ok h
  refine ⟨rfl, fun len key => ?_⟩
  have htraversal' : traversal false (rekeyed len key s) = .ok (p, d) := htraversal
  rw [performEmbed, htraversal', except_ok_bind]
  simp only [rekeyed, hloop, hsentinel, except_ok_bind]
  rfl

/-- R171: the same of an unkeyed EXTRACT. -/
theorem performExtract_unkeyed {s t : State} (h : performExtract false s = .ok t) :
    t.perm = s.perm ∧ ∀ len key, performExtract false (rekeyed len key s) = .ok (rekeyed len key t) := by
  obtain ⟨p, d, x, htraversal, hloop, rfl⟩ := performExtract_ok h
  refine ⟨rfl, fun len key => ?_⟩
  have htraversal' : traversal false (rekeyed len key s) = .ok (p, d) := htraversal
  rw [performExtract, htraversal', except_ok_bind]
  simp only [rekeyed, hloop, except_ok_bind]

/-- Settles O18: completion adds to the command's own rule only BUSY and DONE. -/
theorem unkeyedCommandsIgnoreTheKey : Obligations.UnkeyedCommandsIgnoreTheKey := by
  intro i hi s t w hbusy h
  have hcommands : ∀ i ∈ [Instr.embed, .embedS, .extract],
      i.keyed = false ∧ (i.operation = .embed ∨ i.operation = .extract) := by decide
  obtain ⟨hkeyed, hop⟩ := hcommands i hi
  obtain ⟨t', ht', rfl⟩ := (exec_busy_next_iff hbusy).1 h
  have hrule : t'.perm = s.perm ∧ ∀ len key, performOf i (rekeyed len key s) = .ok (rekeyed len key t') := by
    rcases hop with hop | hop
    · rw [performOf_embed hop, hkeyed] at ht' ⊢
      exact performEmbed_unkeyed ht'
    · rw [performOf_extract hop, hkeyed] at ht' ⊢
      exact performExtract_unkeyed ht'
  obtain ⟨hperm, hrekeyed⟩ := hrule
  exact ⟨hperm, fun len key => (exec_busy_next_iff (s := rekeyed len key s) hbusy).2 ⟨_, hrekeyed len key, rfl⟩⟩

end Sys2Proof.Machine

/-! The invariant of the machine: it holds after reset, every step keeps it (R7, R29, R32, R44, R47 to R50, R121, R143,
R146, R166, R180, R187), and in it no step is refused. -/

namespace Sys2Proof.Machine

/-! ### After reset -/

/-- R222: right after power-on no cell is listed and every register is 0, so only the parameters carry a fact. -/
theorem invariant_afterPowerOn {p : Params} (hp : p.Legal) (ts : List Turn) (d : Nat) :
    Invariant (State.afterPowerOn p ts d) where
  legal := hp
  ramsWf := ⟨Ram.wf_nil, Ram.wf_nil, Ram.wf_nil, Ram.wf_nil⟩
  ramsInside := ⟨nofun, nofun, nofun, nofun⟩
  permEntries := nofun
  errCoded := iff_of_true rfl rfl
  truncated := nofun
  wholeGroups := dvd_zero 8
  embedFits := Nat.zero_le _
  outFits := Nat.zero_le _
  held := nofun

theorem resetParams_legal : Config.resetParams.Legal := by
  decide

/-- Settles O33: the parameters of log entry 1 are legal. -/
theorem invariantAtReset : Obligations.InvariantAtReset :=
  invariant_afterPowerOn resetParams_legal [] 0

/-! ### Host accesses -/

section HostSide

variable {s : State}

/-- No field of the invariant speaks of OVERRUN, IRQ_EN or the model's own fields. -/
theorem Invariant.portFields (h : Invariant s) (overrun : Bool) (irqEn : BitVec 3) (inputs : List Turn)
    (response : Option Response) (draws : Nat) :
    Invariant { s with overrun := overrun, irqEn := irqEn, inputs := inputs, response := response, draws := draws } where
  legal := h.legal
  ramsWf := h.ramsWf
  ramsInside := h.ramsInside
  permEntries := h.permEntries
  errCoded := h.errCoded
  truncated := h.truncated
  wholeGroups := h.wholeGroups
  embedFits := h.embedFits
  outFits := h.outFits
  held := h.held

/-- R26: an acknowledgement clears ERR and ERRCODE together, and DONE is clear already while BUSY. -/
theorem Invariant.acknowledge (h : Invariant s) (v : Word) : Invariant (acknowledge v s) where
  legal := h.legal
  ramsWf := h.ramsWf
  ramsInside := h.ramsInside
  permEntries := h.permEntries
  errCoded := by
    rw [acknowledge_err, acknowledge_errcode]
    cases v.getLsbD 2 with
    | false => simpa using h.errCoded
    | true => simp
  truncated := h.truncated
  wholeGroups := h.wholeGroups
  embedFits := h.embedFits
  outFits := h.outFits
  held := fun w hw => by
    obtain ⟨hlast, hdone, hflags⟩ := h.held w hw
    refine ⟨hlast, ?_, hflags⟩
    rw [acknowledge_done, hdone, Bool.false_and]

/-- While IDLE nothing is held, so the lengths, the depth and LAST_CMD are free. -/
theorem Invariant.idleRegisters (h : Invariant s) (hidle : s.engine = .idle) (lastCmd pixelLen keyLen payloadLen : Word)
    (bpp : Byte) :
    Invariant { s with
      lastCmd := lastCmd, pixelLen := pixelLen, bpp := bpp, keyLen := keyLen, payloadLen := payloadLen } where
  legal := h.legal
  ramsWf := h.ramsWf
  ramsInside := h.ramsInside
  permEntries := h.permEntries
  errCoded := h.errCoded
  truncated := h.truncated
  wholeGroups := h.wholeGroups
  embedFits := h.embedFits
  outFits := h.outFits
  held := fun _ hw => absurd (hidle.symm.trans hw) Engine.noConfusion

/-- Cells written below the size of a RAM stay inside it. -/
theorem Ram.inside_writeList {w : Nat} {m : Ram w} {size o : Nat} {vs : List (BitVec w)} (h : m.inside size)
    (hfit : o + vs.length ≤ size) : (Ram.writeList m o vs).inside size := by
  intro c hc
  rcases Ram.mem_writeList hc with hc | ⟨-, hlt, -⟩
  · exact h c hc
  · exact hlt.trans_le hfit

/-- New contents of the byte RAMs keep the invariant when they are canonical and inside; no other field depends on them. -/
theorem Invariant.byteRams (h : Invariant s) {key pay pix : Ram 8} (hwf : key.wf ∧ pay.wf ∧ pix.wf)
    (hkey : key.inside s.params.kMax.toNat) (hpay : pay.inside s.params.pMax.toNat)
    (hpix : pix.inside s.params.nMax.toNat) : Invariant { s with key := key, pay := pay, pix := pix } where
  legal := h.legal
  ramsWf := by
    obtain ⟨hkeyWf, hpayWf, hpixWf⟩ := hwf
    obtain ⟨-, -, -, hpermWf⟩ := h.ramsWf
    exact ⟨hkeyWf, hpayWf, hpixWf, hpermWf⟩
  ramsInside := by
    obtain ⟨-, -, -, hperm⟩ := h.ramsInside
    exact ⟨hkey, hpay, hpix, hperm⟩
  permEntries := h.permEntries
  errCoded := h.errCoded
  truncated := h.truncated
  wholeGroups := h.wholeGroups
  embedFits := h.embedFits
  outFits := h.outFits
  held := h.held

/-- R181: a rejection sets ERR with a code, and no code of a rejection is 0. -/
theorem Invariant.reject (h : Invariant s) (hidle : s.engine = .idle) {code : ErrCode} (hcode : code ≠ .noError) :
    Invariant (reject code s) where
  legal := h.legal
  ramsWf := h.ramsWf
  ramsInside := h.ramsInside
  permEntries := h.permEntries
  errCoded := iff_of_false nofun hcode
  truncated := h.truncated
  wholeGroups := h.wholeGroups
  embedFits := h.embedFits
  outFits := h.outFits
  held := fun _ hw => absurd (hidle.symm.trans hw) Engine.noConfusion

/-- R187: an acceptance holds the command word just noted and clears DONE and the result flags. -/
theorem Invariant.accept (h : Invariant s) {i : Instr} (haccepted : Accepted i s) :
    Invariant (accept (commandWord i) (noteCommand (commandWord i) s)) where
  legal := h.legal
  ramsWf := h.ramsWf
  ramsInside := h.ramsInside
  permEntries := h.permEntries
  errCoded := h.errCoded
  truncated := nofun
  wholeGroups := h.wholeGroups
  embedFits := h.embedFits
  outFits := h.outFits
  held := fun w hw => by
    obtain rfl := Engine.busy.inj hw
    exact ⟨rfl, rfl, rfl, rfl, rfl, i, decode_ok_iff.2 (encode_eq_commandWord i).symm, haccepted⟩

end HostSide

/-- R182, R183: a failing row reports a nonzero code. -/
theorem firstFailingRow_ne_noError {i : Instr} {s : State} {code : ErrCode} (h : firstFailingRow i s = some code) :
    code ≠ .noError := by
  rintro rfl
  unfold firstFailingRow at h
  split_ifs at h
  all_goals exact absurd (Option.some.inj h) ErrCode.noConfusion

/-- R180: while IDLE a command is rejected with a nonzero code, or it is accepted. -/
theorem exec_idle_cases {i : Instr} {s t : State} (hidle : s.engine = .idle) (h : exec i s = .next t) :
    (∃ code, code ≠ ErrCode.noError ∧ t = reject code (noteCommand (commandWord i) s)) ∨
      Accepted i s ∧ t = accept (commandWord i) (noteCommand (commandWord i) s) := by
  cases hrow : firstFailingRow i s with
  | some code =>
    rw [exec_rejected hidle hrow] at h
    exact .inl ⟨code, firstFailingRow_ne_noError hrow, (Host.Outcome.next.inj h).symm⟩
  | none =>
    rw [exec_accepted hidle hrow] at h
    exact .inr ⟨hrow, (Host.Outcome.next.inj h).symm⟩

theorem Invariant.noteCommand {s : State} (h : Invariant s) (hidle : s.engine = .idle) (w : Word) :
    Invariant (noteCommand w s) :=
  h.idleRegisters hidle w s.pixelLen s.keyLen s.payloadLen s.bpp

theorem Invariant.issued {i : Instr} {s t : State} (hinv : Invariant s) (hidle : s.engine = .idle)
    (h : exec i s = .next t) : Invariant t := by
  rcases exec_idle_cases hidle h with ⟨code, hcode, rfl⟩ | ⟨haccepted, rfl⟩
  · exact (hinv.noteCommand hidle (commandWord i)).reject hidle hcode
  · exact hinv.accept haccepted

/-! ### Completion -/

/-- R183: what the passed rows bound: the length of every command but CAP, and the payload's length for EMBED. -/
theorem accepted_lengths {i : Instr} {s : State} (h : Accepted i s) :
    (i.operation ≠ .cap → s.pixelLen.toNat ≤ s.params.nMax.toNat) ∧
      (i.operation = .embed → s.payloadLen.toNat ≤ s.params.pMax.toNat) := by
  simp only [Accepted, firstFailingRow] at h
  split_ifs at h with h2 h3 h4
  exact ⟨fun hop => not_lt.1 fun hlt => h2 ⟨hop, hlt⟩, fun hop => not_lt.1 fun hlt => h4 ⟨hop, hlt⟩⟩

/-- R50, R121: PERM RAM is canonical, inside its size, and filled with indexes of data units. -/
def PermLawful (m : Ram 32) (size : Nat) : Prop := m.wf ∧ m.inside size ∧ ∀ c ∈ m, c.2.toNat < size

/-- R121, law 1: storing a permutation of [0, N) keeps PERM RAM lawful. -/
theorem PermLawful.storePerm {p : List Nat} {n size : Nat} {m : Ram 32} (h : PermLawful m size)
    (hp : p.Perm (List.range n)) (hn : n ≤ size) : PermLawful (storePerm p m) size := by
  obtain ⟨hwf, hinside, hentries⟩ := h
  have hlen := length_of_path hp
  obtain ⟨hkeeps, hmem⟩ := storePerm_wf p m
  refine ⟨hkeeps hwf, fun c hc => ?_, fun c hc => ?_⟩
  · rcases hmem c hc with hc | ⟨hlt, -⟩
    · exact hinside c hc
    · omega
  · rcases hmem c hc with hc | ⟨-, u, hu, hv⟩
    · exact hentries c hc
    · have hun : u < n := List.mem_range.1 (hp.mem_iff.1 hu)
      rw [hv, BitVec.toNat_ofNat]
      exact (Nat.mod_le _ _).trans_lt (hun.trans_le hn)

theorem Invariant.permLawful {s : State} (h : Invariant s) : PermLawful s.perm s.params.nMax.toNat := by
  obtain ⟨-, -, -, hwf⟩ := h.ramsWf
  obtain ⟨-, -, -, hinside⟩ := h.ramsInside
  exact ⟨hwf, hinside, h.permEntries⟩

/-- A keyed command stores its path in PERM RAM, an unkeyed one leaves PERM RAM as it was (R128). -/
theorem Invariant.permLawful_ite {s : State} (h : Invariant s) {keyed : Bool} {p : List Nat} {d : Nat}
    (hp : traversal keyed s = .ok (p, d)) (hn : s.pixelLen.toNat ≤ s.params.nMax.toNat) (b : Bool) :
    PermLawful (if b then storePerm p s.perm else s.perm) s.params.nMax.toNat := by
  cases b with
  | false => exact h.permLawful
  | true => exact h.permLawful.storePerm (traversal_perm hp) hn

/-- What a command's own rule has to keep for the invariant to hold once the command is finished: the engine is then IDLE,
so nothing is said of a held command. -/
structure CompletionKeeps (s t : State) : Prop where
  inputs : t.params = s.params ∧ t.key = s.key ∧ t.err = s.err ∧ t.errcode = s.errcode
  pay : t.pay.wf ∧ t.pay.inside s.params.pMax.toNat
  pix : t.pix.wf ∧ t.pix.inside s.params.nMax.toNat
  perm : PermLawful t.perm s.params.nMax.toNat
  truncated : ¬(t.trunc = true ∧ t.sentWr = true)
  wholeGroups : 8 ∣ t.unitsUsed.toNat
  embedFits : t.embCount.toNat ≤ s.params.pMax.toNat
  outFits : t.outLen.toNat ≤ s.params.pMax.toNat

theorem Invariant.finish {s t : State} (h : Invariant s) (hkeeps : CompletionKeeps s t) : Invariant (finish t) := by
  obtain ⟨⟨hparams, hkey, herr, hcode⟩, ⟨hpayWf, hpay⟩, ⟨hpixWf, hpix⟩, ⟨hpermWf, hperm, hentries⟩, htrunc, hgroups, hemb,
    hout⟩ := hkeeps
  rw [← hparams] at hpay hpix hperm hentries hemb hout
  exact {
    legal := by rw [finish_params, hparams]; exact h.legal
    ramsWf := ⟨by rw [finish_key, hkey]; exact h.ramsWf.1, hpayWf, hpixWf, hpermWf⟩
    ramsInside := ⟨by rw [finish_key, finish_params, hkey, hparams]; exact h.ramsInside.1, hpay, hpix, hperm⟩
    permEntries := hentries
    errCoded := by rw [finish_err, finish_errcode, herr, hcode]; exact h.errCoded
    truncated := htrunc
    wholeGroups := hgroups
    embedFits := hemb
    outFits := hout
    held := nofun }

section CompletionOfRules

variable {s t : State} {keyed : Bool}

/-- What the invariant says of the byte RAMs and the results that a command does not write. -/
theorem Invariant.completionKeeps_refl (h : Invariant s) : CompletionKeeps s s := by
  obtain ⟨-, hpayWf, hpixWf, -⟩ := h.ramsWf
  obtain ⟨-, hpay, hpix, -⟩ := h.ramsInside
  exact { inputs := ⟨rfl, rfl, rfl, rfl⟩, pay := ⟨hpayWf, hpay⟩, pix := ⟨hpixWf, hpix⟩, perm := h.permLawful
          truncated := h.truncated, wholeGroups := h.wholeGroups, embedFits := h.embedFits, outFits := h.outFits }

theorem Invariant.performCap_keeps (h : Invariant s) (ht : performCap s = .ok t) : CompletionKeeps s t := by
  obtain rfl := Except.ok.inj ht
  have hs := h.completionKeeps_refl
  exact { inputs := hs.inputs, pay := hs.pay, pix := hs.pix, perm := hs.perm, truncated := hs.truncated
          wholeGroups := hs.wholeGroups, embedFits := hs.embedFits, outFits := hs.outFits }

theorem Invariant.performPerm_keeps (h : Invariant s) (hn : s.pixelLen.toNat ≤ s.params.nMax.toNat)
    (ht : performPerm keyed s = .ok t) : CompletionKeeps s t := by
  obtain ⟨p, d, htraversal, rfl⟩ := performPerm_ok ht
  have hs := h.completionKeeps_refl
  exact { inputs := hs.inputs, pay := hs.pay, pix := hs.pix, truncated := hs.truncated
          wholeGroups := hs.wholeGroups, embedFits := hs.embedFits, outFits := hs.outFits
          perm := h.permLawful.storePerm (traversal_perm htraversal) hn }

/-- R44: a count of whole groups fits the register and stays a multiple of 8. -/
theorem eight_dvd_unitsUsed (count : Nat) (sent : Bool) :
    8 ∣ (BitVec.ofNat 32 (8 * count + if sent then 8 else 0)).toNat := by
  rw [BitVec.toNat_ofNat]
  split_ifs <;> omega

theorem toNat_ofNat_le {n size : Nat} (h : n ≤ size) : (BitVec.ofNat 32 n).toNat ≤ size := by
  rw [BitVec.toNat_ofNat]
  exact (Nat.mod_le _ _).trans h

/-- R141: the cells EMBED adds to PIXEL RAM are units of its path, which lie below N. -/
theorem Invariant.performEmbed_keeps (h : Invariant s) (hn : s.pixelLen.toNat ≤ s.params.nMax.toNat)
    (hpayload : s.payloadLen.toNat ≤ s.params.pMax.toNat) (ht : performEmbed keyed s = .ok t) : CompletionKeeps s t := by
  obtain ⟨p, d, e, sent, c, htraversal, hloop, hsentinel, rfl⟩ := performEmbed_ok ht
  have hp := traversal_perm htraversal
  obtain ⟨hcount, hsent, -, -⟩ := embedLoop_ok hp hloop hsentinel
  obtain ⟨hloopWf, hloopCells⟩ := embedBytes_wf hloop
  obtain ⟨hsentWf, hsentCells⟩ := embedSentinel_wf hsentinel
  obtain ⟨-, hrest⟩ := embedBytes_count hloop
  have hbelow (u : Nat) (hu : u ∈ p) : u < s.params.nMax.toNat :=
    (List.mem_range.1 (hp.mem_iff.1 hu)).trans_le hn
  have hle := embedCount_le s
  have hs := h.completionKeeps_refl
  refine { inputs := hs.inputs, pay := hs.pay, outFits := hs.outFits
           pix := ⟨hsentWf (hloopWf hs.pix.1), fun x hx => ?_⟩
           perm := h.permLawful_ite htraversal hn keyed
           truncated := ?_
           wholeGroups := eight_dvd_unitsUsed _ _
           embedFits := toNat_ofNat_le (by omega) }
  · rcases hsentCells x hx with hx | hx
    · rcases hloopCells x hx with hx | hx
      · exact hs.pix.2 x hx
      · exact hbelow _ hx
    · rw [hrest] at hx
      exact hbelow _ (List.mem_of_mem_drop hx)
  · rintro ⟨htrunc, hsentWr⟩
    have hlt : e.count < s.payloadLen.toNat := of_decide_eq_true htrunc
    have hroom := (embedSentinelFits_iff s).1 (hsent ▸ hsentWr)
    rw [hcount] at hlt
    have hmin : embedCount s = min s.payloadLen.toNat (s.pixelLen.toNat / 8) := rfl
    omega

/-- R166: EXTRACT outputs at most N div 8 bytes, which PAYLOAD RAM holds (R7). -/
theorem Invariant.performExtract_keeps (h : Invariant s) (hn : s.pixelLen.toNat ≤ s.params.nMax.toNat)
    (ht : performExtract keyed s = .ok t) : CompletionKeeps s t := by
  obtain ⟨p, d, x, htraversal, hloop, rfl⟩ := performExtract_ok ht
  have hlen := length_of_path (traversal_perm htraversal)
  obtain ⟨-, -, hcount, -, -, -⟩ := extractBytes_ok hloop
  obtain ⟨hwf, hcells⟩ := extractBytes_wf hloop
  obtain ⟨-, -, -, -, hpayloadRam, -⟩ := h.legal
  have hfits : x.count ≤ s.params.pMax.toNat := by omega
  have hs := h.completionKeeps_refl
  refine { inputs := hs.inputs, pix := hs.pix, truncated := hs.truncated, embedFits := hs.embedFits
           pay := ⟨hwf hs.pay.1, fun y hy => ?_⟩
           perm := h.permLawful_ite htraversal hn keyed
           wholeGroups := eight_dvd_unitsUsed _ _
           outFits := toNat_ofNat_le hfits }
  rcases hcells y hy with hy | hy
  · exact hs.pay.2 y hy
  · exact hy.trans_le hfits

end CompletionOfRules

/-- R188: the completion of the command that the registers let in keeps the invariant, operation by operation. -/
theorem Invariant.completed {i : Instr} {s t : State} {w : Word} (hinv : Invariant s) (hbusy : s.engine = .busy w)
    (hdecode : decode w = .ok i) (h : exec i s = .next t) : Invariant t := by
  obtain ⟨t', ht', rfl⟩ := (exec_busy_next_iff hbusy).1 h
  obtain ⟨-, -, -, -, -, i', hi', haccepted⟩ := hinv.held w hbusy
  obtain rfl : i = i' := Except.ok.inj (hdecode.symm.trans hi')
  obtain ⟨hn, hpayload⟩ := accepted_lengths haccepted
  refine hinv.finish ?_
  unfold performOf at ht'
  cases hop : i.operation <;> rw [hop] at ht' hn hpayload
  case cap => exact hinv.performCap_keeps ht'
  case perm => exact hinv.performPerm_keeps (hn nofun) ht'
  case embed => exact hinv.performEmbed_keeps (hn nofun) (hpayload rfl) ht'
  case extract => exact hinv.performExtract_keeps (hn nofun) ht'

/-! ### Reset -/

theorem Ram.inside_forget {w : Nat} {m : Ram w} {size : Nat} (h : m.inside size) (n : Nat) :
    (Ram.forget m n).inside size :=
  fun c hc => h c (Ram.mem_forget hc)

/-- R221: a reset only takes cells away. -/
theorem Invariant.assertReset {s : State} (h : Invariant s) : Invariant (assertReset s) := by
  obtain ⟨hkey, hpay, hpix, hperm, -⟩ := abandon_rams s
  obtain ⟨ikey, ipay, ipix, iperm⟩ := h.ramsInside
  exact {
    legal := h.legal
    ramsWf := assertReset_wf h.ramsWf
    ramsInside := by
      rw [assertReset_key, assertReset_pay, assertReset_pix, assertReset_perm, assertReset_params, hkey]
      refine ⟨ikey, ?_, ?_, ?_⟩
      · rcases hpay with hpay | hpay <;> rw [hpay]
        exacts [ipay, Ram.inside_forget ipay _]
      · rcases hpix with hpix | hpix <;> rw [hpix]
        exacts [ipix, Ram.inside_forget ipix _]
      · rcases hperm with hperm | hperm <;> rw [hperm]
        exacts [iperm, Ram.inside_forget iperm _]
    permEntries := fun c hc => by
      rw [assertReset_perm] at hc
      rcases hperm with hperm | hperm <;> rw [hperm] at hc
      exacts [h.permEntries c hc, h.permEntries c (Ram.mem_forget hc)]
    errCoded := iff_of_true rfl rfl
    truncated := nofun
    wholeGroups := dvd_zero 8
    embedFits := Nat.zero_le _
    outFits := Nat.zero_le _
    held := nofun }

/-! ### Every step -/

theorem bytesOfWord_fits {o size : Nat} {n : AccessSize} (v : Word) (h : o + n.bytes ≤ size) :
    o + (bytesOfWord n.bytes v).length ≤ size := by
  rwa [bytesOfWord_length]

/-- Settles O34: one case for each effect a step can have. -/
theorem stepKeepsTheInvariant : Obligations.StepKeepsTheInvariant := by
  intro s t hinv hstep
  obtain ⟨hkeyWf, hpayWf, hpixWf, -⟩ := hinv.ramsWf
  obtain ⟨hkey, hpay, hpix, -⟩ := hinv.ramsInside
  have hport := hinv.portFields s.overrun s.irqEn
  cases step_effect hstep with
  | quiet ts r d _ h => exact h ▸ hport ts r d
  | blanked ts r _ h => exact h ▸ hinv.portFields true s.irqEn ts r s.draws
  | acknowledged ts r v _ h =>
    exact h ▸ (hinv.acknowledge v).portFields (Machine.acknowledge v s).overrun s.irqEn ts r s.draws
  | irqEnabled ts r x h => exact h ▸ hinv.portFields s.overrun x ts r s.draws
  | lengthWritten ts r pixelLen bpp keyLen payloadLen hidle h =>
    exact h ▸ (hport ts r s.draws).idleRegisters ((busy_eq_false_iff s).1 hidle) s.lastCmd pixelLen keyLen payloadLen bpp
  | keyWritten ts r o n addr v _ _ _ hfit h =>
    exact h ▸ (hport ts r s.draws).byteRams ⟨Ram.wf_writeList hkeyWf o _, hpayWf, hpixWf⟩
      (Ram.inside_writeList hkey (bytesOfWord_fits v hfit)) hpay hpix
  | payWritten ts r o n addr v _ _ _ hfit h =>
    exact h ▸ (hport ts r s.draws).byteRams ⟨hkeyWf, Ram.wf_writeList hpayWf o _, hpixWf⟩ hkey
      (Ram.inside_writeList hpay (bytesOfWord_fits v hfit)) hpix
  | pixWritten ts r o n addr v _ _ _ hfit h =>
    exact h ▸ (hport ts r s.draws).byteRams ⟨hkeyWf, hpayWf, Ram.wf_writeList hpixWf o _⟩ hkey hpay
      (Ram.inside_writeList hpix (bytesOfWord_fits v hfit))
  | illegal ts r v hidle _ _ h =>
    exact h ▸ ((hport ts r s.draws).noteCommand hidle v).reject hidle ErrCode.noConfusion
  | issued ts r v i hidle _ _ h => exact (hport ts r s.draws).issued hidle h
  | completed ts w i hbusy hdecode _ h => exact (hport ts s.response s.draws).completed hbusy hdecode h
  | reset ts _ h => exact h ▸ (hport ts s.response s.draws).assertReset
  | poweredOn ts _ h => exact h ▸ invariant_afterPowerOn hinv.legal ts s.draws

/-! ### No refusal, and the parameters -/

theorem readRam_not_refused (name : RamName) (m : Ram 8) (o n : Nat) (s : State) (r : Refusal) :
    readRam name m o n s ≠ .refused r := by
  unfold readRam
  split_ifs
  · exact nofun
  · split <;> exact nofun

theorem readPermEntry_not_refused (k : Nat) (s : State) (r : Refusal) : readPermEntry k s ≠ .refused r := by
  unfold readPermEntry
  split_ifs
  · exact nofun
  · split <;> exact nofun

theorem hostRead_not_refused (a : Word) (n : AccessSize) (s : State) (r : Refusal) : hostRead a n s ≠ .refused r := by
  unfold hostRead
  split
  · exact nofun
  · exact nofun
  · exact readRam_not_refused _ _ _ _ s r
  · exact readRam_not_refused _ _ _ _ s r
  · exact readRam_not_refused _ _ _ _ s r
  · exact readPermEntry_not_refused _ s r

theorem issueWord_not_refused (w : Word) (s : State) (r : Refusal) : issueWord w s ≠ .refused r := by
  unfold issueWord
  split
  · exact exec_not_refused _ s r
  · exact nofun

theorem hostWrite_not_refused (a : Word) (n : AccessSize) (v : Word) (s : State) (r : Refusal) :
    hostWrite a n v s ≠ .refused r := by
  unfold hostWrite
  split
  case h_3 =>
    split_ifs
    · exact nofun
    · exact issueWord_not_refused v _ r
  case h_4 => split_ifs <;> exact nofun
  all_goals exact nofun

/-- R185: only a held word that is no command is refused. -/
theorem engineTurn_not_refused {s : State} (h : ∀ w, s.engine = .busy w → ∃ i, decode w = .ok i) (r : Refusal) :
    engineTurn s ≠ .refused r := by
  unfold engineTurn
  split
  · exact nofun
  · rename_i w hw
    obtain ⟨i, hi⟩ := h w hw
    rw [hi]
    exact exec_not_refused i s r

/-- Settles O35: a refusal is the engine's, and the invariant says that the engine holds a command. -/
theorem invariantStepIsNotRefused : Obligations.InvariantStepIsNotRefused := by
  intro s r hinv
  have hheld (w : Word) (hw : s.engine = .busy w) : ∃ i, decode w = .ok i := by
    obtain ⟨-, -, -, -, -, i, hi, -⟩ := hinv.held w hw
    exact ⟨i, hi⟩
  unfold step nextTurn
  split
  · exact engineTurn_not_refused hheld r
  · rename_i u ts _
    cases u with
    | read a n => exact hostRead_not_refused a n _ r
    | write a n v => exact hostWrite_not_refused a n v _ r
    | engine => exact engineTurn_not_refused (s := { s with inputs := ts }) hheld r
    | rst => exact nofun
    | powerOn => exact nofun

/-- R188: no command's own rule changes the parameters. -/
theorem performOf_params {i : Instr} {s t : State} (h : performOf i s = .ok t) : t.params = s.params := by
  have hframe := performOf_frame h
  split at hframe <;> rw [hframe]

theorem exec_params {i : Instr} {s t : State} (h : exec i s = .next t) : t.params = s.params := by
  rcases exec_next_cases h with ⟨hidle, -⟩ | ⟨w, t', -, ht', rfl⟩
  · rcases exec_idle_cases hidle h with ⟨code, -, rfl⟩ | ⟨-, rfl⟩ <;> rfl
  · rw [finish_params]
    exact performOf_params ht'

/-- Settles O36: the effects of a step either name the fields they change or are a command's. -/
theorem stepKeepsTheParameters : Obligations.StepKeepsTheParameters := by
  intro s t hstep
  cases step_effect hstep with
  | issued ts r v i _ _ _ h => exact (exec_params h).trans rfl
  | completed ts w i _ _ _ h => exact (exec_params h).trans rfl
  | _ => subst_vars; rfl

end Sys2Proof.Machine

/-! What EXTRACT outputs, bit by bit (R162 to R164, R170), and EXTRACT after EMBED (R167, R168). -/

namespace Sys2Proof.Machine

/-! ### The groups before the first sentinel (R163, R164) -/

/-- How long a run of hits from `n` on is: all below it hit, and it ends at a miss or with the range. -/
theorem length_takeWhile_range'_eq_iff {hit : Nat → Bool} {n groups count : Nat} :
    ((List.range' n groups).takeWhile hit).length = count ↔
      count ≤ groups ∧ (∀ k, k < count → hit (n + k) = true) ∧ (count < groups → hit (n + count) = false) := by
  induction groups generalizing n count with
  | zero =>
    constructor
    · rintro rfl
      exact ⟨Nat.le_refl 0, fun k hk => absurd hk (Nat.not_lt_zero k), fun h => absurd h (Nat.lt_irrefl 0)⟩
    · rintro ⟨hle, -, -⟩
      exact (Nat.le_zero.1 hle).symm
  | succ groups ih =>
    rw [List.range'_succ]
    cases hn : hit n with
    | false =>
      rw [List.takeWhile_cons_of_neg (by rw [hn]; exact Bool.false_ne_true), List.length_nil]
      constructor
      · rintro rfl
        exact ⟨Nat.zero_le _, fun k hk => absurd hk (Nat.not_lt_zero k), fun _ => hn⟩
      · rintro ⟨-, hhits, -⟩
        by_contra hne
        exact Bool.false_ne_true (hn.symm.trans (hhits 0 (by omega)))
    | true =>
      rw [List.takeWhile_cons_of_pos hn, List.length_cons]
      cases count with
      | zero =>
        refine iff_of_false (Nat.succ_ne_zero _) ?_
        rintro ⟨-, -, hmiss⟩
        exact Bool.false_ne_true ((hmiss (Nat.succ_pos groups)).symm.trans hn)
      | succ count =>
        have hshift (k : Nat) : n + 1 + k = n + (k + 1) := by omega
        simp only [Nat.add_right_cancel_iff, ih, hshift, Nat.add_le_add_iff_right, Nat.add_lt_add_iff_right]
        refine and_congr_right fun _ => and_congr_left fun _ => ⟨fun h k hk => ?_, fun h k hk => h (k + 1) (by omega)⟩
        cases k with
        | zero => exact hn
        | succ k => exact h k (by omega)

/-- R163, R164: the groups output are those before the first that decodes to the sentinel, or all of them. -/
theorem extractCount_eq_iff {s : State} {p : List Nat} {count : Nat} :
    extractCount s p = count ↔ count ≤ s.pixelLen.toNat / 8 ∧ (∀ k, k < count → groupByte s p k ≠ sentinel) ∧
      (count < s.pixelLen.toNat / 8 → groupByte s p count = sentinel) := by
  rw [extractCount, List.range_eq_range', length_takeWhile_range'_eq_iff]
  simp only [Nat.zero_add, bne_iff_ne, bne_eq_false_iff_eq, ne_eq]

theorem extractFinds_iff (s : State) (p : List Nat) :
    extractFinds s p = true ↔ extractCount s p < s.pixelLen.toNat / 8 := by
  rw [extractFinds, decide_eq_true_eq]

theorem extractCount_le (s : State) (p : List Nat) : extractCount s p ≤ s.pixelLen.toNat / 8 :=
  (extractCount_eq_iff.1 rfl).1

/-- R165: the groups that EXTRACT reads are those it outputs and the sentinel's. -/
theorem group_lt_extractUnits {s : State} {p : List Nat} {m j : Nat} (hj : j < 8)
    (hm : m < extractCount s p ∨ m = extractCount s p ∧ extractCount s p < s.pixelLen.toNat / 8) :
    8 * m + j < extractUnits s p := by
  rw [extractUnits_eq, unitsRead]
  split_ifs <;> omega

theorem extractUnits_le (s : State) (p : List Nat) : extractUnits s p ≤ s.pixelLen.toNat := by
  have := extractCount_le s p
  rw [extractUnits_eq, unitsRead]
  split_ifs <;> omega

/-- R162: bit `j` of a group's byte is bit 0 of the group's `j`-th unit. -/
theorem groupByte_bit (s : State) (p : List Nat) (m : Nat) {j : Nat} (hj : j < 8) :
    (groupByte s p m).getLsbD j = ((Ram.read s.pix (p.getD (8 * m + j) 0)).getD 0).getLsbD 0 := by
  rw [groupByte, byteOfBits_bit _ j hj, List.getD_eq_getElem _ _ (by rwa [List.length_map, List.length_range]),
    List.getElem_map, List.getElem_range]

/-! ### The complete step of an EXTRACT whose operands are specified -/

/-- What EXTRACT leaves along its path (R165), with the engine IDLE and DONE. -/
def extractedState (keyed : Bool) (s : State) : State :=
  finish { s with
    perm := if keyed then storePerm (pathOf keyed s) s.perm else s.perm
    pay := extractedPay s (pathOf keyed s)
    outLen := BitVec.ofNat 32 (extractCount s (pathOf keyed s))
    unitsUsed := BitVec.ofNat 32 (extractUnits s (pathOf keyed s))
    sentFound := extractFinds s (pathOf keyed s) }

theorem exec_extract_readable {i : Instr} {s : State} {w : Word} (hop : i.operation = .extract)
    (hbusy : s.engine = .busy w) (hreadable : Readable i s) : exec i s = .next (extractedState i.keyed s) := by
  obtain ⟨hkey, -, hunits⟩ := hreadable
  rw [exec_busy_next_iff hbusy, performOf_extract hop]
  exact ⟨_, performExtract_specified hkey (hunits hop), rfl⟩

/-- R163: the number of bytes output fits the register OUT_LEN. -/
theorem extractedState_outLen (keyed : Bool) (s : State) :
    (extractedState keyed s).outLen.toNat = extractCount s (pathOf keyed s) := by
  have hle := extractCount_le s (pathOf keyed s)
  have hlt := s.pixelLen.isLt
  exact Nat.mod_eq_of_lt (by omega)

theorem read_extractedState_pay (keyed : Bool) (s : State) (n : Nat) :
    Ram.read (extractedState keyed s).pay n =
      if n < extractCount s (pathOf keyed s) then some (groupByte s (pathOf keyed s) n) else Ram.read s.pay n :=
  read_extractedPay s (pathOf keyed s) n

/-- Settles O25: each byte output is its group's, none before the count is the sentinel, and the one at the count is. -/
theorem extractOutputsTheDecodedBytes : Obligations.ExtractOutputsTheDecodedBytes := by
  intro i hi s w hbusy hreadable
  have hop := mem_extracts_iff.1 hi
  have hexec := exec_extract_readable hop hbusy hreadable
  obtain ⟨-, -, hunits⟩ := hreadable
  have hcount := extractedState_outLen i.keyed s
  obtain ⟨hle, hbytes, hstop⟩ := extractCount_eq_iff.1 (Eq.refl (extractCount s (pathOf i.keyed s)))
  have hlen : extractUnits s (pathOf i.keyed s) ≤ (pathOf i.keyed s).length := by
    rw [pathOf_length]
    exact extractUnits_le s _
  have hbit {m j : Nat} (hj : j < 8) (hm : m < extractCount s (pathOf i.keyed s) ∨
      m = extractCount s (pathOf i.keyed s) ∧ extractCount s (pathOf i.keyed s) < s.pixelLen.toNat / 8) :
      ∃ v, Ram.read s.pix ((pathOf i.keyed s).getD (8 * m + j) 0) = some v ∧
        (groupByte s (pathOf i.keyed s) m).getLsbD j = v.getLsbD 0 := by
    obtain ⟨v, hv⟩ := Option.isSome_iff_exists.1 (hunits hop _ (getD_mem_take (group_lt_extractUnits hj hm) hlen))
    exact ⟨v, hv, by rw [groupByte_bit s _ m hj, hv, Option.getD_some]⟩
  refine ⟨extractedState i.keyed s, hexec, ?_⟩
  rw [hcount]
  refine ⟨hle, fun n hn => ⟨groupByte s (pathOf i.keyed s) n, ?_, hbytes n hn, fun j hj => hbit hj (.inl hn)⟩,
    extractFinds_iff s _, fun hfound j hj => ?_, fun n hn => ?_⟩
  · rw [read_extractedState_pay, if_pos hn]
  · have hmore := (extractFinds_iff s _).1 hfound
    obtain ⟨v, hv, hv0⟩ := hbit hj (.inr ⟨rfl, hmore⟩)
    have hones : ∀ j, j < 8 → sentinel.getLsbD j = true := by decide
    exact ⟨v, hv, by rw [← hv0, hstop hmore, hones j hj]⟩
  · rw [read_extractedState_pay, if_neg (not_lt.2 hn)]

/-! ### Repeating an EXTRACT (R170) -/

section SameOperands

variable {s s' : State}

/-- R127: the path depends on the parameters, the lengths and the key only. -/
theorem pathOf_congr (keyed : Bool) (hgen : s'.params.permGen = s.params.permGen) (hlen : s'.pixelLen = s.pixelLen)
    (hkey : keyed = true → s'.keyLen = s.keyLen ∧ ∀ k, k < s.keyLen.toNat → Ram.read s'.key k = Ram.read s.key k) :
    pathOf keyed s' = pathOf keyed s := by
  cases keyed with
  | false => simp only [pathOf, hlen, Bool.false_eq_true, if_false]
  | true =>
    obtain ⟨hkeyLen, hcells⟩ := hkey rfl
    have hbytes : keyBytes s' = keyBytes s := by
      rw [keyBytes, keyBytes, hkeyLen]
      exact List.map_congr_left fun k hk => by rw [hcells k (List.mem_range.1 hk)]
    simp only [pathOf, hgen, hlen, hbytes]

theorem groupByte_congr (hpix : s'.pix = s.pix) (p : List Nat) (m : Nat) : groupByte s' p m = groupByte s p m := by
  simp only [groupByte, hpix]

theorem extractCount_congr (hlen : s'.pixelLen = s.pixelLen) (hpix : s'.pix = s.pix) (p : List Nat) :
    extractCount s' p = extractCount s p := by
  simp only [extractCount, hlen, groupByte_congr hpix]

theorem extractUnits_congr (hlen : s'.pixelLen = s.pixelLen) (hpix : s'.pix = s.pix) (p : List Nat) :
    extractUnits s' p = extractUnits s p := by
  rw [extractUnits_eq, extractUnits_eq, extractCount_congr hlen hpix, hlen]

end SameOperands

/-- Settles O26: EXTRACT's results depend on its operands only, and it keeps them. -/
theorem extractIsIdempotent : Obligations.ExtractIsIdempotent := by
  intro i hi s t s' w w' hbusy hreadable h hbusy' hparams hlen hkeyLen hkey hpix
  have hop := mem_extracts_iff.1 hi
  obtain rfl : extractedState i.keyed s = t :=
    Host.Outcome.next.inj ((exec_extract_readable hop hbusy hreadable).symm.trans h)
  have hpix' : s'.pix = s.pix := hpix
  have hpath : pathOf i.keyed s' = pathOf i.keyed s :=
    pathOf_congr i.keyed (by rw [hparams]) hlen fun _ => ⟨hkeyLen, fun k _ => by rw [hkey]⟩
  have hcount := extractCount_congr hlen hpix' (pathOf i.keyed s)
  have hunits := extractUnits_congr hlen hpix' (pathOf i.keyed s)
  have hreadable' : Readable i s' := by
    obtain ⟨hspec, -, hread⟩ := hreadable
    refine ⟨fun hk => ?_, fun he => absurd (hop.symm.trans he) nofun, fun he => ?_⟩
    · rw [KeySpecified, hkeyLen, hkey]
      exact hspec hk
    · rw [hpath, hunits, hpix']
      exact hread he
  refine ⟨rfl, extractedState i.keyed s', exec_extract_readable hop hbusy' hreadable', ?_, ?_, ?_, fun n hn => ?_⟩
  · simp only [extractedState, finish_outLen, hpath, hcount]
  · simp only [extractedState, finish_unitsUsed, hpath, hunits]
  · simp only [extractedState, finish_sentFound, extractFinds, hpath, hcount, hlen]
  · rw [extractedState_outLen] at hn
    rw [read_extractedState_pay, read_extractedState_pay, hpath, hcount, if_pos hn, if_pos hn, groupByte_congr hpix']

/-! ### EXTRACT after EMBED (R167, R168) -/

/-- R162 mirrors R142: a written group decodes to the byte written, and its units are specified. -/
theorem GroupWritten.decodes {old new : Ram 8} {p : List Nat} {m : Nat} {b : Byte} (h : GroupWritten old p m b new)
    {s' : State} (hpix : ∀ j, j < 8 → Ram.read s'.pix (p.getD (8 * m + j) 0) = Ram.read new (p.getD (8 * m + j) 0)) :
    groupByte s' p m = b ∧ ∀ j, j < 8 → Specified s'.pix (p.getD (8 * m + j) 0) := by
  refine ⟨BitVec.eq_of_getLsbD_eq fun j hj => ?_, fun j hj => ?_⟩
  · obtain ⟨v0, -, hnew⟩ := h j hj
    rw [groupByte_bit s' p m hj, hpix j hj, hnew, Option.getD_some, withBit0_bit _ _ _ (by decide), if_pos rfl]
  · obtain ⟨v0, -, hnew⟩ := h j hj
    rw [Specified, hpix j hj, hnew]
    rfl

/-- R163: an EXTRACT along groups that are specified up to the first sentinel, or to the end, outputs the groups before
it. -/
theorem exec_extract_groups {i : Instr} {s : State} {w : Word} {p : List Nat} {m : Nat} (hop : i.operation = .extract)
    (hbusy : s.engine = .busy w) (hkey : i.keyed = true → KeySpecified s) (hp : pathOf i.keyed s = p)
    (hm : m ≤ s.pixelLen.toNat / 8) (hbytes : ∀ k, k < m → groupByte s p k ≠ sentinel)
    (hstop : m < s.pixelLen.toNat / 8 → groupByte s p m = sentinel)
    (hspec : ∀ k, k < s.pixelLen.toNat / 8 → k ≤ m → ∀ j, j < 8 → Specified s.pix (p.getD (8 * k + j) 0)) :
    ∃ t, exec i s = .next t ∧ t.outLen = BitVec.ofNat 32 m ∧ (t.sentFound = true ↔ m < s.pixelLen.toNat / 8) ∧
      ∀ k, k < m → Ram.read t.pay k = some (groupByte s p k) := by
  have hcount : extractCount s p = m := extractCount_eq_iff.2 ⟨hm, hbytes, hstop⟩
  have hreadable : Readable i s := by
    refine ⟨hkey, fun he => absurd (hop.symm.trans he) nofun, fun _ u hu => ?_⟩
    rw [hp] at hu
    obtain ⟨n, hn, rfl⟩ := List.mem_take_iff_getElem.1 hu
    have hunits : extractUnits s p = 8 * m + if m < s.pixelLen.toNat / 8 then 8 else 0 := by
      rw [extractUnits_eq, hcount, unitsRead]
    have hgroup : n / 8 < s.pixelLen.toNat / 8 ∧ n / 8 ≤ m := by
      split_ifs at hunits <;> omega
    have hentry := hspec (n / 8) hgroup.1 hgroup.2 (n % 8) (Nat.mod_lt _ (by decide))
    rwa [Nat.div_add_mod, List.getD_eq_getElem _ _ (by omega)] at hentry
  refine ⟨_, exec_extract_readable hop hbusy hreadable, ?_, ?_, fun k hk => ?_⟩
  · simp only [extractedState, finish_outLen, hp, hcount]
  · rw [extractedState, finish_sentFound, hp, extractFinds_iff, hcount]
  · rw [read_extractedState_pay, hp, hcount, if_pos hk]

/-- The pairs of an EMBED and an EXTRACT with the same K (R167). -/
theorem embed_extract_pairs : ∀ e ∈ [(Instr.embed, Instr.extract), (.embedS, .extract), (.embedK, .extractK),
    (.embedKS, .extractK)], e.1.operation = .embed ∧ e.2.operation = .extract ∧ e.2.keyed = e.1.keyed := by
  decide

section RoundTrip

variable {i j : Instr} {s t s' : State} {w w' : Word}

/-- R167, R168: after a completed EMBED, an EXTRACT along the same path over the same units outputs the bytes before the
first group that holds the sentinel, be it the payload's or EMBED's own. -/
theorem exec_extract_after_embed (hi : i.operation = .embed) (hj : j.operation = .extract) (hk : j.keyed = i.keyed)
    (hbusy : s.engine = .busy w) (hkey : i.keyed = true → KeySpecified s) (h : exec i s = .next t)
    (hbusy' : s'.engine = .busy w') (hgen : s'.params.permGen = s.params.permGen) (hlen : s'.pixelLen = s.pixelLen)
    (hkey' : i.keyed = true → s'.keyLen = s.keyLen ∧ ∀ k, k < s.keyLen.toNat → Ram.read s'.key k = Ram.read s.key k)
    (hpix : ∀ u, u < s.pixelLen.toNat → Ram.read s'.pix u = Ram.read t.pix u) {m : Nat} (hm : m ≤ embedCount s)
    (hbytes : ∀ k, k < m → ∃ b, Ram.read s.pay k = some b ∧ b ≠ 0xFF#8)
    (hstop : m < embedCount s → Ram.read s.pay m = some 0xFF#8) :
    ∃ t', exec j s' = .next t' ∧ t'.outLen = BitVec.ofNat 32 m ∧
      (t'.sentFound = true ↔ m < s.pixelLen.toNat / 8) ∧ ∀ k, k < m → Ram.read t'.pay k = Ram.read s.pay k := by
  obtain ⟨p, d, htraversal, hembedded, -⟩ := exec_embed_effect hi hbusy h
  have hp := traversal_perm htraversal
  obtain ⟨rfl, rfl⟩ := Prod.mk.inj (Except.ok.inj ((traversal_specified hkey).symm.trans htraversal))
  have hspecified : j.keyed = true → KeySpecified s' := fun hjk => by
    obtain ⟨hkeyLen, hcells⟩ := hkey' (hk ▸ hjk)
    intro k hlt
    rw [hkeyLen] at hlt
    rw [Specified, hcells k hlt]
    exact hkey (hk ▸ hjk) k hlt
  have hpath : pathOf j.keyed s' = pathOf i.keyed s := by
    rw [hk]
    exact pathOf_congr i.keyed hgen hlen hkey'
  have hunits {k r : Nat} (hgroup : k < s.pixelLen.toNat / 8) (hr : r < 8) :
      Ram.read s'.pix ((pathOf i.keyed s).getD (8 * k + r) 0) = Ram.read t.pix ((pathOf i.keyed s).getD (8 * k + r) 0) := by
    refine hpix _ (List.mem_range.1 (hp.mem_iff.1 ?_))
    rw [List.getD_eq_getElem _ _ (by rw [pathOf_length]; omega)]
    exact List.getElem_mem _
  have hle := (embedCount_le s).2
  have hpayload {k : Nat} {b : Byte} (hlt : k < embedCount s) (hb : Ram.read s.pay k = some b) :
      groupByte s' (pathOf i.keyed s) k = b ∧
        ∀ r, r < 8 → Specified s'.pix ((pathOf i.keyed s).getD (8 * k + r) 0) := by
    obtain ⟨b', hb', hwritten⟩ := hembedded.payload k hlt
    obtain rfl := hb' b hb
    exact hwritten.decodes fun r hr => hunits (by omega) hr
  have hsentinel (hroom : embedCount s < s.pixelLen.toNat / 8) :
      groupByte s' (pathOf i.keyed s) (embedCount s) = sentinel ∧
        ∀ r, r < 8 → Specified s'.pix ((pathOf i.keyed s).getD (8 * embedCount s + r) 0) :=
    (hembedded.sentinelGroup ((embedSentinelFits_iff s).2 (by omega))).decodes fun r hr => hunits hroom hr
  have hlast (hgroup : m < s.pixelLen.toNat / 8) : groupByte s' (pathOf i.keyed s) m = sentinel ∧
      ∀ r, r < 8 → Specified s'.pix ((pathOf i.keyed s).getD (8 * m + r) 0) := by
    rcases hm.lt_or_eq with hlt | rfl
    · exact hpayload hlt (hstop hlt)
    · exact hsentinel hgroup
  have hbyte {k : Nat} (hlt : k < m) : Ram.read s.pay k = some (groupByte s' (pathOf i.keyed s) k) ∧
      groupByte s' (pathOf i.keyed s) k ≠ sentinel ∧
        ∀ r, r < 8 → Specified s'.pix ((pathOf i.keyed s).getD (8 * k + r) 0) := by
    obtain ⟨b, hb, hne⟩ := hbytes k hlt
    obtain ⟨hdecoded, hspec⟩ := hpayload (by omega) hb
    rw [hdecoded]
    exact ⟨hb, hne, hspec⟩
  rw [← hlen] at hlast hle ⊢
  obtain ⟨t', ht', hout, hfound, hread⟩ := exec_extract_groups hj hbusy' hspecified hpath (hm.trans hle)
    (fun k hlt => (hbyte hlt).2.1) (fun hgroup => (hlast hgroup).1) fun k hgroup hkm => by
      rcases hkm.lt_or_eq with hlt | rfl
      · exact (hbyte hlt).2.2
      · exact (hlast hgroup).2
  exact ⟨t', ht', hout, hfound, fun k hlt => (hread k hlt).trans (hbyte hlt).1.symm⟩

end RoundTrip

/-- Settles O27: no embedded byte is the sentinel, so the EXTRACT stops only at EMBED's own sentinel or at the end. -/
theorem embedThenExtractReturnsThePayload : Obligations.EmbedThenExtractReturnsThePayload := by
  intro e he s t s' w w' hbusy hkey hpay h hbusy' hgen hlen hkey' hpix
  obtain ⟨hi, hj, hk⟩ := embed_extract_pairs e he
  obtain ⟨t', ht', hout, hfound, hread⟩ := exec_extract_after_embed hi hj hk hbusy hkey h hbusy' hgen hlen hkey' hpix
    (Nat.le_refl _) hpay fun hlt => absurd hlt (Nat.lt_irrefl _)
  exact ⟨t', ht', hout, hread, hfound.trans (by omega)⟩

/-- Settles O28: the first 0xFF of the payload is the first sentinel on the path. -/
theorem payloadSentinelStopsExtraction : Obligations.PayloadSentinelStopsExtraction := by
  intro e he s t s' w w' m hbusy hkey hm hpay hsentinel h hbusy' hgen hlen hkey' hpix
  obtain ⟨hi, hj, hk⟩ := embed_extract_pairs e he
  obtain ⟨t', ht', hout, hfound, hread⟩ := exec_extract_after_embed hi hj hk hbusy hkey h hbusy' hgen hlen hkey' hpix
    hm.le hpay fun _ => hsentinel
  exact ⟨t', ht', hout, hfound.2 (hm.trans_le (embedCount_le s).2), hread⟩

end Sys2Proof.Machine

/-! CAP (R110 to R114), and the complete step of every command over unspecified cells (R79, R144, R185): what it leaves
when the free values are drawn, and when it faults. -/

namespace Sys2Proof.Machine

/-! ### CAP -/

/-- Settles O10: CAP reads two registers and faults never. -/
theorem capCompletes : Obligations.CapCompletes := by
  intro s w hbusy
  rw [exec_busy_next_iff hbusy]
  exact ⟨_, rfl, rfl⟩

/-- Settles O11, from the capacity for each depth. -/
theorem capacityIsBounded : Obligations.CapacityIsBounded := by
  intro len bpp
  have hle := capacityOf_le len bpp
  exact ⟨capacityOf_24 len, hle, fun _ => by omega⟩

/-- Settles O12: division is monotone, and an unsupported depth has no capacity. -/
theorem capacityIsMonotone : Obligations.CapacityIsMonotone := by
  intro len1 len2 bpp
  refine ⟨fun hle => ?_, fun h8 h24 => capacityOf_other len1 h8 h24⟩
  by_cases h24 : bpp = 24#8
  · rw [h24, capacityOf_24, capacityOf_24]
    exact Nat.div_le_div_right hle
  · by_cases h8 : bpp = 8#8
    · rw [h8, capacityOf_8, capacityOf_8]
      exact Nat.div_le_div_right hle
    · rw [capacityOf_other len1 h8 h24]
      exact Nat.zero_le _

theorem performOf_cap {i : Instr} (h : i.operation = .cap) : performOf i = performCap := by
  simp only [performOf, h]

theorem performOf_perm {i : Instr} (h : i.operation = .perm) : performOf i = performPerm i.keyed := by
  simp only [performOf, h]

/-- R95: K has no meaning for CAP. -/
theorem keyed_eq_false_of_cap {i : Instr} (h : i.operation = .cap) : i.keyed = false := by
  revert h
  cases i <;> decide

/-! ### Drawing: every command completes (R79) -/

theorem traversal_draw (keyed : Bool) {s : State} (hdraw : s.params.unwritten = .draw) :
    ∃ p d, traversal keyed s = .ok (p, d) := by
  cases keyed with
  | false => exact ⟨_, _, rfl⟩
  | true =>
    obtain ⟨key, d, hkey⟩ := readBytes_draw .key s.key 0 s.keyLen.toNat s.draws
    exact ⟨_, d, by rw [traversal_keyed, hdraw, hkey, except_ok_bind]⟩

theorem performOf_draw (i : Instr) {s : State} (hdraw : s.params.unwritten = .draw) : ∃ t, performOf i s = .ok t := by
  obtain ⟨p, d, hp⟩ := traversal_draw i.keyed hdraw
  cases hop : i.operation with
  | cap => exact ⟨_, by rw [performOf_cap hop]; rfl⟩
  | perm => exact ⟨_, by rw [performOf_perm hop, performPerm, hp, except_ok_bind]⟩
  | embed =>
    rw [performOf_embed hop]
    exact performEmbed_answers hp (.inl hdraw)
  | extract =>
    obtain ⟨x, hx⟩ := extractBytes_draw (p.length / 8) 0 p s.pay { pix := s.pix, draws := d }
    exact ⟨_, by rw [performOf_extract hop, performExtract, hp, except_ok_bind, hdraw]; simp only; rw [hx, except_ok_bind]⟩

/-! ### What a completed command leaves, whatever is unspecified -/

section Completed

variable {i : Instr} {s t : State} {w : Word}

theorem exec_busy_idle_done (hbusy : s.engine = .busy w) (h : exec i s = .next t) : t.engine = .idle ∧ t.done = true := by
  obtain ⟨t', -, rfl⟩ := (exec_busy_next_iff hbusy).1 h
  exact ⟨rfl, rfl⟩

theorem exec_cap_frame (hop : i.operation = .cap) (hbusy : s.engine = .busy w) (h : exec i s = .next t) :
    t = { s with capacity := BitVec.ofNat 32 (capacityOf s.pixelLen.toNat s.bpp), engine := .idle, done := true } := by
  obtain ⟨t', ht', rfl⟩ := (exec_busy_next_iff hbusy).1 h
  rw [performOf_cap hop] at ht'
  obtain rfl := Except.ok.inj ht'
  rfl

theorem exec_perm_frame (hop : i.operation = .perm) (hbusy : s.engine = .busy w) (h : exec i s = .next t) :
    t = { s with perm := t.perm, draws := t.draws, engine := .idle, done := true } := by
  obtain ⟨t', ht', rfl⟩ := (exec_busy_next_iff hbusy).1 h
  rw [performOf_perm hop] at ht'
  obtain ⟨p, d, -, rfl⟩ := performPerm_ok ht'
  rfl

theorem exec_embed_frame (hop : i.operation = .embed) (hbusy : s.engine = .busy w) (h : exec i s = .next t) :
    t = { s with
      pix := t.pix
      perm := t.perm
      draws := t.draws
      embCount := BitVec.ofNat 32 (min s.payloadLen.toNat (s.pixelLen.toNat / 8))
      unitsUsed := BitVec.ofNat 32 (8 * embedCount s + if 8 ≤ s.pixelLen.toNat - 8 * embedCount s then 8 else 0)
      trunc := decide (embedCount s < s.payloadLen.toNat)
      sentWr := decide (8 ≤ s.pixelLen.toNat - 8 * embedCount s)
      engine := .idle
      done := true } := by
  obtain ⟨p, d, -, -, hresults⟩ := exec_embed_effect hop hbusy h
  obtain ⟨pix, draws, rfl⟩ : ∃ pix draws, t = finish (embedResults i.keyed p s pix draws) := ⟨_, _, hresults⟩
  rw [← embedUnits_eq]
  rfl

theorem exec_extract_frame (hop : i.operation = .extract) (hbusy : s.engine = .busy w) (h : exec i s = .next t) :
    t = { s with
      pay := t.pay, perm := t.perm, draws := t.draws, outLen := t.outLen, unitsUsed := t.unitsUsed
      sentFound := t.sentFound, engine := .idle, done := true } := by
  obtain ⟨t', ht', rfl⟩ := (exec_busy_next_iff hbusy).1 h
  rw [performOf_extract hop] at ht'
  obtain ⟨p, d, x, -, -, rfl⟩ := performExtract_ok ht'
  rfl

/-- R163, R164, R165, R169: the results of EXTRACT that no drawn byte decides. -/
theorem exec_extract_results (hop : i.operation = .extract) (hbusy : s.engine = .busy w) (h : exec i s = .next t) :
    t.outLen.toNat ≤ s.pixelLen.toNat / 8 ∧
    t.unitsUsed.toNat = 8 * t.outLen.toNat + (if t.sentFound then 8 else 0) ∧
    (t.sentFound = true ↔ t.outLen.toNat < s.pixelLen.toNat / 8) ∧
    (∀ k, k < t.outLen.toNat → ∃ b, Ram.read t.pay k = some b ∧ b ≠ 0xFF#8) ∧
    ∀ k, t.outLen.toNat ≤ k → Ram.read t.pay k = Ram.read s.pay k := by
  obtain ⟨t', ht', rfl⟩ := (exec_busy_next_iff hbusy).1 h
  rw [performOf_extract hop] at ht'
  obtain ⟨p, d, x, htraversal, hloop, rfl⟩ := performExtract_ok ht'
  obtain ⟨-, -, hle, hfound, hkept, hbytes⟩ := extractBytes_ok hloop
  rw [length_of_path (traversal_perm htraversal), Nat.zero_add] at hle hfound
  have hlt := s.pixelLen.isLt
  have hcount : (BitVec.ofNat 32 x.count).toNat = x.count := Nat.mod_eq_of_lt (by omega)
  have hunits : (BitVec.ofNat 32 (8 * x.count + if x.found then 8 else 0)).toNat =
      8 * x.count + if x.found then 8 else 0 := Nat.mod_eq_of_lt (by split_ifs at hle ⊢ <;> omega)
  simp only [finish_outLen, finish_unitsUsed, finish_sentFound, finish_pay, hcount, hunits]
  refine ⟨by omega, rfl, hfound, fun k hk => ?_, fun k hk => hkept k (.inr hk)⟩
  obtain ⟨b, hne, hb⟩ := hbytes k (Nat.zero_le k) hk
  exact ⟨b, hb, hne⟩

/-- The cells of PERM RAM after the path `p` of length `n` has been stored (R128). -/
def StoresPath (m m' : Ram 32) (n : Nat) : Prop :=
  ∃ p : List Nat, p.Perm (List.range n) ∧
    ∀ k, Ram.read m' k = if k < n then some (BitVec.ofNat 32 (p.getD k 0)) else Ram.read m k

theorem storesPath_storePerm {keyed : Bool} {p : List Nat} {d : Nat} (hp : traversal keyed s = .ok (p, d)) :
    StoresPath s.perm (storePerm p s.perm) s.pixelLen.toNat :=
  ⟨p, traversal_perm hp, fun k => by rw [read_storePerm, length_of_path (traversal_perm hp)]⟩

/-- R121, R128: PERM, and every keyed command, stores a permutation of [0, N); the others leave PERM RAM alone. -/
theorem exec_stores_path (hbusy : s.engine = .busy w) (h : exec i s = .next t) :
    (i.operation = .perm ∨ i.keyed = true → StoresPath s.perm t.perm s.pixelLen.toNat) ∧
    (i.operation ≠ .perm → i.keyed = false → t.perm = s.perm) := by
  obtain ⟨t', ht', rfl⟩ := (exec_busy_next_iff hbusy).1 h
  rw [finish_perm]
  cases hop : i.operation with
  | cap =>
    rw [performOf_cap hop] at ht'
    obtain rfl := Except.ok.inj ht'
    rw [keyed_eq_false_of_cap hop]
    exact ⟨nofun, fun _ _ => rfl⟩
  | perm =>
    rw [performOf_perm hop] at ht'
    obtain ⟨p, d, hp, rfl⟩ := performPerm_ok ht'
    exact ⟨fun _ => storesPath_storePerm hp, fun hne => absurd rfl hne⟩
  | embed =>
    rw [performOf_embed hop] at ht'
    obtain ⟨p, d, e, sent, c, hp, -, -, rfl⟩ := performEmbed_ok ht'
    refine ⟨fun hk => ?_, fun _ hk => by rw [hk]; rfl⟩
    rw [show i.keyed = true from hk.resolve_left nofun, if_pos rfl]
    exact storesPath_storePerm hp
  | extract =>
    rw [performOf_extract hop] at ht'
    obtain ⟨p, d, x, hp, -, rfl⟩ := performExtract_ok ht'
    refine ⟨fun hk => ?_, fun _ hk => by rw [hk]; rfl⟩
    rw [show i.keyed = true from hk.resolve_left nofun, if_pos rfl]
    exact storesPath_storePerm hp

end Completed

/-- Settles O29: drawing always answers, and each operation's frame and results do not depend on what is drawn. -/
theorem drawingInstanceAlwaysCompletes : Obligations.DrawingInstanceAlwaysCompletes := by
  intro i s w hbusy hdraw
  obtain ⟨t', ht'⟩ := performOf_draw i hdraw
  have h : exec i s = .next (finish t') := (exec_busy_next_iff hbusy).2 ⟨t', ht', rfl⟩
  obtain ⟨hidle, hdone⟩ := exec_busy_idle_done hbusy h
  obtain ⟨hstores, hkeeps⟩ := exec_stores_path hbusy h
  exact ⟨finish t', h, hidle, hdone, fun hop => exec_cap_frame hop hbusy h, fun hop => exec_perm_frame hop hbusy h,
    fun hop => exec_embed_frame hop hbusy h,
    fun hop => ⟨exec_extract_frame hop hbusy h, exec_extract_results hop hbusy h⟩, hstores, hkeeps⟩

/-! ### Faulting: a command completes only when all it reads is specified (R79, R144, R185) -/

theorem keySpecified_of_traversal {s : State} {p : List Nat} {d : Nat} (hfault : s.params.unwritten = .fault)
    (h : traversal true s = .ok (p, d)) : KeySpecified s := by
  intro k hk
  by_contra hnone
  have hcell : Ram.read s.key (0 + k) = none := by
    rw [Nat.zero_add]
    exact Option.not_isSome_iff_eq_none.1 hnone
  rw [traversal_keyed, hfault, readBytes_fault hk hcell] at h
  cases h

/-- Under `fault` a traversal that answers is the path of a specified key. -/
theorem traversal_of_fault {keyed : Bool} {s : State} {p : List Nat} {d : Nat} (hfault : s.params.unwritten = .fault)
    (h : traversal keyed s = .ok (p, d)) : (keyed = true → KeySpecified s) ∧ p = pathOf keyed s := by
  have hkey : keyed = true → KeySpecified s := by
    rintro rfl
    exact keySpecified_of_traversal hfault h
  obtain ⟨hp, -⟩ := Prod.mk.inj (Except.ok.inj ((traversal_specified hkey).symm.trans h))
  exact ⟨hkey, hp.symm⟩

theorem specified_of_readCell {w : Nat} {name : RamName} {free : Nat → BitVec w} {cell : Option (BitVec w)} {d : Nat}
    {r : BitVec w × Nat} (h : readCell .fault name free cell d = .ok r) : cell.isSome = true := by
  rcases readCell_ok_iff.1 h with ⟨hcell, -⟩ | ⟨-, hmode, -⟩
  · rw [hcell]
    rfl
  · cases hmode

theorem specified_of_writeUnits {us : List Nat} {bs : List Bool} {c c' : Carrier} (hlen : us.length = bs.length)
    (h : writeUnits .fault us bs c = .ok c') : ∀ u ∈ us, Specified c.pix u := by
  intro u hu
  by_contra hnone
  rw [writeUnits_fault hlen ⟨u, hu, Option.not_isSome_iff_eq_none.1 hnone⟩] at h
  cases h

theorem specified_of_readUnits {us : List Nat} {c c' : Carrier} {bs : List Bool}
    (h : readUnits .fault us c = .ok (bs, c')) : ∀ u ∈ us, Specified c.pix u := by
  intro u hu
  by_contra hnone
  rw [readUnits_fault ⟨u, hu, Option.not_isSome_iff_eq_none.1 hnone⟩] at h
  cases h

/-- Under `fault` the payload loop answers only when the bytes it reads and the units it writes are specified. -/
theorem specified_of_embedBytes {pay : Ram 8} {left k : Nat} {units : List Nat} {c : Carrier} {e : Embedded}
    (hnd : units.Nodup) (h : embedBytes .fault pay left k units c = .ok e) :
    (∀ m, m < min left (units.length / 8) → Specified pay (k + m)) ∧
      ∀ u ∈ units.take (8 * min left (units.length / 8)), Specified c.pix u := by
  induction left generalizing k units c with
  | zero => exact ⟨fun m hm => absurd hm (by omega), fun u hu => by simp at hu⟩
  | succ left ih =>
    by_cases hl : units.length < 8
    · rw [Nat.div_eq_of_lt hl, Nat.min_zero, Nat.mul_zero, List.take_zero]
      exact ⟨nofun, nofun⟩
    · rw [embedBytes_step (by omega)] at h
      simp only [except_bind_ok, Prod.exists] at h
      obtain ⟨b, d, hbyte, c1, hwrite, hrest⟩ := h
      have hlen : (units.take 8).length = (bitsOfByte b).length := by
        rw [List.length_take, bitsOfByte_length]
        omega
      have hm : min (left + 1) (units.length / 8) = 1 + min left ((units.drop 8).length / 8) := by
        rw [List.length_drop]
        omega
      obtain ⟨hothers, -, -⟩ := writeUnits_ok (hnd.sublist (List.take_sublist ..)) hlen hwrite
      obtain ⟨hpay, hpix⟩ := ih (hnd.sublist (List.drop_sublist ..)) hrest
      rw [hm, Nat.mul_add, List.take_add]
      refine ⟨fun m hlt => ?_, fun u hu => ?_⟩
      · cases m with
        | zero => exact specified_of_readCell hbyte
        | succ m =>
          have hnext := hpay m (by omega)
          rwa [show k + 1 + m = k + (m + 1) by omega] at hnext
      · rcases List.mem_append.1 hu with hu | hu
        · exact specified_of_writeUnits hlen hwrite u hu
        · have hnext := hpix u hu
          rwa [Specified, hothers u fun hu' =>
            List.disjoint_take_drop hnd (Nat.le_refl 8) hu' (List.mem_of_mem_take hu)] at hnext

/-- Under `fault` the sentinel is written only over specified units. -/
theorem specified_of_embedSentinel {units : List Nat} {c c' : Carrier} {sent : Bool}
    (h : embedSentinel .fault units c = .ok (sent, c')) :
    ∀ u ∈ units.take (if 8 ≤ units.length then 8 else 0), Specified c.pix u := by
  by_cases h8 : 8 ≤ units.length
  · simp only [embedSentinel, if_pos h8, except_bind_ok, Except.ok.injEq, Prod.mk.injEq] at h
    obtain ⟨c1, hwrite, -⟩ := h
    rw [if_pos h8]
    exact specified_of_writeUnits (by rw [List.length_take, bitsOfByte_length, Nat.min_eq_left h8]) hwrite
  · rw [if_neg h8, List.take_zero]
    exact nofun

/-- Under `fault` an extraction answers only when the groups it reads are specified. -/
theorem specified_of_extractBytes {s : State} {p : List Nat} {d groups n : Nat} {pay : Ram 8} {x : Extracted}
    (hlen : 8 * (n + groups) ≤ p.length)
    (h : extractBytes .fault groups n (p.drop (8 * n)) pay { pix := s.pix, draws := d } = .ok x) :
    ∀ u ∈ (p.drop (8 * n)).take (unitsRead (outputGroups s p n groups).length groups), Specified s.pix u := by
  induction groups generalizing n pay with
  | zero => exact nofun
  | succ groups ih =>
    have hfirst : ∀ u ∈ (p.drop (8 * n)).take 8, Specified s.pix u := by
      simp only [extractBytes, except_bind_ok, Prod.exists] at h
      obtain ⟨bits, c1, hread, -⟩ := h
      exact specified_of_readUnits hread
    have hbyte : unitsByte s.pix ((p.drop (8 * n)).take 8) = groupByte s p n := unitsByte_group s (by omega)
    by_cases hsent : groupByte s p n = sentinel
    · rw [outputGroups_sentinel groups hsent, List.length_nil, unitsRead_zero]
      exact hfirst
    · have hnext : (p.drop (8 * n)).drop 8 = p.drop (8 * (n + 1)) := List.drop_drop
      rw [extractBytes_step hfirst, if_neg (hbyte ▸ hsent), hnext] at h
      rw [outputGroups_byte groups hsent, List.length_cons, unitsRead_succ, List.take_add, hnext]
      intro u hu
      rcases List.mem_append.1 hu with hu | hu
      · exact hfirst u hu
      · exact ih (by omega) h u hu

theorem specified_of_performEmbed {keyed : Bool} {s t : State} (hfault : s.params.unwritten = .fault)
    (h : performEmbed keyed s = .ok t) : (keyed = true → KeySpecified s) ∧
      (∀ k, k < embedCount s → Specified s.pay k) ∧ ∀ u ∈ (pathOf keyed s).take (embedUnits s), Specified s.pix u := by
  obtain ⟨p, d, e, sent, c, htraversal, hloop, hsentinel, -⟩ := performEmbed_ok h
  obtain ⟨hkey, rfl⟩ := traversal_of_fault hfault htraversal
  have hlen := pathOf_length keyed s
  have hnd := nodup_of_path (pathOf_perm keyed s)
  rw [hfault] at hloop hsentinel
  obtain ⟨hpay, hpix⟩ := specified_of_embedBytes hnd hloop
  obtain ⟨-, hrest⟩ := embedBytes_count hloop
  obtain ⟨hothers, -, -⟩ := embedBytes_ok hnd hloop
  rw [hlen, ← embedCount] at hpay hpix hrest hothers
  simp only [Nat.zero_add] at hpay
  refine ⟨hkey, hpay, fun u hu => ?_⟩
  rw [take_embedUnits s hlen] at hu
  rcases List.mem_append.1 hu with hu | hu
  · exact hpix u hu
  · have hspec := specified_of_embedSentinel hsentinel u (by rw [hrest]; exact hu)
    rwa [Specified, hothers u fun hu' =>
      List.disjoint_take_drop hnd (Nat.le_refl _) hu' (List.mem_of_mem_take hu)] at hspec

theorem specified_of_performExtract {keyed : Bool} {s t : State} (hfault : s.params.unwritten = .fault)
    (h : performExtract keyed s = .ok t) : (keyed = true → KeySpecified s) ∧
      ∀ u ∈ (pathOf keyed s).take (extractUnits s (pathOf keyed s)), Specified s.pix u := by
  obtain ⟨p, d, x, htraversal, hloop, -⟩ := performExtract_ok h
  obtain ⟨hkey, rfl⟩ := traversal_of_fault hfault htraversal
  have hlen := pathOf_length keyed s
  rw [hfault, hlen] at hloop
  have hunits := specified_of_extractBytes (p := pathOf keyed s) (n := 0) (by omega) hloop
  rw [outputGroups_path, List.length_range, ← extractUnits_eq] at hunits
  exact ⟨hkey, hunits⟩

/-- R79, R144, R165: under `fault` a command completes exactly when it reads no unspecified cell. -/
theorem exec_answers_iff_readable {i : Instr} {s : State} {w : Word} (hbusy : s.engine = .busy w)
    (hfault : s.params.unwritten = .fault) : (∃ t, exec i s = .next t) ↔ Readable i s := by
  constructor
  · rintro ⟨t, h⟩
    obtain ⟨t', ht', -⟩ := (exec_busy_next_iff hbusy).1 h
    cases hop : i.operation with
    | cap => exact ⟨by rw [keyed_eq_false_of_cap hop]; exact nofun, by rw [hop]; exact nofun, by rw [hop]; exact nofun⟩
    | perm =>
      rw [performOf_perm hop] at ht'
      obtain ⟨p, d, htraversal, -⟩ := performPerm_ok ht'
      exact ⟨(traversal_of_fault hfault htraversal).1, by rw [hop]; exact nofun, by rw [hop]; exact nofun⟩
    | embed =>
      rw [performOf_embed hop] at ht'
      obtain ⟨hkey, hread⟩ := specified_of_performEmbed hfault ht'
      exact ⟨hkey, fun _ => hread, by rw [hop]; exact nofun⟩
    | extract =>
      rw [performOf_extract hop] at ht'
      obtain ⟨hkey, hread⟩ := specified_of_performExtract hfault ht'
      exact ⟨hkey, by rw [hop]; exact nofun, fun _ => hread⟩
  · intro hreadable
    cases hop : i.operation with
    | cap => exact ⟨_, (exec_busy_next_iff hbusy).2 ⟨_, by rw [performOf_cap hop]; rfl, rfl⟩⟩
    | perm =>
      exact ⟨_, (exec_busy_next_iff hbusy).2
        ⟨_, by rw [performOf_perm hop]; exact performPerm_specified hreadable.1, rfl⟩⟩
    | embed =>
      obtain ⟨t, ht, -⟩ := exec_embed_readable hop hbusy hreadable
      exact ⟨t, ht⟩
    | extract => exact ⟨_, exec_extract_readable hop hbusy hreadable⟩

/-- Settles O30: exec answers, faults or refuses; it never refuses, and its one fault is the unspecified read. -/
theorem completionFaultsExactlyOnUnspecifiedCells : Obligations.CompletionFaultsExactlyOnUnspecifiedCells := by
  intro i s w hbusy hfault
  have hiff := exec_answers_iff_readable (i := i) hbusy hfault
  refine ⟨hiff, fun hunreadable => ?_⟩
  cases hexec : exec i s with
  | next t => exact absurd (hiff.1 ⟨t, hexec⟩) hunreadable
  | fault f =>
    cases f with
    | unspecifiedRead ram => exact ⟨ram, rfl⟩
  | refused r => exact absurd hexec (exec_not_refused i s r)

end Sys2Proof.Machine

/-! The whole-machine rules: what each register and each RAM changes by, over every step (R26, R27, R29, R30, R32, R41 to
R44, R47 to R50, R67, R75). -/

namespace Sys2Proof.Machine

/-! ### The turn of a command, in short -/

/-- Settles O2: each word is the encoder's for the fields written out. -/
theorem writtenOutWordsDecode : Obligations.WrittenOutWordsDecode :=
  ⟨decode_ok_iff.2 rfl, decode_ok_iff.2 rfl, decode_ok_iff.2 rfl, decode_ok_iff.2 rfl⟩

theorem engineTurn_busy {s : State} {w : Word} {i : Instr} (hbusy : s.engine = .busy w) (hdecode : decode w = .ok i) :
    engineTurn s = exec i s := by
  simp only [engineTurn, hbusy, hdecode]

theorem engineTurn_idle {s : State} (hidle : s.engine = .idle) : engineTurn s = .next s := by
  simp only [engineTurn, hidle]

/-- R40, R186: the engine's turn comes when the list says so, and when no other turn is left. -/
theorem step_no_input {s : State} (hi : s.inputs = []) : step s = engineTurn s := by
  simp only [step, nextTurn, hi]

theorem step_engine {s : State} {ts : List Turn} (hi : s.inputs = .engine :: ts) :
    step s = engineTurn { s with inputs := ts } := by
  simp only [step, nextTurn, hi, takeTurn]

/-- Settles O4: both shapes of the turn list give the engine its turn. -/
theorem stepCompletesTheHeldCommand : Obligations.StepCompletesTheHeldCommand := by
  intro s w i hbusy hdecode
  refine ⟨fun hi => ?_, fun ts hi => ?_⟩
  · rw [step_no_input hi, engineTurn_busy hbusy hdecode]
  · rw [step_engine hi, engineTurn_busy (s := { s with inputs := ts }) hbusy hdecode]

/-- Settles O5: the word is issued after the port has answered OKAY, and it decodes. -/
theorem stepIssuesTheWrittenCommand : Obligations.StepIssuesTheWrittenCommand := by
  intro s w i ts hidle hdecode hi
  rw [step_write_cmd hidle rfl hi, issueWord, hdecode]
  rfl

/-- Settles O6: both shapes of the turn list give the IDLE engine a turn that changes nothing. -/
theorem idleEngineHasNoStep : Obligations.IdleEngineHasNoStep := by
  intro s hidle
  refine ⟨fun hi => ?_, fun ts hi => ?_⟩
  · rw [step_no_input hi, engineTurn_idle hidle]
  · rw [step_engine hi, engineTurn_idle (s := { s with inputs := ts }) hidle]

/-! ### What a completed command keeps -/

theorem engineCompletes_of_effect {s : State} {ts : List Turn} {w : Word} {i : Instr} (hbusy : s.engine = .busy w)
    (hdecode : decode w = .ok i) (hi : s.inputs = [] ∧ ts = [] ∨ s.inputs = .engine :: ts) : EngineCompletes s i :=
  ⟨w, hbusy, hdecode, hi.imp And.left fun h => ⟨ts, h⟩⟩

/-- What a completed command keeps, by its operation (R41 to R44, R47 to R49). -/
structure CommandKeeps (i : Instr) (s t : State) : Prop where
  flags : t.err = s.err ∧ t.errcode = s.errcode ∧ t.overrun = s.overrun
  key : t.key = s.key
  capacity : i.operation ≠ .cap → t.capacity = s.capacity
  embed : i.operation ≠ .embed → t.embCount = s.embCount ∧ t.pix = s.pix
  extract : i.operation ≠ .extract → t.outLen = s.outLen ∧ t.pay = s.pay
  unitsUsed : i.operation ≠ .embed → i.operation ≠ .extract → t.unitsUsed = s.unitsUsed

theorem exec_busy_keeps {i : Instr} {s t : State} {w : Word} (hbusy : s.engine = .busy w) (h : exec i s = .next t) :
    CommandKeeps i s t := by
  cases hop : i.operation with
  | cap =>
    rw [exec_cap_frame hop hbusy h]
    exact ⟨⟨rfl, rfl, rfl⟩, rfl, fun hne => absurd hop hne, fun _ => ⟨rfl, rfl⟩, fun _ => ⟨rfl, rfl⟩, fun _ _ => rfl⟩
  | perm =>
    rw [exec_perm_frame hop hbusy h]
    exact ⟨⟨rfl, rfl, rfl⟩, rfl, fun _ => rfl, fun _ => ⟨rfl, rfl⟩, fun _ => ⟨rfl, rfl⟩, fun _ _ => rfl⟩
  | embed =>
    rw [exec_embed_frame hop hbusy h]
    exact ⟨⟨rfl, rfl, rfl⟩, rfl, fun _ => rfl, fun hne => absurd hop hne, fun _ => ⟨rfl, rfl⟩,
      fun hne => absurd hop hne⟩
  | extract =>
    rw [exec_extract_frame hop hbusy h]
    exact ⟨⟨rfl, rfl, rfl⟩, rfl, fun _ => rfl, fun _ => ⟨rfl, rfl⟩, fun hne => absurd hop hne,
      fun _ hne => absurd hop hne⟩

/-! ### Results and RAMs -/

/-! The commands that write UNITS_USED, PERM RAM and CAPACITY, by their fields (R96). -/

theorem eq_cap_of_operation {i : Instr} (h : i.operation = .cap) : i = .cap := by
  revert h
  cases i <;> decide

theorem mem_writers_unitsUsed {i : Instr} (h : i.operation = .embed ∨ i.operation = .extract) :
    i ∈ [Instr.embed, .embedK, .embedS, .embedKS, .extract, .extractK] := by
  revert h
  cases i <;> decide

theorem mem_writers_perm {i : Instr} (h : i.operation = .perm ∨ i.keyed = true) :
    i ∈ [Instr.perm, .permK, .embedK, .embedKS, .extractK] := by
  revert h
  cases i <;> decide

/-- R41 to R44: a step that is no reset, no power-on and no completion keeps the four result registers. -/
theorem step_keeps_results {s t : State} (hstep : step s = .next t) (hreset : ¬Resets s) (hpower : ¬PowersOn s) :
    (t.capacity = s.capacity ∧ t.embCount = s.embCount ∧ t.outLen = s.outLen ∧ t.unitsUsed = s.unitsUsed) ∨
      ∃ i, EngineCompletes s i ∧ CommandKeeps i s t := by
  cases step_effect hstep with
  | completed ts w i hbusy hdecode hi h =>
    obtain ⟨hflags, hkey, hcap, hembed, hextract, hunits⟩ := exec_busy_keeps (s := { s with inputs := ts }) hbusy h
    exact .inr ⟨i, engineCompletes_of_effect hbusy hdecode hi, hflags, hkey, hcap, hembed, hextract, hunits⟩
  | issued ts r v i hidle _ _ h =>
    rcases exec_idle_cases (s := { s with inputs := ts, response := r }) hidle h with ⟨code, -, rfl⟩ | ⟨-, rfl⟩
    · exact .inl ⟨rfl, rfl, rfl, rfl⟩
    · exact .inl ⟨rfl, rfl, rfl, rfl⟩
  | reset ts hi _ => exact absurd ⟨ts, hi⟩ hreset
  | poweredOn ts hi _ => exact absurd ⟨ts, hi⟩ hpower
  | _ => subst_vars; exact .inl ⟨rfl, rfl, rfl, rfl⟩

/-- Settles O38: a result that changes names the operation that completed. -/
theorem resultRegistersHaveTheirWriters : Obligations.ResultRegistersHaveTheirWriters := by
  intro s t hstep hreset hpower
  rcases step_keeps_results hstep hreset hpower with ⟨hcap, hemb, hout, hunits⟩ | ⟨i, hcompletes, hkeeps⟩
  · exact ⟨fun hne => absurd hcap hne, fun hne => absurd hemb hne, fun hne => absurd hout hne,
      fun hne => absurd hunits hne⟩
  · refine ⟨fun hne => ?_, fun hne => ⟨i, mem_embeds_iff.2 ?_, hcompletes⟩,
      fun hne => ⟨i, mem_extracts_iff.2 ?_, hcompletes⟩, fun hne => ⟨i, mem_writers_unitsUsed ?_, hcompletes⟩⟩
    · have hop : i.operation = .cap := by_contra fun hop => hne (hkeeps.capacity hop)
      exact eq_cap_of_operation hop ▸ hcompletes
    · exact by_contra fun hop => hne (hkeeps.embed hop).1
    · exact by_contra fun hop => hne (hkeeps.extract hop).1
    · by_contra hop
      exact hne (hkeeps.unitsUsed (fun he => hop (.inl he)) fun hx => hop (.inr hx))

/-- R62: a write of at least one byte that fits a window is a write in the window. -/
theorem writesWindow_of_fits {s : State} {ts : List Turn} {a : Word} {n : AccessSize} {v : Word} {base o size : Nat}
    (hi : s.inputs = .write a n v :: ts) (ha : a.toNat = base + o) (hfit : o + n.bytes ≤ size) :
    WritesWindow s base size := by
  have hn := n.bytes_pos
  exact ⟨a, n, v, ts, hi, by omega, by omega⟩

/-- R221: a reset changes a RAM only while a command is in flight, and KEY RAM never. -/
theorem assertReset_rams {s : State} {ts : List Turn} :
    (assertReset { s with inputs := ts }).key = s.key ∧
      (s.busy = true ∨ (assertReset { s with inputs := ts }).pay = s.pay ∧
        (assertReset { s with inputs := ts }).pix = s.pix ∧ (assertReset { s with inputs := ts }).perm = s.perm) := by
  obtain ⟨hkey, -, -, -, hidle⟩ := abandon_rams { s with inputs := ts }
  refine ⟨hkey, ?_⟩
  cases hb : s.busy with
  | true => exact .inl rfl
  | false =>
    rw [assertReset_pay, assertReset_pix, assertReset_perm, hidle hb]
    exact .inr ⟨rfl, rfl, rfl⟩

/-- Settles O39: of a step's effects, each that changes a RAM is one of those the rule names. -/
theorem ramsHaveTheirWriters : Obligations.RamsHaveTheirWriters := by
  intro s t hstep hpower
  cases step_effect hstep with
  | keyWritten ts r o n addr v hidle hi ha hfit h =>
    subst h
    exact ⟨fun _ => ⟨hidle, writesWindow_of_fits hi ha hfit⟩, fun hne => absurd rfl hne, fun hne => absurd rfl hne,
      fun hne => absurd rfl hne⟩
  | payWritten ts r o n addr v hidle hi ha hfit h =>
    subst h
    exact ⟨fun hne => absurd rfl hne, fun _ => .inl ⟨hidle, writesWindow_of_fits hi ha hfit⟩,
      fun hne => absurd rfl hne, fun hne => absurd rfl hne⟩
  | pixWritten ts r o n addr v hidle hi ha hfit h =>
    subst h
    exact ⟨fun hne => absurd rfl hne, fun hne => absurd rfl hne,
      fun _ => .inl ⟨hidle, writesWindow_of_fits hi ha hfit⟩, fun hne => absurd rfl hne⟩
  | completed ts w i hbusy hdecode hi h =>
    have hcompletes := engineCompletes_of_effect hbusy hdecode hi
    have hkeeps := exec_busy_keeps (s := { s with inputs := ts }) hbusy h
    obtain ⟨-, hperm⟩ := exec_stores_path (s := { s with inputs := ts }) hbusy h
    refine ⟨fun hne => absurd hkeeps.key hne, fun hne => .inr (.inl ⟨i, mem_extracts_iff.2 ?_, hcompletes⟩),
      fun hne => .inr (.inl ⟨i, mem_embeds_iff.2 ?_, hcompletes⟩),
      fun hne => .inl ⟨i, mem_writers_perm ?_, hcompletes⟩⟩
    · exact by_contra fun hop => hne (hkeeps.extract hop).2
    · exact by_contra fun hop => hne (hkeeps.embed hop).2
    · by_contra hop
      obtain ⟨hnotPerm, hunkeyed⟩ := not_or.1 hop
      exact hne (hperm hnotPerm (Bool.eq_false_iff.2 hunkeyed))
  | issued ts r v i hidle _ _ h =>
    rcases exec_idle_cases (s := { s with inputs := ts, response := r }) hidle h with ⟨code, -, rfl⟩ | ⟨-, rfl⟩
    all_goals exact ⟨fun hne => absurd rfl hne, fun hne => absurd rfl hne, fun hne => absurd rfl hne,
      fun hne => absurd rfl hne⟩
  | reset ts hi h =>
    subst h
    obtain ⟨hkey, hbusy | ⟨hpay, hpix, hperm⟩⟩ := assertReset_rams (s := s) (ts := ts)
    · exact ⟨fun hne => absurd hkey hne, fun _ => .inr (.inr ⟨hbusy, ts, hi⟩), fun _ => .inr (.inr ⟨hbusy, ts, hi⟩),
        fun _ => .inr ⟨hbusy, ts, hi⟩⟩
    · exact ⟨fun hne => absurd hkey hne, fun hne => absurd hpay hne, fun hne => absurd hpix hne,
        fun hne => absurd hperm hne⟩
  | poweredOn ts hi _ => exact absurd ⟨ts, hi⟩ hpower
  | _ =>
    subst_vars
    exact ⟨fun hne => absurd rfl hne, fun hne => absurd rfl hne, fun hne => absurd rfl hne, fun hne => absurd rfl hne⟩

/-! ### The sticky flags -/

/-- R30: what happens to OVERRUN in a step that is no reset and no power-on: it is kept, set, or acknowledged. -/
theorem step_overrun {s t : State} (hstep : step s = .next t) :
    t.overrun = s.overrun ∨ t.overrun = true ∨
      (∃ v, WritesRegister s 0x00C v ∧ t.overrun = (s.overrun && !v.getLsbD 3)) ∨ Resets s ∨ PowersOn s := by
  cases step_effect hstep with
  | blanked ts r _ h => exact .inr (.inl (by rw [h]))
  | acknowledged ts r v hi h => exact .inr (.inr (.inl ⟨v, ⟨ts, hi⟩, by rw [h]; rfl⟩))
  | completed ts w i hbusy _ _ h =>
    obtain ⟨-, -, hoverrun⟩ := (exec_busy_keeps (s := { s with inputs := ts }) hbusy h).flags
    exact .inl hoverrun
  | issued ts r v i hidle _ _ h =>
    rcases exec_idle_cases (s := { s with inputs := ts, response := r }) hidle h with ⟨code, -, rfl⟩ | ⟨-, rfl⟩
    all_goals exact .inl rfl
  | reset ts hi _ => exact .inr (.inr (.inr (.inl ⟨ts, hi⟩)))
  | poweredOn ts hi _ => exact .inr (.inr (.inr (.inr ⟨ts, hi⟩)))
  | _ => subst_vars; exact .inl rfl

/-- Settles O40: a set OVERRUN is lost only to an acknowledgement with bit 3, or to a reset or power-on. -/
theorem overrunIsSticky : Obligations.OverrunIsSticky := by
  intro s t hstep hset hclear
  rcases step_overrun hstep with hkept | hset' | ⟨v, hwrite, hack⟩ | hreset
  · exact absurd (hclear.symm.trans (hkept.trans hset)) Bool.false_ne_true
  · exact absurd (hclear.symm.trans hset') Bool.false_ne_true
  · rw [hclear, hset, Bool.true_and] at hack
    exact .inl ⟨v, hwrite, by simpa using hack.symm⟩
  · exact .inr hreset

/-- R29, R32: what happens to ERR and ERRCODE in a step: they are kept, acknowledged, set by a rejection, or reset. -/
theorem step_err {s t : State} (hstep : step s = .next t) :
    t.err = s.err ∨
      (∃ v, WritesRegister s 0x00C v ∧ t.err = (s.err && !v.getLsbD 2) ∧
        t.errcode = if v.getLsbD 2 then .noError else s.errcode) ∨
      (s.busy = false ∧ (∃ v, WritesRegister s 0x008 v) ∧ t.err = true ∧ t.errcode ≠ .noError) ∨
      (Resets s ∨ PowersOn s) ∧ t.err = false ∧ t.errcode = .noError := by
  cases step_effect hstep with
  | acknowledged ts r v hi h => exact .inr (.inl ⟨v, ⟨ts, hi⟩, by rw [h]; rfl, by rw [h]; rfl⟩)
  | illegal ts r v hidle hi _ h =>
    subst h
    exact .inr (.inr (.inl ⟨not_busy_of_engine hidle, ⟨v, ts, hi⟩, rfl, ErrCode.noConfusion⟩))
  | issued ts r v i hidle hi _ h =>
    rcases exec_idle_cases (s := { s with inputs := ts, response := r }) hidle h with ⟨code, hcode, rfl⟩ | ⟨-, rfl⟩
    · exact .inr (.inr (.inl ⟨not_busy_of_engine hidle, ⟨v, ts, hi⟩, rfl, hcode⟩))
    · exact .inl rfl
  | completed ts w i hbusy _ _ h =>
    obtain ⟨herr, -, -⟩ := (exec_busy_keeps (s := { s with inputs := ts }) hbusy h).flags
    exact .inl herr
  | reset ts hi h => exact .inr (.inr (.inr ⟨.inl ⟨ts, hi⟩, by rw [h]; rfl, by rw [h]; rfl⟩))
  | poweredOn ts hi h => exact .inr (.inr (.inr ⟨.inr ⟨ts, hi⟩, by rw [h]; rfl, by rw [h]; rfl⟩))
  | _ => subst_vars; exact .inl rfl

/-- Settles O41: each way that ERR can change is one of those the rule names, with its ERRCODE. -/
theorem errIsSticky : Obligations.ErrIsSticky := by
  intro s t hstep
  rcases step_err hstep with hkept | ⟨v, hwrite, herr, hcode⟩ | ⟨hidle, hwrite, herr, hcode⟩ | ⟨hreset, herr, hcode⟩
  · exact ⟨fun hset hclear => absurd (hclear.symm.trans (hkept.trans hset)) Bool.false_ne_true,
      fun hclear hset => absurd (hclear.symm.trans (hkept.symm.trans hset)) Bool.false_ne_true⟩
  · refine ⟨fun hset hclear => ?_, fun hclear hset => ?_⟩
    · rw [hclear, hset, Bool.true_and] at herr
      have hbit : v.getLsbD 2 = true := by simpa using herr.symm
      exact ⟨.inl ⟨v, hwrite, hbit⟩, by rw [hcode, if_pos hbit]⟩
    · rw [hclear, Bool.false_and] at herr
      exact absurd (herr.symm.trans hset) Bool.false_ne_true
  · exact ⟨fun _ hclear => absurd (hclear.symm.trans herr) Bool.false_ne_true, fun _ _ => ⟨hidle, hwrite, hcode⟩⟩
  · exact ⟨fun _ _ => ⟨.inr hreset, hcode⟩, fun _ hset => absurd (herr.symm.trans hset) Bool.false_ne_true⟩

/-! ### BUSY and DONE -/

/-- R26, R27: what happens to BUSY and DONE in a step: BUSY is kept with DONE kept or cleared, a command is accepted, the
held command completes, or all is reset. -/
theorem step_busy_done {s t : State} (hstep : step s = .next t) :
    (t.busy = s.busy ∧ (t.done = true → s.done = true)) ∨
      (s.busy = false ∧ t.done = false ∧
        ∃ i, WritesRegister s 0x008 (commandWord i) ∧ t.engine = .busy (commandWord i)) ∨
      (s.busy = true ∧ t.busy = false ∧ ∃ i, EngineCompletes s i) ∨
      (Resets s ∨ PowersOn s) ∧ t.busy = false ∧ t.done = false := by
  cases step_effect hstep with
  | acknowledged ts r v hi h =>
    subst h
    refine .inl ⟨rfl, fun hdone => ?_⟩
    have hack : (s.done && !v.getLsbD 1) = true := hdone
    exact ((Bool.and_eq_true _ _).mp hack).1
  | issued ts r v i hidle hi hdecode h =>
    rcases exec_idle_cases (s := { s with inputs := ts, response := r }) hidle h with ⟨code, -, rfl⟩ | ⟨-, rfl⟩
    · exact .inl ⟨rfl, id⟩
    · obtain rfl : v = commandWord i := (decode_ok_iff.1 hdecode).trans (encode_eq_commandWord i)
      exact .inr (.inl ⟨not_busy_of_engine hidle, rfl, i, ⟨ts, hi⟩, rfl⟩)
  | completed ts w i hbusy hdecode hi h =>
    obtain ⟨hidle, -⟩ := exec_busy_idle_done (s := { s with inputs := ts }) hbusy h
    exact .inr (.inr (.inl ⟨busy_of_engine hbusy, not_busy_of_engine hidle, i,
      engineCompletes_of_effect hbusy hdecode hi⟩))
  | reset ts hi h =>
    subst h
    exact .inr (.inr (.inr ⟨.inl ⟨ts, hi⟩, rfl, rfl⟩))
  | poweredOn ts hi h =>
    subst h
    exact .inr (.inr (.inr ⟨.inr ⟨ts, hi⟩, rfl, rfl⟩))
  | _ => subst_vars; exact .inl ⟨rfl, id⟩

/-- Settles O42: each way that BUSY and DONE can change is one of those the rule names. -/
theorem busyAndDoneHaveTheirEvents : Obligations.BusyAndDoneHaveTheirEvents := by
  intro s t hstep
  rcases step_busy_done hstep with ⟨hkept, hdone⟩ | ⟨hidle, hdone, haccepted⟩ | ⟨hbusy, hidle, hcompletes⟩ |
    ⟨hreset, hidle, hdone⟩
  · exact ⟨fun h0 h1 => absurd (h0.symm.trans (hkept.symm.trans h1)) Bool.false_ne_true,
      fun h1 h0 => absurd (h0.symm.trans (hkept.trans h1)) Bool.false_ne_true,
      fun h0 h1 => absurd (h0.symm.trans (hdone h1)) Bool.false_ne_true⟩
  · exact ⟨fun _ _ => haccepted, fun hbusy _ => absurd (hidle.symm.trans hbusy) Bool.false_ne_true,
      fun _ h1 => absurd (hdone.symm.trans h1) Bool.false_ne_true⟩
  · exact ⟨fun _ hbusy' => absurd (hidle.symm.trans hbusy') Bool.false_ne_true, fun _ _ => .inl hcompletes,
      fun _ _ => hcompletes⟩
  · exact ⟨fun _ hbusy => absurd (hidle.symm.trans hbusy) Bool.false_ne_true, fun _ _ => .inr hreset,
      fun _ h1 => absurd (hdone.symm.trans h1) Bool.false_ne_true⟩

/-! ### Host accesses while BUSY -/

/-- A host access is the next turn, so it is not the engine's, not a reset and not power-on. -/
theorem HostAccesses.not_other_turn {s : State} {write : Bool} {a : Word} {n : AccessSize} (h : HostAccesses s write a n) :
    (s.inputs ≠ [] ∧ ∀ ts, s.inputs ≠ .engine :: ts) ∧ ¬Resets s ∧ ¬PowersOn s := by
  cases write with
  | false =>
    obtain ⟨ts, hi⟩ := h
    simp [Resets, PowersOn, hi]
  | true =>
    obtain ⟨v, ts, hi⟩ := h
    simp [Resets, PowersOn, hi]

/-- Settles O37: while BUSY a host access is quiet, blanked, an acknowledgement or a write to IRQ_EN. -/
theorem inputsAreFrozenWhileBusy : Obligations.InputsAreFrozenWhileBusy := by
  intro s t write addr n hbusy haccess hstep
  obtain ⟨⟨hsome, hnotEngine⟩, hreset, hpower⟩ := haccess.not_other_turn
  have hnotIdle (hidle : s.busy = false) : False := Bool.false_ne_true (hidle.symm.trans hbusy)
  cases step_effect hstep with
  | quiet ts r d hdraws h =>
    obtain rfl := hdraws hbusy
    subst h
    rfl
  | blanked ts r _ h => subst h; rfl
  | acknowledged ts r v _ h => subst h; rfl
  | irqEnabled ts r x h => subst h; rfl
  | lengthWritten ts r a b c d hidle _ => exact (hnotIdle hidle).elim
  | keyWritten ts r o n addr v hidle _ _ _ _ => exact (hnotIdle hidle).elim
  | payWritten ts r o n addr v hidle _ _ _ _ => exact (hnotIdle hidle).elim
  | pixWritten ts r o n addr v hidle _ _ _ _ => exact (hnotIdle hidle).elim
  | illegal ts r v hidle _ _ _ => exact (hnotIdle (not_busy_of_engine hidle)).elim
  | issued ts r v i hidle _ _ _ => exact (hnotIdle (not_busy_of_engine hidle)).elim
  | completed ts w i _ _ hi _ =>
    rcases hi with ⟨hi, -⟩ | hi
    · exact absurd hi hsome
    · exact absurd hi (hnotEngine ts)
  | reset ts hi _ => exact absurd ⟨ts, hi⟩ hreset
  | poweredOn ts hi _ => exact absurd ⟨ts, hi⟩ hpower

end Sys2Proof.Machine

/-! The host port: what register writes store (R22, R26, R33 to R45, R67), and what reads and writes of the RAMs answer and
store (R63 to R65, R67, R79). -/

namespace Sys2Proof.Machine

/-! ### Register writes -/

/-- R60, R67: a write of `v` to a register other than CMD takes the register's own rule, unless BUSY discards it. -/
theorem step_write_reg {s : State} {ts : List Turn} {a v : Word} {r : Reg} (hi : s.inputs = .write a .four v :: ts)
    (ha : a.toNat = r.offset) (hr : r ≠ .cmd) :
    step s = if writableWhileBusy r then .next (answer (.okay 0) (writeReg r v { s with inputs := ts }))
      else .next (writeUnlessBusy (writeReg r v) { s with inputs := ts }) := by
  rw [step_write hi, hostWrite_reg (locate_reg _ ha) hr]

theorem writeUnlessBusy_idle (store : State → State) {s : State} (hidle : s.engine = .idle) :
    writeUnlessBusy store s = answer (.okay 0) (store s) := by
  rw [writeUnlessBusy, not_busy_of_engine hidle, if_neg Bool.false_ne_true]

theorem writeUnlessBusy_busy (store : State → State) {s : State} (hbusy : s.busy = true) :
    writeUnlessBusy store s = answer (.okay 0) (noteOverrun s) := by
  rw [writeUnlessBusy, if_pos hbusy]

/-- R22: while IDLE every register but CMD takes its own rule. -/
theorem step_write_reg_idle {s : State} {ts : List Turn} {a v : Word} {r : Reg} (hidle : s.engine = .idle)
    (hi : s.inputs = .write a .four v :: ts) (ha : a.toNat = r.offset) (hr : r ≠ .cmd) :
    step s = .next (answer (.okay 0) (writeReg r v { s with inputs := ts })) := by
  have hstore := writeUnlessBusy_idle (writeReg r v) (s := { s with inputs := ts }) hidle
  rw [step_write_reg hi ha hr, hstore, ite_self]

/-- Settles O46: STATUS is written in either phase, and a bit that is 1 clears its flag. -/
theorem statusWriteClearsWhatItNames : Obligations.StatusWriteClearsWhatItNames := by
  intro s v ts hi
  have hclear (flag bit : Bool) : (flag && !bit) = if bit then false else flag := by
    cases bit <;> simp
  rw [step_write_reg (r := .status) hi rfl nofun, writableWhileBusy, if_pos rfl]
  simp only [writeReg, acknowledge, hclear, answer]

/-- The read-only registers but CMD (R22), whose writes are ignored. -/
def Reg.readOnly : List Reg :=
  [.id, .version, .errcode, .capacity, .embCount, .outLen, .unitsUsed, .nMax, .kMax, .pMax]

theorem writeReg_readOnly {r : Reg} (hr : r ∈ Reg.readOnly) (v : Word) (s : State) : writeReg r v s = s := by
  cases r with
  | status | pixelLen | bpp | keyLen | payloadLen | irqEn => exact absurd hr (by decide)
  | _ => rfl

theorem ofNat_offset_toNat (r : Reg) : (BitVec.ofNat 32 r.offset).toNat = r.offset :=
  Nat.mod_eq_of_lt (r.offset_lt.trans (by decide))

/-- R8: the low bits of a word, as the statements write them. -/
theorem setWidth_eq_extractLsb'_zero {w m : Nat} (v : BitVec w) : v.setWidth m = v.extractLsb' 0 m := by
  refine BitVec.eq_of_getLsbD_eq fun n hn => ?_
  rw [BitVec.getLsbD_setWidth, BitVec.getLsbD_extractLsb', Nat.zero_add]

/-- Settles O47, register by register. -/
theorem registerWritesStore : Obligations.RegisterWritesStore := by
  intro s v ts
  refine ⟨fun hidle => ⟨fun hi => ?_, fun hi => ?_, fun hi => ?_, fun hi => ?_, fun a ha hi => ?_⟩, fun hi => ?_⟩
  · exact step_write_reg_idle (r := .pixelLen) hidle hi rfl nofun
  · rw [step_write_reg_idle (r := .bpp) hidle hi rfl nofun, ← setWidth_eq_extractLsb'_zero]
    rfl
  · exact step_write_reg_idle (r := .keyLen) hidle hi rfl nofun
  · exact step_write_reg_idle (r := .payloadLen) hidle hi rfl nofun
  · have htable : a ∈ Reg.readOnly.map Reg.offset := ha
    obtain ⟨r, hr, rfl⟩ := List.mem_map.1 htable
    have hcmd : r ≠ .cmd := by
      rintro rfl
      exact absurd hr (by decide)
    rw [step_write_reg_idle hidle hi (ofNat_offset_toNat r) hcmd, writeReg_readOnly hr]
    rfl
  · rw [step_write_reg (r := .irqEn) hi rfl nofun, writableWhileBusy, if_pos rfl, ← setWidth_eq_extractLsb'_zero]
    rfl

/-- The registers whose writes BUSY discards (R67). -/
def Reg.discardedWhileBusy : List Reg :=
  [.id, .version, .cmd, .errcode, .pixelLen, .bpp, .keyLen, .payloadLen, .capacity, .embCount, .outLen, .unitsUsed, .nMax,
    .kMax, .pMax]

/-- R67: while BUSY a write to a register that is not writable then leaves only OVERRUN. -/
theorem step_write_reg_busy {s : State} {ts : List Turn} {a v : Word} {r : Reg} (hbusy : s.busy = true)
    (hi : s.inputs = .write a .four v :: ts) (ha : a.toNat = r.offset) (hr : writableWhileBusy r = false) :
    step s = .next (answer (.okay 0) (noteOverrun { s with inputs := ts })) := by
  have hbusy' : State.busy { s with inputs := ts } = true := hbusy
  by_cases hcmd : r = .cmd
  · subst hcmd
    rw [step_write hi, hostWrite_cmd (locate_reg _ ha), if_pos hbusy']
  · rw [step_write_reg hi ha hcmd, hr, if_neg Bool.false_ne_true, writeUnlessBusy_busy _ hbusy']

/-- Settles O48: the statement's offsets are those of the registers whose writes BUSY discards. -/
theorem busyRegisterWriteIsDiscarded : Obligations.BusyRegisterWriteIsDiscarded := by
  intro s v ts hbusy a ha hi
  have htable : a ∈ Reg.discardedWhileBusy.map Reg.offset := ha
  obtain ⟨r, hr, rfl⟩ := List.mem_map.1 htable
  have hdiscarded : ∀ r ∈ Reg.discardedWhileBusy, writableWhileBusy r = false := by decide
  exact step_write_reg_busy hbusy hi (ofNat_offset_toNat r) (hdiscarded r hr)

/-- Settles O56: reset's registers are constants. -/
theorem resetReadsAsTheTableSays : Obligations.ResetReadsAsTheTableSays :=
  ⟨rfl, rfl, by decide, rfl⟩

/-! ### RAM accesses while BUSY -/

theorem readRam_busy (name : RamName) (m : Ram 8) (o n : Nat) {s : State} (hbusy : s.busy = true) :
    readRam name m o n s = .next (answer (.okay 0) (noteOverrun s)) := by
  rw [readRam, if_pos hbusy]

theorem readPermEntry_busy (k : Nat) {s : State} (hbusy : s.busy = true) :
    readPermEntry k s = .next (answer (.okay 0) (noteOverrun s)) := by
  rw [readPermEntry, if_pos hbusy]

/-- A target in a RAM, not a register. -/
def Target.InRam : Target → Prop
  | .reg _ => False
  | .key _ | .pay _ | .pix _ | .perm _ => True

/-- R67: while BUSY a read of any RAM is blanked. -/
theorem hostRead_ram_busy {a : Word} {n : AccessSize} {x : Target} {s : State} (hx : locate s.params a n = some x)
    (hram : x.InRam) (hbusy : s.busy = true) : hostRead a n s = .next (answer (.okay 0) (noteOverrun s)) := by
  simp only [hostRead, hx]
  cases x with
  | reg r => exact hram.elim
  | key o => exact readRam_busy _ _ _ _ hbusy
  | pay o => exact readRam_busy _ _ _ _ hbusy
  | pix o => exact readRam_busy _ _ _ _ hbusy
  | perm k => exact readPermEntry_busy k hbusy

/-- R67: while BUSY a permitted write to a RAM is discarded. -/
theorem hostWrite_ram_busy {a : Word} {n : AccessSize} {x : Target} {s : State} (v : Word)
    (hx : locate s.params a n = some x) (hram : x.InRam) (hpermits : x.Permits true) (hbusy : s.busy = true) :
    hostWrite a n v s = .next (answer (.okay 0) (noteOverrun s)) := by
  simp only [hostWrite, hx]
  cases x with
  | reg r => exact hram.elim
  | perm k => cases hpermits
  | key o => exact congrArg _ (writeUnlessBusy_busy _ hbusy)
  | pay o => exact congrArg _ (writeUnlessBusy_busy _ hbusy)
  | pix o => exact congrArg _ (writeUnlessBusy_busy _ hbusy)

/-- Settles O49: an access above the registers locates a RAM, whatever its direction. -/
theorem busyRamAccessIsBlanked : Obligations.BusyRamAccessIsBlanked := by
  intro s write addr n hlegal hbusy haccess hlegalAccess haddr
  obtain ⟨x, hx, hpermits⟩ := (legalAccess_iff_locate hlegal).1 hlegalAccess
  have hram : x.InRam := by
    cases x with
    | reg r =>
      obtain ⟨-, hoffset⟩ := locate_some hx
      have hlt := r.offset_lt
      omega
    | _ => trivial
  cases write with
  | false =>
    obtain ⟨ts, hi⟩ := haccess
    rw [step_read hi, hi]
    exact hostRead_ram_busy (s := { s with inputs := ts }) hx hram hbusy
  | true =>
    obtain ⟨v, ts, hi⟩ := haccess
    rw [step_write hi, hi]
    exact hostWrite_ram_busy (s := { s with inputs := ts }) v hx hram hpermits hbusy

/-! ### RAM writes while IDLE (R65) -/

/-- R61: an offset inside a window keeps its address below 2^32. -/
theorem toNat_ofNat_base {base o size : Nat} {n : AccessSize} (hfit : o + n.bytes ≤ size) (hsize : base + size < 2 ^ 32) :
    (BitVec.ofNat 32 (base + o)).toNat = base + o :=
  Nat.mod_eq_of_lt (by omega)

/-- R65: byte v[k+7:k] of a word. -/
theorem setWidth_ushiftRight_eq_extractLsb' {w m : Nat} (v : BitVec w) (k : Nat) :
    (v >>> k).setWidth m = v.extractLsb' k m := by
  refine BitVec.eq_of_getLsbD_eq fun n hn => ?_
  rw [BitVec.getLsbD_setWidth, BitVec.getLsbD_extractLsb', BitVec.getLsbD_ushiftRight]

/-- R65: the cells after a little-endian write of `n` bytes at `o`. -/
theorem read_writeList_bytesOfWord (m : Ram 8) (o n : Nat) (v : Word) (k : Nat) :
    Ram.read (Ram.writeList m o (bytesOfWord n v)) k =
      if o ≤ k ∧ k < o + n then some (v.extractLsb' (8 * (k - o)) 8) else Ram.read m k := by
  rw [Ram.read_writeList, bytesOfWord_length]
  split_ifs with hin
  · rw [bytesOfWord_getElem?, if_pos (by omega), setWidth_ushiftRight_eq_extractLsb']
  · rfl

section ByteRams

variable {s : State} {ts : List Turn} {a : Word} {n : AccessSize} {o : Nat} {v : Word}

theorem hostWrite_key_idle (hidle : s.engine = .idle) (hx : locate s.params a n = some (.key o)) :
    hostWrite a n v s =
      .next { s with response := some (.okay 0), key := Ram.writeList s.key o (bytesOfWord n.bytes v) } := by
  simp only [hostWrite, hx]
  rw [writeUnlessBusy_idle _ hidle]
  rfl

theorem hostWrite_pay_idle (hidle : s.engine = .idle) (hx : locate s.params a n = some (.pay o)) :
    hostWrite a n v s =
      .next { s with response := some (.okay 0), pay := Ram.writeList s.pay o (bytesOfWord n.bytes v) } := by
  simp only [hostWrite, hx]
  rw [writeUnlessBusy_idle _ hidle]
  rfl

theorem hostWrite_pix_idle (hidle : s.engine = .idle) (hx : locate s.params a n = some (.pix o)) :
    hostWrite a n v s =
      .next { s with response := some (.okay 0), pix := Ram.writeList s.pix o (bytesOfWord n.bytes v) } := by
  simp only [hostWrite, hx]
  rw [writeUnlessBusy_idle _ hidle]
  rfl

end ByteRams

/-- R7, R61: every window lies below 2^32. -/
theorem windows_lt {p : Params} (hp : p.Legal) :
    keyBase + p.kMax.toNat < 2 ^ 32 ∧ payBase + p.pMax.toNat < 2 ^ 32 ∧ pixBase + p.nMax.toNat < 2 ^ 32 ∧
      permBase + 4 * p.nMax.toNat < 2 ^ 32 := by
  have hbases := regionBases
  omega

/-- Settles O50: each window is located, and a write while IDLE stores its bytes. -/
theorem ramWritesStoreLittleEndian : Obligations.RamWritesStoreLittleEndian := by
  intro s ts o n v hp hidle haligned
  obtain ⟨hkey, hpay, hpix, -⟩ := windows_lt hp
  refine ⟨fun hfit hi => ⟨_, ?_, read_writeList_bytesOfWord s.key o n.bytes v⟩,
    fun hfit hi => ⟨_, ?_, read_writeList_bytesOfWord s.pay o n.bytes v⟩,
    fun hfit hi => ⟨_, ?_, read_writeList_bytesOfWord s.pix o n.bytes v⟩⟩
  · rw [step_write hi]
    exact hostWrite_key_idle (s := { s with inputs := ts }) hidle
      (locate_key (toNat_ofNat_base hfit hkey) haligned hfit)
  · rw [step_write hi]
    exact hostWrite_pay_idle (s := { s with inputs := ts }) hidle
      (locate_pay hp (toNat_ofNat_base hfit hpay) haligned hfit)
  · rw [step_write hi]
    exact hostWrite_pix_idle (s := { s with inputs := ts }) hidle
      (locate_pix hp (toNat_ofNat_base hfit hpix) haligned hfit)

/-! ### RAM reads while IDLE (R64, R79) -/

/-- R64: bit `j` of bytes combined little-endian is bit `j` mod 8 of byte `j` div 8. -/
theorem wordOfBytes_map_bit (byte : Nat → Byte) {n : Nat} (hn : n ≤ 4) (j : Nat) :
    (wordOfBytes ((List.range n).map byte)).getLsbD j = (decide (j < 8 * n) && (byte (j / 8)).getLsbD (j % 8)) := by
  induction n generalizing byte j with
  | zero => simp [wordOfBytes]
  | succ n ih =>
    rw [List.range_succ_eq_map, List.map_cons, List.map_map, wordOfBytes, BitVec.getLsbD_or, BitVec.getLsbD_setWidth,
      BitVec.getLsbD_shiftLeft, ih (byte ∘ Nat.succ) (by omega)]
    by_cases hfirst : j < 8
    · have hrange : j < 32 ∧ j < 8 * (n + 1) := by omega
      simp [hfirst, hrange, Nat.div_eq_of_lt hfirst, Nat.mod_eq_of_lt hfirst]
    · have hbyte : (byte 0).getLsbD j = false := BitVec.getLsbD_of_ge _ _ (by omega)
      have hnext : (j - 8) / 8 + 1 = j / 8 ∧ (j - 8) % 8 = j % 8 := by omega
      have hiff : (j < 32 ∧ j - 8 < 8 * n) ↔ j < 8 * (n + 1) := by omega
      simp only [hbyte, hfirst, hnext, Function.comp, Nat.succ_eq_add_one, Bool.and_false, Bool.false_or, decide_false,
        Bool.not_false, Bool.and_true, ← Bool.and_assoc, ← Bool.decide_and, hiff]

theorem AccessSize.bytes_le (n : AccessSize) : n.bytes ≤ 4 := by
  cases n <;> decide

/-- The byte RAMs with their bases, names and sizes (R61). -/
def byteRams (s : State) : List (Nat × RamName × Ram 8 × Word) :=
  [(keyBase, RamName.key, s.key, s.params.kMax), (payBase, .payload, s.pay, s.params.pMax),
    (pixBase, .pixel, s.pix, s.params.nMax)]

section LocatedReads

variable {a : Word} {n : AccessSize} {o : Nat} {s : State}

theorem hostRead_key (hx : locate s.params a n = some (.key o)) : hostRead a n s = readRam .key s.key o n.bytes s := by
  simp only [hostRead, hx]

theorem hostRead_pay (hx : locate s.params a n = some (.pay o)) :
    hostRead a n s = readRam .payload s.pay o n.bytes s := by
  simp only [hostRead, hx]

theorem hostRead_pix (hx : locate s.params a n = some (.pix o)) :
    hostRead a n s = readRam .pixel s.pix o n.bytes s := by
  simp only [hostRead, hx]

end LocatedReads

/-- R61, R64: a legal read in a window of a byte RAM is a read of that RAM. -/
theorem step_read_byteRam {s : State} {ts : List Turn} {o : Nat} {n : AccessSize} (hp : s.params.Legal)
    (haligned : o % n.bytes = 0) {e : Nat × RamName × Ram 8 × Word} (he : e ∈ byteRams s)
    (hfit : o + n.bytes ≤ e.2.2.2.toNat) (hi : s.inputs = .read (BitVec.ofNat 32 (e.1 + o)) n :: ts) :
    step s = readRam e.2.1 e.2.2.1 o n.bytes { s with inputs := ts } := by
  obtain ⟨hkey, hpay, hpix, -⟩ := windows_lt hp
  rw [step_read hi]
  simp only [byteRams, List.mem_cons, List.not_mem_nil, or_false] at he
  rcases he with rfl | rfl | rfl
  · exact hostRead_key (s := { s with inputs := ts }) (locate_key (toNat_ofNat_base hfit hkey) haligned hfit)
  · exact hostRead_pay (s := { s with inputs := ts }) (locate_pay hp (toNat_ofNat_base hfit hpay) haligned hfit)
  · exact hostRead_pix (s := { s with inputs := ts }) (locate_pix hp (toNat_ofNat_base hfit hpix) haligned hfit)

section IdleReads

variable {name : RamName} {m : Ram 8} {o n k : Nat} {s : State}

theorem readRam_ok (hidle : s.engine = .idle) {bs : List Byte} {d : Nat}
    (h : readBytes s.params.unwritten name m o n s.draws = .ok (bs, d)) :
    readRam name m o n s = .next { s with response := some (.okay (wordOfBytes bs)), draws := d } := by
  rw [readRam, not_busy_of_engine hidle, if_neg Bool.false_ne_true, h]
  rfl

theorem readRam_fault (hidle : s.engine = .idle) {f : Fault}
    (h : readBytes s.params.unwritten name m o n s.draws = .error f) : readRam name m o n s = .fault f := by
  rw [readRam, not_busy_of_engine hidle, if_neg Bool.false_ne_true, h]

theorem readPermEntry_ok (hidle : s.engine = .idle) {v : Word} {d : Nat}
    (h : readCell s.params.unwritten .perm Config.drawnEntry (Ram.read s.perm k) s.draws = .ok (v, d)) :
    readPermEntry k s = .next { s with response := some (.okay v), draws := d } := by
  rw [readPermEntry, not_busy_of_engine hidle, if_neg Bool.false_ne_true, h]
  rfl

theorem readPermEntry_fault (hidle : s.engine = .idle) {f : Fault}
    (h : readCell s.params.unwritten .perm Config.drawnEntry (Ram.read s.perm k) s.draws = .error f) :
    readPermEntry k s = .fault f := by
  rw [readPermEntry, not_busy_of_engine hidle, if_neg Bool.false_ne_true, h]

end IdleReads

/-- R64: specified bytes are combined as they are, and nothing is drawn. -/
theorem step_read_specified {s : State} {ts : List Turn} {o : Nat} {n : AccessSize} (hp : s.params.Legal)
    (hidle : s.engine = .idle) (haligned : o % n.bytes = 0) {e : Nat × RamName × Ram 8 × Word} (he : e ∈ byteRams s)
    (hfit : o + n.bytes ≤ e.2.2.2.toNat) (hi : s.inputs = .read (BitVec.ofNat 32 (e.1 + o)) n :: ts)
    (hspec : ∀ k, o ≤ k → k < o + n.bytes → Specified e.2.2.1 k) :
    ∃ v : Word, step s = .next { s with inputs := ts, response := some (.okay v) } ∧
      ∀ j, v.getLsbD j = (decide (j < 8 * n.bytes) && ((Ram.read e.2.2.1 (o + j / 8)).getD 0).getLsbD (j % 8)) := by
  have hread := readBytes_specified (mode := s.params.unwritten) (name := e.2.1) (m := e.2.2.1) (o := o) (n := n.bytes)
    (d := s.draws) fun k hk => hspec (o + k) (Nat.le_add_right o k) (by omega)
  refine ⟨_, ?_, wordOfBytes_map_bit (fun k => (Ram.read e.2.2.1 (o + k)).getD 0) n.bytes_le⟩
  rw [step_read_byteRam hp haligned he hfit hi]
  exact readRam_ok (s := { s with inputs := ts }) hidle hread

/-- Settles O51: the three byte RAMs of the statement are those of `byteRams`. -/
theorem ramReadsReturnLittleEndian : Obligations.RamReadsReturnLittleEndian := by
  intro s ts o n hp hidle haligned e he hfit hspec hi
  have htable : e ∈ (byteRams s).map fun r => (r.1, r.2.2.1, r.2.2.2) := he
  obtain ⟨r, hr, rfl⟩ := List.mem_map.1 htable
  exact step_read_specified hp hidle haligned hr hfit hi hspec

/-- Settles O31: the free values are taken lowest address first, one for each unspecified byte. -/
theorem hostReadOfUnspecifiedByte : Obligations.HostReadOfUnspecifiedByte := by
  intro s ts o n hp hidle haligned e he hfit hi hunspecified
  rw [step_read_byteRam hp haligned he hfit hi]
  refine ⟨fun hfault => ?_, fun hdraw => ?_⟩
  · obtain ⟨k, hle, hlt, hnone⟩ := hunspecified
    have hcell : Ram.read e.2.2.1 (o + (k - o)) = none := by
      rw [Nat.add_sub_cancel' hle]
      exact Option.not_isSome_iff_eq_none.1 hnone
    refine readRam_fault (s := { s with inputs := ts }) hidle ?_
    rw [hfault]
    exact readBytes_fault (by omega) hcell
  · refine ⟨_, readRam_ok (s := { s with inputs := ts }) hidle ?_, wordOfBytes_map_bit (fun k =>
      (Ram.read e.2.2.1 (o + k)).getD (Config.drawnByte (s.draws + unspecifiedAmong e.2.2.1 o k))) n.bytes_le⟩
    rw [hdraw]
    exact readBytes_drawn e.2.1 e.2.2.1 o n.bytes s.draws

/-- R63: a read of an entry of the PERM window is a read of that entry. -/
theorem step_read_perm {s : State} {ts : List Turn} {k : Nat} (hp : s.params.Legal) (hk : k < s.params.nMax.toNat)
    (hi : s.inputs = .read (BitVec.ofNat 32 (0x40000000 + 4 * k)) .four :: ts) :
    step s = readPermEntry k { s with inputs := ts } := by
  obtain ⟨-, -, -, hperm⟩ := windows_lt hp
  have hbases := regionBases
  have ha : (BitVec.ofNat 32 (0x40000000 + 4 * k)).toNat = permBase + 4 * k := Nat.mod_eq_of_lt (by omega)
  rw [step_read hi]
  simp only [hostRead, locate_perm hp ha hk]

/-- Settles O32: the entry is a cell of its own, with its own free values. -/
theorem hostReadOfUnspecifiedEntry : Obligations.HostReadOfUnspecifiedEntry := by
  intro s ts k hp hidle hk hi hunspecified
  have hcell : Ram.read s.perm k = none := Option.not_isSome_iff_eq_none.1 hunspecified
  rw [step_read_perm hp hk hi]
  refine ⟨fun hfault => readPermEntry_fault (s := { s with inputs := ts }) hidle ?_,
    fun hdraw => readPermEntry_ok (s := { s with inputs := ts }) hidle ?_⟩
  · rw [hfault, hcell, readCell_fault]
  · rw [hdraw, hcell, readCell_draw]

/-- Settles O52: a specified entry is answered as stored, without a draw. -/
theorem permReadsReturnTheEntry : Obligations.PermReadsReturnTheEntry := by
  intro s ts k v hp hidle hk hcell hi
  rw [step_read_perm hp hk hi]
  refine readPermEntry_ok (s := { s with inputs := ts }) hidle ?_
  rw [hcell, readCell_some]

end Sys2Proof.Machine
